-- ==== Sys2Proof/Word.lean ====
section
/-! DEFINITION. The plain values the engine handles: bytes, 32-bit register words, the LZSS token,
the three encodings of the opcode table (a command word, a token, a container) and the bit reader. -/

namespace Sys2Proof

/-- One byte of a buffer memory or of a container (20_memory.md R38). -/
abbrev Byte := BitVec 8

/-- One word of the register window (10_state.md R18). -/
abbrev Word := BitVec 32

/-- An LZSS token (00_scope.md R15 glossary, doc00 §3): a raw byte, or a back-reference that copies `len` bytes
starting `d` bytes before the current output end. Distances and lengths are exact naturals (00_scope.md R11). -/
inductive Token where
  | literal (b : Byte)
  | copy (d len : Nat)
  deriving DecidableEq, Repr

/-- The three encodings of spec/opcode_table.json (its column "format"): the 32-bit command word (30_encoding.md R54),
an LZSS token whose field widths wD and wL come from the container header (R61), and a container that must carry the
identifier `ident` (R57, R68). -/
inductive Format where
  | command
  | token (wD wL : Nat)
  | container (ident : Byte)
  deriving DecidableEq, Repr

/-- A bitstream reader (40_bitstream.md R80): a source byte sequence and a bit index into it. -/
structure Reader where
  src : List Byte
  pos : Nat
  deriving DecidableEq, Repr

end Sys2Proof
end

