-- ==== Sys2Proof/Syntax.lean ====
section
/-! DEFINITION. The syntax: one constructor per row of spec/opcode_table.json. -/

namespace Sys2Proof

/-- The rows of spec/opcode_table.json: six commands and the reserved command words (30_encoding.md R55, R67), the two
LZSS tokens (R62, R63) and the three containers, each with the fields of its header (R58, R59, R60). -/
inductive Instr where
  /-- LZSSCompress, OP = 0x1 (42_lzss.md R109). -/
  | lzssCompress
  /-- LZSSDecompress, OP = 0x2 (42_lzss.md R110). -/
  | lzssDecompress
  /-- HuffmanCompress, OP = 0x3 (43_huffman.md R128). -/
  | huffmanCompress
  /-- HuffmanDecompress, OP = 0x4 (43_huffman.md R129). -/
  | huffmanDecompress
  /-- HSCompress, OP = 0x5 (44_hybrid.md R136). -/
  | hsCompress
  /-- HSDecompress, OP = 0x6 (44_hybrid.md R137). -/
  | hsDecompress
  /-- A reserved command, OP = 0x0 or 0x7..0xF (30_encoding.md R67, 60_exceptions.md R139). -/
  | reservedCommand (op : BitVec 4)
  /-- The literal token LIT (30_encoding.md R62). -/
  | lit (b : Byte)
  /-- The match token MATCH: distance and length, each one more than its stored field (30_encoding.md R63, R64). -/
  | matchTok (d len : Nat)
  /-- The LZSS container header: N, D and L (30_encoding.md R58). -/
  | lzssContainer (n d l : Word)
  /-- The Huffman container header: N and the 256 code lengths (30_encoding.md R59). -/
  | huffmanContainer (n : Word) (lens : List Byte)
  /-- The HS container header, laid out as the Huffman one (30_encoding.md R60). -/
  | hsContainer (n : Word) (lens : List Byte)
  deriving DecidableEq, Repr

end Sys2Proof
end

