-- ==== Sys2Proof/WellFormed.lean ====
section
/-! DEFINITION. Which instructions an encoding can carry. -/

namespace Sys2Proof

/-- OP values that name no command: 0x0 and 0x7..0xF (30_encoding.md R67). -/
def reservedOp (op : BitVec 4) : Bool := op == 0 || 7 ≤ op.toNat

/-- The operands a match token of field widths `wD`, `wL` can encode: distance 1..2^wD and length 1..2^wL
(30_encoding.md R64); the widths are 0..32 (R61). -/
def matchEncodable (wD wL d len : Nat) : Bool :=
  decide (wD ≤ 32) && decide (wL ≤ 32) && decide (1 ≤ d) && decide (d ≤ 2 ^ wD) && decide (1 ≤ len) && decide (len ≤ 2 ^ wL)

/-- `i` can be written in the encoding `f`: it is of the family of `f`, a reserved command carries a reserved OP, a
match fits its fields, and a code-length table has one byte for each of the 256 symbols (30_encoding.md R59). -/
def wellFormed : Format → Instr → Bool
  | .command, .lzssCompress => true
  | .command, .lzssDecompress => true
  | .command, .huffmanCompress => true
  | .command, .huffmanDecompress => true
  | .command, .hsCompress => true
  | .command, .hsDecompress => true
  | .command, .reservedCommand op => reservedOp op
  | .token wD wL, .lit _ => decide (wD ≤ 32) && decide (wL ≤ 32)
  | .token wD wL, .matchTok d len => matchEncodable wD wL d len
  | .container ident, .lzssContainer _ _ _ => ident == 1
  | .container ident, .huffmanContainer _ lens => ident == 2 && lens.length == 256
  | .container ident, .hsContainer _ lens => ident == 3 && lens.length == 256
  | _, _ => false

end Sys2Proof
end

