-- ==== Sys2Proof/Decode.lean ====
section
/-! DEFINITION. Bit and byte order, the bit reader, the decoder of the three encodings of spec/opcode_table.json, and
after it the encoder written from the same tables (30_encoding.md). -/

namespace Sys2Proof

/-! ## Helper functions (00_scope.md R14) -/

/-- `clog2 x`, for x ≥ 1, is the smallest w with 2^w ≥ x (00_scope.md R14). -/
def clog2 (x : Nat) : Nat := if x ≤ 1 then 0 else Nat.log2 (x - 1) + 1

/-- Byte `i` of a byte sequence, for an index inside it (00_scope.md R12). -/
def byteAt (buf : List Byte) (i : Nat) : Byte := buf.getD i 0

/-- The big-endian 32-bit field at index `i` (00_scope.md R14, 20_memory.md R40). -/
def be32 (buf : List Byte) (i : Nat) : Nat :=
  2 ^ 24 * (byteAt buf i).toNat + 2 ^ 16 * (byteAt buf (i + 1)).toNat + 2 ^ 8 * (byteAt buf (i + 2)).toNat
    + (byteAt buf (i + 3)).toNat

/-- The four bytes of a 32-bit value, most significant first (00_scope.md R14, 20_memory.md R40). -/
def u32be (v : Nat) : List Byte :=
  [BitVec.ofNat 8 (v / 2 ^ 24), BitVec.ofNat 8 (v / 2 ^ 16), BitVec.ofNat 8 (v / 2 ^ 8), BitVec.ofNat 8 v]

/-- The `w` bits of `v`, most significant first (20_memory.md R41). -/
def valueBits (v : Nat) : Nat → List Bool
  | 0 => []
  | w + 1 => v.testBit w :: valueBits v w

/-- The number whose bits, most significant first, are `bs` (40_bitstream.md R82). -/
def bitsValue (bs : List Bool) : Nat := bs.foldl (fun v b => 2 * v + b.toNat) 0

/-! ## The bit reader (40_bitstream.md R80 to R82) -/

/-- Bit `q` of a byte sequence: bit 7 − q mod 8 of byte q div 8 (40_bitstream.md R80). -/
def bitAt (src : List Byte) (q : Nat) : Bool := (byteAt src (q / 8)).getLsbD (7 - q % 8)

/-- GetBit: the next bit, or `none` (UnexpectedEndOfInput) when no bit is left (40_bitstream.md R81). -/
def getBit (rd : Reader) : Option (Bool × Reader) :=
  if 8 * rd.src.length ≤ rd.pos then none else some (bitAt rd.src rd.pos, { rd with pos := rd.pos + 1 })

/-- The value of `w` bits of `src` from bit index `q` on, most significant first (40_bitstream.md R82). -/
def fieldAt (src : List Byte) (q w : Nat) : Nat := bitsValue ((List.range w).map (fun i => bitAt src (q + i)))

/-- GetBits: the next `w` bits as a number; `none` (UnexpectedEndOfInput) when fewer are left, checked before any bit
is consumed (40_bitstream.md R82). -/
def getBits (rd : Reader) (w : Nat) : Option (Nat × Reader) :=
  if 8 * rd.src.length - rd.pos < w then none
  else some (fieldAt rd.src rd.pos w, { rd with pos := rd.pos + w })

/-! ## The decoder -/

/-- Why a decoder rejects its bits: they end too early, or a container does not start with the identifier the stage
expects (30_encoding.md R68). -/
inductive DecodeError where
  | endOfBits
  | wrongIdent
  deriving DecidableEq, Repr

/-- The command a 32-bit command word selects: OP = bits [3:0], bits [31:4] ignored (30_encoding.md R54, R55, R67). -/
def decodeCommand (w : Word) : Instr :=
  match (w.extractLsb' 0 4).toNat with
  | 1 => .lzssCompress
  | 2 => .lzssDecompress
  | 3 => .huffmanCompress
  | 4 => .huffmanDecompress
  | 5 => .hsCompress
  | 6 => .hsDecompress
  | _ => .reservedCommand (w.extractLsb' 0 4)

/-- ReadToken (42_lzss.md R103): the flag, then a literal's byte, or the two fields of a match, each holding one less
than its operand (30_encoding.md R62, R63, R64). -/
def readToken (rd : Reader) (wD wL : Nat) : Option (Token × Reader) := do
  let (f, rd) ← getBit rd
  if f then
    let (d, rd) ← getBits rd wD
    let (len, rd) ← getBits rd wL
    some (.copy (d + 1) (len + 1), rd)
  else
    let (b, rd) ← getBits rd 8
    some (.literal (BitVec.ofNat 8 b), rd)

/-- The instruction a token is (30_encoding.md R62, R63). -/
def instrOfToken : Token → Instr
  | .literal b => .lit b
  | .copy d len => .matchTok d len

/-- The header length of a container: 13 bytes for identifier 0x01, 261 for 0x02 and 0x03 (30_encoding.md R71). -/
def headerLength (ident : Byte) : Nat := if ident = 1 then 13 else 261

/-- The instruction a complete container header of identifier `ident` is: the fields of 30_encoding.md R58, R59 and R60,
read by byte index (40_bitstream.md R80). -/
def containerInstr (ident : Byte) (src : List Byte) : Option Instr :=
  if ident = 1 then
    some (.lzssContainer (BitVec.ofNat 32 (be32 src 1)) (BitVec.ofNat 32 (be32 src 5)) (BitVec.ofNat 32 (be32 src 9)))
  else if ident = 2 then
    some (.huffmanContainer (BitVec.ofNat 32 (be32 src 1)) ((src.drop 5).take 256))
  else if ident = 3 then
    some (.hsContainer (BitVec.ofNat 32 (be32 src 1)) ((src.drop 5).take 256))
  else none

/-- The header of a container that must carry `ident`: the checks of 42_lzss.md R102 and 43_huffman.md R122 that come
before any field is read, in their order (an empty source, a wrong identifier, a short header). -/
def decodeContainer (ident : Byte) (src : List Byte) : Except DecodeError (Instr × Reader) :=
  if src.length < 1 then .error .endOfBits
  else if byteAt src 0 ≠ ident then .error .wrongIdent
  else if src.length < headerLength ident then .error .endOfBits
  else
    match containerInstr ident src with
    | some i => .ok (i, { src := src, pos := 8 * headerLength ident })
    | none => .error .wrongIdent

/-- The decoder: the instruction that the bits from `rd` on encode, and the reader after it. A container starts at
byte 0 of its source (30_encoding.md R56). -/
def decode (f : Format) (rd : Reader) : Except DecodeError (Instr × Reader) :=
  match f with
  | .command =>
    match getBits rd 32 with
    | some (w, rd') => .ok (decodeCommand (BitVec.ofNat 32 w), rd')
    | none => .error .endOfBits
  | .token wD wL =>
    match readToken rd wD wL with
    | some (t, rd') => .ok (instrOfToken t, rd')
    | none => .error .endOfBits
  | .container ident => decodeContainer ident rd.src

/-! ## The encoder -/

/-- The OP value of a command (30_encoding.md R55); no other instruction has one. -/
def commandOp : Instr → Option (BitVec 4)
  | .lzssCompress => some 1
  | .lzssDecompress => some 2
  | .huffmanCompress => some 3
  | .huffmanDecompress => some 4
  | .hsCompress => some 5
  | .hsDecompress => some 6
  | .reservedCommand op => some op
  | .lit _ => none
  | .matchTok _ _ => none
  | .lzssContainer _ _ _ => none
  | .huffmanContainer _ _ => none
  | .hsContainer _ _ => none

/-- The bits of a byte, bit 7 first (20_memory.md R41). -/
def byteBits (b : Byte) : List Bool := valueBits b.toNat 8

/-- The bits of a code-length table: one byte for each symbol, in symbol order (30_encoding.md R59). -/
def lensBits (lens : List Byte) : List Bool := lens.flatMap byteBits

/-- The encoding of an instruction in the format `f`, first bit first (30_encoding.md R54 to R64). -/
def encode (f : Format) (i : Instr) : List Bool :=
  match f, i with
  | .token _ _, .lit b => false :: byteBits b
  | .token wD wL, .matchTok d len => true :: (valueBits (d - 1) wD ++ valueBits (len - 1) wL)
  | .container ident, .lzssContainer n d l =>
    byteBits ident ++ valueBits n.toNat 32 ++ valueBits d.toNat 32 ++ valueBits l.toNat 32
  | .container ident, .huffmanContainer n lens => byteBits ident ++ valueBits n.toNat 32 ++ lensBits lens
  | .container ident, .hsContainer n lens => byteBits ident ++ valueBits n.toNat 32 ++ lensBits lens
  | .command, i =>
    match commandOp i with
    | some op => valueBits op.toNat 32
    | none => []
  | _, _ => []

/-- The byte whose bits, bit 7 first, are `bs`, the missing ones 0 (30_encoding.md R66). -/
def packByte (bs : List Bool) : Byte := BitVec.ofNat 8 (bitsValue bs * 2 ^ (8 - bs.length))

/-- `bs` packed into bytes, most significant bit first, the last byte completed with 0 bits (20_memory.md R41,
30_encoding.md R66). -/
def packBits : List Bool → List Byte
  | b0 :: b1 :: b2 :: b3 :: b4 :: b5 :: b6 :: b7 :: bs => packByte [b0, b1, b2, b3, b4, b5, b6, b7] :: packBits bs
  | [] => []
  | bs => [packByte bs]

/-! ## The opcode table's words -/

/-- The token field widths that a table word for a token is read with: those of D = L = 1024, the header of doc00 §8
Scenario A (log entry 5; the opcode table gives MATCH no fixed width). -/
def tableTokenWidth : Nat := 10

/-- Which encoding of spec/opcode_table.json a table word of `nbits` bits is in (log entry 5): a byte that is a
container identifier 1, 2 or 3 is a container and one with its first bit set a match token; any other byte, and a word of
25 to 32 bits, is a command word; one of 9 to 24 bits is a token; a longer one is a container. -/
def tableFormat (nbits w : Nat) : Format :=
  if nbits ≤ 8 then
    if 1 ≤ w ∧ w ≤ 3 then .container (BitVec.ofNat 8 w)
    else if w.testBit 7 then .token tableTokenWidth tableTokenWidth
    else .command
  else if nbits ≤ 24 then .token tableTokenWidth tableTokenWidth
  else if nbits ≤ 32 then .command
  else .container (BitVec.ofNat 8 w)

/-- The bytes of a table word, the first byte from its bits 7..0, the bytes above it zero up to `len`. -/
def tableBytes (w : Nat) : Nat → List Byte
  | 0 => []
  | len + 1 => BitVec.ofNat 8 w :: tableBytes (w / 256) len

/-- How many bytes of a table word are laid out: the longest token (65 bits) or the whole header. -/
def tableLength : Format → Nat
  | .command => 4
  | .token _ _ => 9
  | .container ident => headerLength ident

/-- The source a table word is read from: a command word as its four bytes, most significant first (the byte order of a
register word is not visible, 20_memory.md R42), anything else as its bytes in order. -/
def tableSource (nbits w : Nat) : List Byte :=
  match tableFormat nbits w with
  | .command => u32be (w % 2 ^ 32)
  | f => tableBytes w (tableLength f)

/-- The instruction the decoder reads from a table word. -/
def decodeTableWord (nbits w : Nat) : Option Instr :=
  match decode (tableFormat nbits w) { src := tableSource nbits w, pos := 0 } with
  | .ok (i, _) => some i
  | .error _ => none

end Sys2Proof
end

