-- ==== Sys2Proof/Config.lean ====
section
/-! DEFINITION. What an implementation fixes (00_scope.md R6 to R10, 92_eei_decisions.md "Parameters left OPEN") and
the values the spec leaves free. -/

namespace Sys2Proof

/-- The parameters the spec leaves OPEN (00_scope.md R6, 20_memory.md R39). They are arguments of the model: a state
carries them, no step changes them, and a claim about every state is a claim about every choice of them (log entry 1). -/
structure Params where
  inMemBytes : Nat
  maxDictSize : Nat
  maxLookaheadSize : Nat
  innerMemBytes : Nat
  outMemBytes : Nat
  /-- REG_BASE, IN_BASE and OUT_BASE: where the host platform places the three spaces (20_memory.md R39). -/
  regBase : Nat
  inBase : Nat
  outBase : Nat
  deriving DecidableEq, Repr

namespace Params

/-- LZSS_MAX: the size of the largest LZSS container the engine can produce (00_scope.md R9). -/
def lzssMax (c : Params) : Nat :=
  13 + (9 * c.inMemBytes
    + c.inMemBytes / 3 * ((1 + clog2 c.maxDictSize + clog2 c.maxLookaheadSize) - 27) + 7) / 8

/-- The constraints of 00_scope.md R7, R8, R9 and R10 on the OPEN parameters. -/
abbrev Valid (c : Params) : Prop :=
  10000 ≤ c.inMemBytes ∧ c.maxDictSize ≤ c.inMemBytes ∧ c.inMemBytes < 2 ^ 32 ∧
  1024 ≤ c.maxDictSize ∧ c.maxDictSize < 2 ^ 32 ∧
  1024 ≤ c.maxLookaheadSize ∧ c.maxLookaheadSize < 2 ^ 32 ∧
  c.lzssMax ≤ c.innerMemBytes ∧ c.innerMemBytes < 2 ^ 32 ∧
  261 + c.lzssMax ≤ c.outMemBytes

/-- The informative example configuration of 00_scope.md, section 4; no base address is given there, so the three
spaces are placed at 0 (log entry 1). -/
def informative : Params where
  inMemBytes := 1048576
  maxDictSize := 65536
  maxLookaheadSize := 65536
  innerMemBytes := 1441805
  outMemBytes := 1442066
  regBase := 0
  inBase := 0
  outBase := 0

end Params

namespace Config

/-- MIN_MATCH (00_scope.md R6). -/
def minMatch : Nat := 3

/-- ALPHABET: the number of byte values (00_scope.md R6). -/
def alphabet : Nat := 256

/-- The algorithm identifiers (30_encoding.md R57). -/
def identLzss : Byte := 1
def identHuffman : Byte := 2
def identHs : Byte := 3

/-- A FREE VALUE: the byte of draw number `k`, where the spec calls a byte unspecified and the machine goes on
(10_state.md R28, R37; log entry 2). It has no body, so nothing can be proved about its value. -/
opaque freeByte : Nat → Byte

/-- A FREE VALUE: what OUT_LEN holds after an output of `n` ≥ 2^32 bytes, a length its 32 bits cannot hold; the spec
states no value there (log entry 3). -/
opaque freeOutLen : Nat → Word

end Config

end Sys2Proof
end

