-- ==== Sys2Proof/Machine/State.lean ====
section
/-! DEFINITION. The machine's state as plain data, its stops, and the state after reset. -/

namespace Sys2Proof.Machine

/-- The machine has no fault: the spec gives every command an outcome (60_exceptions.md R140), an error ends the
command in a NEXT state (R143), and there is no trap (R144, R147). No constructor, so no step can answer a fault. -/
inductive Fault where
  deriving DecidableEq, Repr

/-- The steps the model has no meaning for. -/
inductive Refusal where
  /-- Raised by an arm of exec that has no meaning yet. Safe: the model stops. No arm raises it. -/
  | notModelled (mnemonic : String)
  /-- Raised by a host access to REG that is not a 32-bit access at a multiple of 4 in 0x00..0x1C: "Any other REG access
  has no defined effect, and the model refuses it" (20_memory.md R43). Safe: the model stops. -/
  | registerAccess
  /-- Raised by a host access to IN or OUT at or beyond its capacity: it "has no defined effect, and the model refuses
  it" (20_memory.md R44). Safe: the model stops. -/
  | bufferAccess
  deriving DecidableEq, Repr

/-- STATUS.STATE (10_state.md R20). -/
inductive RunState where
  | idle | busy | done | error
  deriving DecidableEq, Repr

/-- The error kinds (60_exceptions.md R138). -/
inductive ErrKind where
  | invalidConfiguration | corruptStream | corruptHeader | unexpectedEndOfInput | invalidCommand | capacityExceeded
  deriving DecidableEq, Repr

/-- A byte memory: its (address, byte) pairs, addresses strictly rising. An address not listed holds no known byte. -/
abbrev Memory := List Host.Cell

/-- A destination memory of a writer (40_bitstream.md R75). -/
inductive Dest where
  | out | inner
  deriving DecidableEq, Repr

/-- A bitstream writer (40_bitstream.md R75): destination W.S, capacity W.C, the bytes W.S[0..W.k) written so far (W.k is
their number), the pending bits W.acc and their count W.n. -/
structure Writer where
  dest : Dest
  cap : Nat
  bytes : List Byte
  acc : Nat
  n : Nat
  deriving DecidableEq, Repr

/-- A node of the merge tree with its weight and key (43_huffman.md R113). -/
inductive Node where
  | leaf (weight key : Nat)
  | internal (weight key : Nat) (left right : Node)
  deriving DecidableEq, Repr

/-- The working state of the LZSS token decoder: header fields N, D, L and the output so far (10_state.md R34). -/
structure LzssWork where
  n : Nat
  d : Nat
  l : Nat
  out : List Byte
  deriving DecidableEq, Repr

/-- The working state of the Huffman sub-blocks (10_state.md R34, R35): FREQ, the node pool, LEN, BL_COUNT, NEXT_CODE,
CODE, the decoder's code accumulator c and bit count k, the declared length n and the output so far. -/
structure HuffWork where
  freq : List Nat
  pool : List Node
  lens : List Nat
  blCount : List Nat
  nextCode : List Nat
  code : List Nat
  c : Nat
  k : Nat
  n : Nat
  out : List Byte
  deriving DecidableEq, Repr

/-- Which decoder stage has its next part to run (the model's own field, log entry 4): `command`, none: the whole
command runs in the one completion step (10_state.md R31). The others are the stages' own cursors (R32, R34). -/
inductive Stage where
  | command
  | header (ident : Byte)
  | lzssBody
  | huffBody (ident : Byte)
  deriving DecidableEq, Repr

/-- The engine's hidden working state (10_state.md R34): created when a command starts and discarded at completion. -/
structure Work where
  stage : Stage
  writer : Writer
  reader : Reader
  /-- The LZSS encoder's input position p. -/
  encPos : Nat
  lzss : LzssWork
  huff : HuffWork
  /-- The HS pipeline's inner length n_inner. -/
  nInner : Nat
  deriving DecidableEq, Repr

/-- One host bus transaction (30_encoding.md R72, 20_memory.md R43, R44): a register access of `bits` bits at an offset
of REG, or a byte access to IN or OUT. -/
inductive HostAccess where
  | regWrite (bits off : Nat) (v : Word)
  | regRead (bits off : Nat)
  | inWrite (a : Nat) (b : Byte)
  | inRead (a : Nat)
  | outWrite (a : Nat) (b : Byte)
  | outRead (a : Nat)
  deriving DecidableEq, Repr

/-- Who moves: the host with one access, the engine (its completion step, if one is enabled), or the system with a
reset (10_state.md R17, R31; 70_reset_and_hazards.md R153). -/
inductive Move where
  | host (a : HostAccess)
  | engine
  | reset
  deriving DecidableEq, Repr

/-- What a host read returned. -/
inductive Response where
  | word (v : Word)
  | byte (b : Byte)
  deriving DecidableEq, Repr

structure State where
  /-- CMD.OP (10_state.md R19). -/
  cmdOp : BitVec 4
  /-- STATUS.STATE and STATUS.ERR (10_state.md R20). -/
  run : RunState
  err : BitVec 4
  /-- IN_LEN, DICT_SIZE, LOOKAHEAD_SIZE and OUT_LEN (10_state.md R21 to R24). -/
  inLen : Word
  dictSize : Word
  lookaheadSize : Word
  outLen : Word
  /-- The buffer memories IN, OUT and INNER (10_state.md R27 to R29). -/
  inMem : Memory
  outMem : Memory
  innerMem : Memory
  /-- The engine's hidden state (10_state.md R34). -/
  work : Work
  /-- The parameters left OPEN (00_scope.md R6); no step changes them. -/
  cfg : Params
  /-- The model's own: how many free bytes have been drawn (log entry 2). -/
  draws : Nat
  /-- The model's own: the moves to come, in their order (log entry 6). -/
  moves : List Move
  /-- The model's own: what the host's reads returned, oldest first (log entry 6). -/
  responses : List Response
  deriving DecidableEq, Repr

/-- Hidden state with nothing in it: what the engine holds when no command runs (10_state.md R34; log entry 4). -/
def Work.clear : Work where
  stage := .command
  writer := { dest := .out, cap := 0, bytes := [], acc := 0, n := 0 }
  reader := { src := [], pos := 0 }
  encPos := 0
  lzss := { n := 0, d := 0, l := 0, out := [] }
  huff := { freq := [], pool := [], lens := [], blCount := [], nextCode := [], code := [], c := 0, k := 0, n := 0, out := [] }
  nInner := 0

/-- The state after reset of an engine with the parameters `c`: every register 0, STATE = IDLE, no byte of IN, OUT or
INNER known (10_state.md R36, R37; 70_reset_and_hazards.md R153), nothing asked of the engine. -/
def State.resetOf (c : Params) : State where
  cmdOp := 0
  run := .idle
  err := 0
  inLen := 0
  dictSize := 0
  lookaheadSize := 0
  outLen := 0
  inMem := []
  outMem := []
  innerMem := []
  work := Work.clear
  cfg := c
  draws := 0
  moves := []
  responses := []

/-- The machine right after reset, with the informative configuration of 00_scope.md section 4 (log entry 1). -/
def State.reset : State := State.resetOf Params.informative

end Sys2Proof.Machine
end

