-- ==== Sys2Proof/Machine/Flags.lean ====
section
/-! DEFINITION. STATUS, the engine's only flag register, and the words the host reads. -/

namespace Sys2Proof.Machine

/-- The code of STATUS.STATE (10_state.md R20). -/
def RunState.code : RunState → BitVec 2
  | .idle => 0
  | .busy => 1
  | .done => 2
  | .error => 3

/-- The code of an error kind in STATUS.ERR (60_exceptions.md R138). -/
def ErrKind.code : ErrKind → BitVec 4
  | .invalidConfiguration => 1
  | .corruptStream => 2
  | .corruptHeader => 3
  | .unexpectedEndOfInput => 4
  | .invalidCommand => 5
  | .capacityExceeded => 6

/-- The STATUS word: ERR in bits [7:4], STATE in bits [1:0], the rest 0 (10_state.md R18, R20). -/
def statusWord (s : State) : Word := (s.err.setWidth 32 <<< 4) ||| s.run.code.setWidth 32

/-- The CMD word: zext_32(CMD.OP) (10_state.md R19). -/
def cmdWord (s : State) : Word := s.cmdOp.setWidth 32

end Sys2Proof.Machine
end

