-- ==== Sys2Proof/Machine/Ops.lean ====
section
/-! DEFINITION. The named operations over memory and registers: reading and writing a byte memory, starting a command,
and recording its outcome. -/

namespace Sys2Proof.Machine

/-! ## Byte memories (00_scope.md R12) -/

/-- What an address with no entry reads as: no known byte. The spec gives the memories no reset contents ("the contents of
IN, OUT and INNER are unspecified", 10_state.md R37); a reader of such a byte draws a free one. -/
def Memory.unlisted : Option Byte := none

/-- The byte a memory holds at `a`, if one is known. -/
def Memory.read : Memory → Nat → Option Byte
  | [], _ => Memory.unlisted
  | (b, v) :: m, a => bif Nat.beq a b then some v else Memory.read m a

/-- Store one byte (MemWrite of one byte, 00_scope.md R12), keeping addresses rising. -/
def Memory.write : Memory → Nat → Byte → Memory
  | [], a, v => [(a, v)]
  | (b, w) :: m, a, v =>
    if a < b then (a, v) :: (b, w) :: m
    else if a = b then (a, v) :: m
    else (b, w) :: Memory.write m a v

/-- A memory that holds the bytes `bs` from address `a` on and nothing else. -/
def Memory.ofBytesAt (a : Nat) : List Byte → Memory
  | [] => []
  | b :: bs => (a, b) :: Memory.ofBytesAt (a + 1) bs

/-- A memory that holds the bytes `bs` from address 0 on and nothing else known: MemWrite(S, 0, len(bs), bs) into a memory
whose other bytes are unspecified (10_state.md R31). -/
def Memory.ofBytes (bs : List Byte) : Memory := Memory.ofBytesAt 0 bs

/-- The canonical form: addresses strictly rising. No entry can equal what an unlisted address reads as. -/
def Memory.wf : Memory → Bool
  | [] => true
  | [_] => true
  | (a, _) :: (b, w) :: m => decide (a < b) && Memory.wf ((b, w) :: m)

/-- Every listed address is below the memory's capacity. -/
def Memory.below (m : Memory) (cap : Nat) : Bool := m.all (fun c => decide (c.1 < cap))

/-- MemRead(S, a, n) where a byte not known is drawn from the free values from draw number `k` on. -/
def Memory.bytes (m : Memory) (k a : Nat) : Nat → List Byte
  | 0 => []
  | n + 1 => (m.read a).getD (Config.freeByte k) :: Memory.bytes m (k + 1) (a + 1) n

/-! ## Command start and outcome -/

/-- What the 32 bits of OUT_LEN hold for an output of `n` bytes (10_state.md R31): n, or a free value where 32 bits do not
hold n, a length for which the spec states no register value (log entry 3). -/
def lengthWord (n : Nat) : Word := if n < 2 ^ 32 then BitVec.ofNat 32 n else Config.freeOutLen n

/-- Starting a command: the one atomic host step of 10_state.md R30. OUT becomes unspecified, so no byte of it is known.
The stages' working state is created afresh (R34). This is also the way out of an error: "The new command's start clears
ERR and OUT_LEN" (60_exceptions.md R144). -/
def startCommand (op : BitVec 4) (s : State) : State :=
  { s with cmdOp := op, run := .busy, err := 0, outLen := 0, outMem := [], innerMem := [], work := Work.clear }

/-- The part of the completion step both outcomes share: the working state and INNER are discarded (10_state.md R29, R34),
and the free bytes that a read of IN[0..IN_LEN) draws count as drawn (log entry 2). -/
def discardWork (s : State) : State :=
  { s with work := Work.clear, innerMem := [], draws := s.draws + s.inLen.toNat }

/-- The outcome Done(out) of the completion step (10_state.md R31). -/
def completeDone (out : List Byte) (s : State) : State :=
  { discardWork s with
    outMem := Memory.ofBytes out, outLen := lengthWord out.length, err := 0, run := .done }

/-- Raising an error: the outcome Error(k) of the completion step (10_state.md R31, 60_exceptions.md R143). It is the
machine's one way to take an exception: STATE, ERR, OUT_LEN and OUT record it, nothing is saved and no handler runs. -/
def raiseError (k : ErrKind) (s : State) : State :=
  { discardWork s with outMem := [], outLen := 0, err := k.code, run := .error }

/-- The completion step for the value of Exec (10_state.md R31, 60_exceptions.md R140). -/
def complete (r : Except ErrKind (List Byte)) (s : State) : State :=
  match r with
  | .ok out => completeDone out s
  | .error k => raiseError k s

/-- The result of a command as an outcome of the model's step. -/
abbrev Result := Host.Outcome State Fault Refusal

/-- The reset event (70_reset_and_hazards.md R153): every register at its reset value, the running command abandoned, the
memories and hidden state unspecified. The parameters stay, and so do the model's own draw count, the moves still to come
and what the host has read. -/
def resetEvent (s : State) : State :=
  { State.resetOf s.cfg with draws := s.draws, moves := s.moves, responses := s.responses }

end Sys2Proof.Machine
end

