-- ==== Sys2Proof/Machine/Operands.lean ====
section
/-! DEFINITION. The operands of a command: the input bytes and the configuration, with the checks on them. -/

namespace Sys2Proof.Machine

/-- IN[0..IN_LEN), the input of a command (10_state.md R30). A byte that the host has not written since reset is
unspecified (R37), so it is a free draw (log entry 2). -/
def inputBytes (s : State) : List Byte := s.inMem.bytes s.draws 0 s.inLen.toNat

/-- StartChecks(op, n) (60_exceptions.md R139): a reserved OP, then an input longer than IN. -/
def startChecks (c : Params) (op : BitVec 4) (n : Nat) : Except ErrKind Unit :=
  if reservedOp op then .error .invalidCommand
  else if c.inMemBytes < n then .error .capacityExceeded
  else .ok ()

/-- CheckLzssConfig(D, L) (42_lzss.md R95). -/
def checkLzssConfig (c : Params) (d l : Nat) : Except ErrKind Unit :=
  if d = 0 ∨ c.maxDictSize < d then .error .invalidConfiguration
  else if l = 0 ∨ c.maxLookaheadSize < l then .error .invalidConfiguration
  else .ok ()

/-- The start checks of a command and then its stages on the input bytes (60_exceptions.md R140). The bytes are read only
when the checks have passed. -/
def withInput (op : BitVec 4) (s : State) (stages : List Byte → Except ErrKind (List Byte)) :
    Except ErrKind (List Byte) :=
  match startChecks s.cfg op s.inLen.toNat with
  | .error k => .error k
  | .ok _ => stages (inputBytes s)

/-- The same for the two commands that read DICT_SIZE and LOOKAHEAD_SIZE, whose configuration check comes after the start
checks and before any stage (42_lzss.md R95, 60_exceptions.md R142). -/
def withConfiguredInput (op : BitVec 4) (s : State)
    (stages : List Byte → Nat → Nat → Except ErrKind (List Byte)) : Except ErrKind (List Byte) :=
  withInput op s (fun input =>
    match checkLzssConfig s.cfg s.dictSize.toNat s.lookaheadSize.toNat with
    | .error k => .error k
    | .ok _ => stages input s.dictSize.toNat s.lookaheadSize.toNat)

end Sys2Proof.Machine
end

