-- ==== Sys2Proof/Machine/Bitstream.lean ====
section
/-! DEFINITION. bitstream_reader_writer (40_bitstream.md): the writer, and the reader's end check. The reader's GetBit and
GetBits stand in Decode.lean. -/

namespace Sys2Proof.Machine

/-- A new writer on (S, C) (40_bitstream.md R75). -/
def Writer.new (dest : Dest) (cap : Nat) : Writer := { dest := dest, cap := cap, bytes := [], acc := 0, n := 0 }

/-- EmitByte(W, b) (40_bitstream.md R76). -/
def emitByte (w : Writer) (b : Byte) : Except ErrKind Writer :=
  if w.cap ≤ w.bytes.length then .error .capacityExceeded
  else .ok { w with bytes := w.bytes ++ [b] }

/-- One round of PutBits' loop: append one bit, and emit the byte when eight are pending (40_bitstream.md R77). -/
def putBit (w : Writer) (b : Bool) : Except ErrKind Writer :=
  if w.n + 1 = 8 then
    match emitByte w (BitVec.ofNat 8 (2 * w.acc + b.toNat)) with
    | .error k => .error k
    | .ok w' => .ok { w' with acc := 0, n := 0 }
  else .ok { w with acc := 2 * w.acc + b.toNat, n := w.n + 1 }

/-- PutBits(W, v, w): the w-bit field v, most significant bit first (40_bitstream.md R77). -/
def putBits (w : Writer) (v : Nat) : Nat → Except ErrKind Writer
  | 0 => .ok w
  | i + 1 =>
    match putBit w (v.testBit i) with
    | .error k => .error k
    | .ok w' => putBits w' v i

/-- PutByte(W, b) (40_bitstream.md R78); it requires W.n = 0, which every caller meets. -/
def putByte (w : Writer) (b : Byte) : Except ErrKind Writer := emitByte w b

/-- PutByte of each byte in order (40_bitstream.md R78). -/
def putBytes (w : Writer) : List Byte → Except ErrKind Writer
  | [] => .ok w
  | b :: bs =>
    match putByte w b with
    | .error k => .error k
    | .ok w' => putBytes w' bs

/-- Flush(W): complete the last byte with 0 bits and return the stream (40_bitstream.md R79). -/
def flush (w : Writer) : Except ErrKind (List Byte) :=
  if w.n = 0 then .ok w.bytes
  else
    match emitByte w (BitVec.ofNat 8 (w.acc * 2 ^ (8 - w.n))) with
    | .error k => .error k
    | .ok w' => .ok w'.bytes

/-- CheckEnd(Rd) (40_bitstream.md R83): no byte after the last used one, and zero padding in it. -/
def checkEnd (rd : Reader) : Except ErrKind Unit :=
  let u := (rd.pos + 7) / 8
  if u ≠ rd.src.length then .error .corruptStream
  else if (List.range (8 * u - rd.pos)).any (fun i => bitAt rd.src (rd.pos + i)) then .error .corruptStream
  else .ok ()

end Sys2Proof.Machine
end

