-- ==== Sys2Proof/Machine/Matcher.lean ====
section
/-! DEFINITION. sliding_window_matcher (41_matcher.md): the longest match in the window, the nearest one on ties. -/

namespace Sys2Proof.Machine

/-- How many leading elements two sequences have in common, at most `cap`. -/
def commonLength : Nat → List Byte → List Byte → Nat
  | cap + 1, x :: xs, y :: ys => if x = y then commonLength cap xs ys + 1 else 0
  | _, _, _ => 0

/-- ℓ(d): the largest k ≤ cap with IN[p + i] = IN[p − d + i] for every i < k (41_matcher.md R88). The two sequences compared
are the input from p on and from p − d on; they overlap when k exceeds d. -/
def matchLength (input : List Byte) (p d cap : Nat) : Nat :=
  commonLength cap (input.drop p) (input.drop (p - d))

/-- One round of FindMatch's loop: only a strictly longer candidate replaces the best (41_matcher.md R91). `best` holds
(best_d, best_len). -/
def betterMatch (input : List Byte) (p cap : Nat) (best : Nat × Nat) (d : Nat) : Nat × Nat :=
  if best.2 < matchLength input p d cap then (d, matchLength input p d cap) else best

/-- FindMatch(IN, N, p, D, L): the distance and length of the best candidate, or none (41_matcher.md R91). -/
def findMatch (input : List Byte) (p d l : Nat) : Option (Nat × Nat) :=
  let cap := min l (input.length - p)
  if cap < Config.minMatch then none
  else
    let best := ((List.range (min d p)).map (· + 1)).foldl (betterMatch input p cap) (0, 0)
    if Config.minMatch ≤ best.2 then some best else none

end Sys2Proof.Machine
end

