-- ==== Sys2Proof/Machine/Lzss.lean ====
section
/-! DEFINITION. lzss_token_encoder and lzss_token_decoder (42_lzss.md), and the meanings of the two LZSS commands, the
two tokens and the LZSS container. -/

namespace Sys2Proof.Machine

/-! ## The token encoder -/

/-- Tokens(IN, N, D, L) from position `p` on: greedy left-to-right parsing (42_lzss.md R96). The first argument bounds the
number of tokens; N − p is enough, since each advances p by at least 1 (R107). -/
def tokensFrom (input : List Byte) (d l : Nat) : Nat → Nat → List Token
  | 0, _ => []
  | fuel + 1, p =>
    if p < input.length then
      match findMatch input p d l with
      | none => .literal (byteAt input p) :: tokensFrom input d l fuel (p + 1)
      | some (dist, len) => .copy dist len :: tokensFrom input d l fuel (p + len)
    else []

/-- Tokens(IN, N, D, L) (42_lzss.md R96). -/
def tokens (input : List Byte) (d l : Nat) : List Token := tokensFrom input d l input.length 0

/-- SerializeLzssHeader(W, N, D, L) (42_lzss.md R97). -/
def serializeLzssHeader (w : Writer) (n d l : Nat) : Except ErrKind Writer :=
  putBytes w (Config.identLzss :: (u32be n ++ u32be d ++ u32be l))

/-- SerializeLiteral (42_lzss.md R98) and SerializeMatch (R99). -/
def serializeToken (wD wL : Nat) (w : Writer) (t : Token) : Except ErrKind Writer :=
  match t with
  | .literal b =>
    match putBits w 0 1 with
    | .error k => .error k
    | .ok w => putBits w b.toNat 8
  | .copy d len =>
    match putBits w 1 1 with
    | .error k => .error k
    | .ok w =>
      match putBits w (d - 1) wD with
      | .error k => .error k
      | .ok w => putBits w (len - 1) wL

/-- The tokens serialized in order (42_lzss.md R100). -/
def serializeTokens (wD wL : Nat) (w : Writer) : List Token → Except ErrKind Writer
  | [] => .ok w
  | t :: ts =>
    match serializeToken wD wL w t with
    | .error k => .error k
    | .ok w' => serializeTokens wD wL w' ts

/-- LzssEncode(IN, N, D, L, S, C): the LZSS container of the input (42_lzss.md R100). -/
def lzssEncode (dest : Dest) (cap : Nat) (input : List Byte) (d l : Nat) : Except ErrKind (List Byte) :=
  match serializeLzssHeader (Writer.new dest cap) input.length d l with
  | .error k => .error k
  | .ok w =>
    match serializeTokens (clog2 d) (clog2 l) w (tokens input d l) with
    | .error k => .error k
    | .ok w => flush w

/-! ## The token decoder -/

/-- The value checks of the LZSS header and, when they pass, the decoder's working state (42_lzss.md R102): D or L zero,
then a declared length above the output capacity. -/
def lzssStart (cap n d l : Nat) : Except ErrKind LzssWork :=
  if d = 0 ∨ l = 0 then .error .corruptStream
  else if cap < n then .error .capacityExceeded
  else .ok { n := n, d := d, l := l, out := [] }

/-- A literal appends its byte (42_lzss.md R106). -/
def performLiteral (b : Byte) (w : LzssWork) : LzssWork := { w with out := w.out ++ [b] }

/-- The checks on a match read when the output holds `o` bytes (42_lzss.md R104). -/
def matchLegal (w : LzssWork) (d len : Nat) : Bool :=
  decide (d ≤ w.d) && decide (d ≤ w.out.length) && decide (Config.minMatch ≤ len) && decide (len ≤ w.l)
    && decide (w.out.length + len ≤ w.n)

/-- The byte-at-a-time copy: each source byte is read after the one before it has been appended (42_lzss.md R105). -/
def copyBytes (d : Nat) : Nat → List Byte → List Byte
  | 0, out => out
  | k + 1, out => copyBytes d k (out ++ [byteAt out (out.length - d)])

/-- A match: the checks of 42_lzss.md R104, then the copy of R105. -/
def performMatch (d len : Nat) (w : LzssWork) : Except ErrKind LzssWork :=
  if matchLegal w d len then .ok { w with out := copyBytes d len w.out } else .error .corruptStream

/-- One token of the decoder's loop (42_lzss.md R106). -/
def performToken (t : Token) (w : LzssWork) : Except ErrKind LzssWork :=
  match t with
  | .literal b => .ok (performLiteral b w)
  | .copy d len => performMatch d len w

/-- The decoder's loop (42_lzss.md R106): read and perform tokens while fewer than N bytes are out. The first argument
bounds the number of tokens; N is enough (R107). -/
def lzssBody : Nat → Reader → LzssWork → Except ErrKind (Reader × LzssWork)
  | 0, rd, w => .ok (rd, w)
  | fuel + 1, rd, w =>
    if w.out.length < w.n then
      match readToken rd (clog2 w.d) (clog2 w.l) with
      | none => .error .unexpectedEndOfInput
      | some (t, rd') =>
        match performToken t w with
        | .error k => .error k
        | .ok w' => lzssBody fuel rd' w'
    else .ok (rd, w)

/-- The loop and then CheckEnd (42_lzss.md R106). -/
def lzssFinish (rd : Reader) (w : LzssWork) : Except ErrKind (List Byte) :=
  match lzssBody w.n rd w with
  | .error k => .error k
  | .ok (rd', w') =>
    match checkEnd rd' with
    | .error k => .error k
    | .ok _ => .ok w'.out

/-- The error kind of a container header that does not decode: the LZSS decoder reports a wrong identifier as CorruptStream,
the Huffman and HS decoders as CorruptHeader; a short header is UnexpectedEndOfInput (42_lzss.md R102, 43_huffman.md R122,
30_encoding.md R68). -/
def headerError (ident : Byte) : DecodeError → ErrKind
  | .endOfBits => .unexpectedEndOfInput
  | .wrongIdent => if ident = Config.identLzss then .corruptStream else .corruptHeader

/-- LzssDecode(src, cap) (42_lzss.md R106). -/
def lzssDecode (cap : Nat) (src : List Byte) : Except ErrKind (List Byte) :=
  match decodeContainer Config.identLzss src with
  | .error e => .error (headerError Config.identLzss e)
  | .ok (_, rd) =>
    match lzssStart cap (be32 src 1) (be32 src 5) (be32 src 9) with
    | .error k => .error k
    | .ok w => lzssFinish rd w

/-! ## The meanings -/

/-- LZSSCompress (42_lzss.md R109). -/
def execLzssCompress (s : State) : Result :=
  .next (complete (withConfiguredInput 1 s (lzssEncode .out s.cfg.outMemBytes)) s)

/-- LZSSDecompress (42_lzss.md R110). -/
def execLzssDecompress (s : State) : Result :=
  .next (complete (withInput 2 s (lzssDecode s.cfg.outMemBytes)) s)

/-- LIT in the LZSS token decoder's working state: append the byte (42_lzss.md R103, R106). -/
def execLit (b : Byte) (s : State) : Result :=
  .next { s with work := { s.work with lzss := performLiteral b s.work.lzss } }

/-- MATCH in the LZSS token decoder's working state: the checks of 42_lzss.md R104, whose failure ends the command in
CorruptStream, then the copy of R105. -/
def execMatchTok (d len : Nat) (s : State) : Result :=
  match performMatch d len s.work.lzss with
  | .error k => .next (raiseError k s)
  | .ok w => .next { s with work := { s.work with lzss := w } }

/-- An LZSS container's header: the value checks of 42_lzss.md R102, then the token decoder's working state. -/
def execLzssContainer (n d l : Word) (s : State) : Result :=
  match lzssStart s.cfg.outMemBytes n.toNat d.toNat l.toNat with
  | .error k => .next (raiseError k s)
  | .ok w => .next { s with work := { s.work with stage := .lzssBody, lzss := w } }

end Sys2Proof.Machine
end

