-- ==== Sys2Proof/Machine/Huffman.lean ====
section
/-! DEFINITION. huffman_tree_builder, canonical_huffman_encoder and canonical_huffman_decoder (43_huffman.md), and the
meanings of the two Huffman commands and the Huffman container. -/

namespace Sys2Proof.Machine

/-! ## huffman_tree_builder -/

/-- FREQ[0..255]: how often each byte value occurs (43_huffman.md R111). -/
def freqTable (x : List Byte) : List Nat := (List.range Config.alphabet).map (fun s => x.countP (fun b => b.toNat == s))

/-- The weight of a node (43_huffman.md R113). -/
def Node.weight : Node → Nat
  | .leaf w _ => w
  | .internal w _ _ _ => w

/-- The key of a node (43_huffman.md R113). -/
def Node.key : Node → Nat
  | .leaf _ k => k
  | .internal _ k _ _ => k

/-- Node `a` comes before node `b`: smaller weight, or equal weights and a smaller key (43_huffman.md R113). -/
def comesBefore (a b : Node) : Bool := a.weight < b.weight || (a.weight == b.weight && a.key < b.key)

/-- internal(a, b): w = a.w + b.w, k = min(a.k, b.k) (43_huffman.md R113, R114). -/
def joinNodes (a b : Node) : Node := .internal (a.weight + b.weight) (min a.key b.key) a b

/-- The live nodes at the start: a leaf for each present symbol (43_huffman.md R112, R114). -/
def leaves (freq : List Nat) : List Node :=
  (freq.zipIdx.filter (fun p => 1 ≤ p.1)).map (fun p => .leaf p.1 p.2)

/-- The first node of a nonempty set of live nodes in the order of R113, and the others (43_huffman.md R114). -/
def takeFirst (a : Node) : List Node → Node × List Node
  | [] => (a, [])
  | b :: bs =>
    if comesBefore b a then
      let (m, rest) := takeFirst b bs
      (m, a :: rest)
    else
      let (m, rest) := takeFirst a bs
      (m, b :: rest)

/-- One merge: the first two live nodes become one internal node (43_huffman.md R114). Fewer than two stay as they are. -/
def mergeOnce (pool : List Node) : List Node :=
  match pool with
  | [] => []
  | x :: xs =>
    match takeFirst x xs with
    | (a, []) => [a]
    | (a, y :: ys) =>
      let (b, rest) := takeFirst y ys
      joinNodes a b :: rest

/-- `k` merges; k live nodes need k − 1 (43_huffman.md R114). -/
def mergeTimes : Nat → List Node → List Node
  | 0, pool => pool
  | k + 1, pool => mergeTimes k (mergeOnce pool)

/-- The live nodes after the merge loop: one root, or none for an empty input (43_huffman.md R114). -/
def mergeAll (pool : List Node) : List Node := mergeTimes (pool.length - 1) pool

/-- The depth of the leaf for symbol `s` below a node, if it is there (43_huffman.md R114). -/
def depthOf (s : Nat) : Node → Option Nat
  | .leaf _ k => if k = s then some 0 else none
  | .internal _ _ a b =>
    match depthOf s a with
    | some d => some (d + 1)
    | none => (depthOf s b).map (· + 1)

/-- LEN[s] from the root (43_huffman.md R114): the leaf's depth, 0 for an absent symbol, and 1 for a single present
symbol, whose tree would give depth 0 (R115). -/
def lengthIn (root : Node) (s : Nat) : Nat :=
  match root, depthOf s root with
  | .leaf _ _, some _ => 1
  | .internal _ _ _ _, some d => d
  | _, none => 0

/-- BuildLengths(FREQ): LEN[0..255] (43_huffman.md R114, R115). -/
def buildLengths (freq : List Nat) : List Nat :=
  match mergeAll (leaves freq) with
  | [] => List.replicate Config.alphabet 0
  | root :: _ => (List.range Config.alphabet).map (lengthIn root)

/-! ## The canonical code (43_huffman.md R118) -/

/-- MAXL: the greatest code length, 0 if all are 0. -/
def maxLength (lens : List Nat) : Nat := lens.foldl max 0

/-- BL_COUNT[0..MAXL]: how many symbols have each length; BL_COUNT[0] is 0. -/
def blCounts (lens : List Nat) : List Nat :=
  (List.range (maxLength lens + 1)).map (fun l => if l = 0 then 0 else lens.count l)

/-- NEXT_CODE[l], NEXT_CODE[l + 1], … from the counts BL_COUNT[l − 1], BL_COUNT[l], … and the code before. -/
def nextCodesFrom : List Nat → Nat → List Nat
  | [], _ => []
  | b :: bs, code => (code + b) * 2 :: nextCodesFrom bs ((code + b) * 2)

/-- NEXT_CODE[0..MAXL] before any symbol has its code; index 0 is not used. -/
def nextCodes (lens : List Nat) : List Nat := 0 :: nextCodesFrom (blCounts lens).dropLast 0

/-- The codes in ascending symbol order, each taken from NEXT_CODE of its length, which then moves on; an absent symbol has
no code, and its entry 0 is never read. -/
def assignCodes : List Nat → List Nat → List Nat
  | [], _ => []
  | l :: ls, next =>
    if l = 0 then 0 :: assignCodes ls next
    else next.getD l 0 :: assignCodes ls (next.set l (next.getD l 0 + 1))

/-- Canonical(LEN): CODE[0..255] (43_huffman.md R118). -/
def canonical (lens : List Nat) : List Nat := assignCodes lens (nextCodes lens)

/-! ## canonical_huffman_encoder -/

/-- SerializeHufHeader(W, ident, n, LEN) (43_huffman.md R120). -/
def serializeHufHeader (w : Writer) (ident : Byte) (n : Nat) (lens : List Nat) : Except ErrKind Writer :=
  putBytes w (ident :: (u32be n ++ lens.map (BitVec.ofNat 8)))

/-- The second pass: the code of every byte in order (43_huffman.md R121, 30_encoding.md R65). -/
def putCodes (lens code : List Nat) (w : Writer) : List Byte → Except ErrKind Writer
  | [] => .ok w
  | b :: bs =>
    match putBits w (code.getD b.toNat 0) (lens.getD b.toNat 0) with
    | .error k => .error k
    | .ok w' => putCodes lens code w' bs

/-- HufEncode(X, n, ident, S, C) (43_huffman.md R121). -/
def hufEncode (dest : Dest) (cap : Nat) (ident : Byte) (x : List Byte) : Except ErrKind (List Byte) :=
  let lens := buildLengths (freqTable x)
  match serializeHufHeader (Writer.new dest cap) ident x.length lens with
  | .error k => .error k
  | .ok w =>
    match putCodes lens (canonical lens) w x with
    | .error k => .error k
    | .ok w => flush w

/-! ## canonical_huffman_decoder -/

/-- Kraft(LEN): Σ over LEN[s] > 0 of 2^(255 − LEN[s]) ≤ 2^255, in exact arithmetic (43_huffman.md R123). -/
def kraft (lens : List Nat) : Bool :=
  decide (((lens.filter (0 < ·)).map (fun l => 2 ^ (255 - l))).sum ≤ 2 ^ 255)

/-- The code-length table of a header as numbers (43_huffman.md R122). -/
def lensOfBytes (lens : List Byte) : List Nat := lens.map BitVec.toNat

/-- The value checks of the Huffman header in their order and, when they pass, the decoder's working state
(43_huffman.md R122): the Kraft sum, a table with no codes for a nonempty output, the declared length. -/
def hufStart (cap n : Nat) (lens : List Nat) : Except ErrKind HuffWork :=
  if ¬ kraft lens then .error .corruptHeader
  else if 0 < n ∧ lens.all (· == 0) then .error .corruptHeader
  else if cap < n then .error .capacityExceeded
  else
    .ok { freq := [], pool := [], lens := lens, blCount := blCounts lens, nextCode := nextCodes lens,
          code := canonical lens, c := 0, k := 0, n := n, out := [] }

/-- The symbol with LEN[s] = k and CODE[s] = c, if there is one (43_huffman.md R124). -/
def symbolOf (lens code : List Nat) (k c : Nat) : Option Nat :=
  (lens.zip code).findIdx? (fun p => p.1 == k && p.2 == c)

/-- DecodeSymbol's loop (43_huffman.md R124) from the accumulator `c` of `k` bits on. The first argument bounds the number
of bits; MAXL is enough (R126). -/
def decodeSymbolFrom (lens code : List Nat) (maxl : Nat) : Nat → Reader → Nat → Nat → Except ErrKind (Nat × Reader)
  | 0, _, _, _ => .error .corruptStream
  | fuel + 1, rd, c, k =>
    match getBit rd with
    | none => .error .unexpectedEndOfInput
    | some (b, rd') =>
      match symbolOf lens code (k + 1) (2 * c + b.toNat) with
      | some s => .ok (s, rd')
      | none =>
        if maxl ≤ k + 1 then .error .corruptStream
        else decodeSymbolFrom lens code maxl fuel rd' (2 * c + b.toNat) (k + 1)

/-- DecodeSymbol(Rd, LEN, CODE, MAXL) (43_huffman.md R124). -/
def decodeSymbol (lens code : List Nat) (rd : Reader) : Except ErrKind (Nat × Reader) :=
  decodeSymbolFrom lens code (maxLength lens) (maxLength lens + 1) rd 0 0

/-- One round of the decoder's loop: the next symbol is appended (43_huffman.md R125). -/
def hufSymbol (rd : Reader) (w : HuffWork) : Except ErrKind (Reader × HuffWork) :=
  match decodeSymbol w.lens w.code rd with
  | .error k => .error k
  | .ok (s, rd') => .ok (rd', { w with out := w.out ++ [BitVec.ofNat 8 s] })

/-- The decoder's loop (43_huffman.md R125): symbols while fewer than n are out. The first argument bounds the number of
symbols; n is enough (R126). -/
def hufBody : Nat → Reader → HuffWork → Except ErrKind (Reader × HuffWork)
  | 0, rd, w => .ok (rd, w)
  | fuel + 1, rd, w =>
    if w.out.length < w.n then
      match hufSymbol rd w with
      | .error k => .error k
      | .ok (rd', w') => hufBody fuel rd' w'
    else .ok (rd, w)

/-- The loop and then CheckEnd (43_huffman.md R125). -/
def hufFinish (rd : Reader) (w : HuffWork) : Except ErrKind (List Byte) :=
  match hufBody w.n rd w with
  | .error k => .error k
  | .ok (rd', w') =>
    match checkEnd rd' with
    | .error k => .error k
    | .ok _ => .ok w'.out

/-- LEN[0..255] of a container: bytes 5 to 260 (30_encoding.md R59). -/
def headerLens (src : List Byte) : List Byte := (src.drop 5).take Config.alphabet

/-- HufDecode(src, ident, cap) (43_huffman.md R125). -/
def hufDecode (ident : Byte) (cap : Nat) (src : List Byte) : Except ErrKind (List Byte) :=
  match decodeContainer ident src with
  | .error e => .error (headerError ident e)
  | .ok (_, rd) =>
    match hufStart cap (be32 src 1) (lensOfBytes (headerLens src)) with
    | .error k => .error k
    | .ok w => hufFinish rd w

/-! ## The meanings -/

/-- HuffmanCompress (43_huffman.md R128). -/
def execHuffmanCompress (s : State) : Result :=
  .next (complete (withInput 3 s (hufEncode .out s.cfg.outMemBytes Config.identHuffman)) s)

/-- HuffmanDecompress (43_huffman.md R129). -/
def execHuffmanDecompress (s : State) : Result :=
  .next (complete (withInput 4 s (hufDecode Config.identHuffman s.cfg.outMemBytes)) s)

/-- The header of a container coded by the Huffman stage: the value checks of 43_huffman.md R122, then the symbol
decoder's working state. -/
def startHuffBody (ident : Byte) (cap : Nat) (n : Word) (lens : List Byte) (s : State) : State :=
  match hufStart cap n.toNat (lensOfBytes lens) with
  | .error k => raiseError k s
  | .ok w => { s with work := { s.work with stage := .huffBody ident, huff := w } }

/-- A Huffman container's header, for the destination OUT (43_huffman.md R122, R129). -/
def execHuffmanContainer (n : Word) (lens : List Byte) (s : State) : Result :=
  .next (startHuffBody Config.identHuffman s.cfg.outMemBytes n lens s)

end Sys2Proof.Machine
end

