-- ==== Sys2Proof/Machine/Hybrid.lean ====
section
/-! DEFINITION. hybrid_lzss_huffman_pipeline (44_hybrid.md): the composition of the two codecs, and the meanings of the two
HS commands and the HS container. -/

namespace Sys2Proof.Machine

/-- HsEncode(IN, N, D, L): LZSS into INNER, then Huffman into OUT (44_hybrid.md R131). -/
def hsEncode (c : Params) (input : List Byte) (d l : Nat) : Except ErrKind (List Byte) :=
  match lzssEncode .inner c.innerMemBytes input d l with
  | .error k => .error k
  | .ok inner => hufEncode .out c.outMemBytes Config.identHs inner

/-- HsDecode(src): Huffman into INNER, then LZSS into OUT (44_hybrid.md R133). -/
def hsDecode (c : Params) (src : List Byte) : Except ErrKind (List Byte) :=
  match hufDecode Config.identHs c.innerMemBytes src with
  | .error k => .error k
  | .ok inner => lzssDecode c.outMemBytes inner

/-- HSCompress (44_hybrid.md R136). -/
def execHsCompress (s : State) : Result :=
  .next (complete (withConfiguredInput 5 s (hsEncode s.cfg)) s)

/-- HSDecompress (44_hybrid.md R137). -/
def execHsDecompress (s : State) : Result :=
  .next (complete (withInput 6 s (hsDecode s.cfg)) s)

/-- An HS container's header, for the destination INNER (43_huffman.md R122, 44_hybrid.md R133). -/
def execHsContainer (n : Word) (lens : List Byte) (s : State) : Result :=
  .next (startHuffBody Config.identHs s.cfg.innerMemBytes n lens s)

end Sys2Proof.Machine
end

