-- ==== Sys2Proof/Machine/Reserved.lean ====
section
/-! DEFINITION. The meaning of a reserved command word. -/

namespace Sys2Proof.Machine

/-- A reserved OP: the command ends in InvalidCommand before any stage runs (60_exceptions.md R139). -/
def execReservedCommand (_op : BitVec 4) (s : State) : Result := .next (raiseError .invalidCommand s)

end Sys2Proof.Machine
end

