-- ==== Sys2Proof/Machine/Dispatch.lean ====
section
/-! DEFINITION. The meaning of every instruction, one arm each. -/

namespace Sys2Proof.Machine

def exec (i : Instr) (s : State) : Host.Outcome State Fault Refusal :=
  match i with
  | .lzssCompress => Sys2Proof.Machine.execLzssCompress s
  | .lzssDecompress => Sys2Proof.Machine.execLzssDecompress s
  | .huffmanCompress => Sys2Proof.Machine.execHuffmanCompress s
  | .huffmanDecompress => Sys2Proof.Machine.execHuffmanDecompress s
  | .hsCompress => Sys2Proof.Machine.execHsCompress s
  | .hsDecompress => Sys2Proof.Machine.execHsDecompress s
  | .reservedCommand op => Sys2Proof.Machine.execReservedCommand op s
  | .lit b => Sys2Proof.Machine.execLit b s
  | .matchTok d len => Sys2Proof.Machine.execMatchTok d len s
  | .lzssContainer n d l => Sys2Proof.Machine.execLzssContainer n d l s
  | .huffmanContainer n lens => Sys2Proof.Machine.execHuffmanContainer n lens s
  | .hsContainer n lens => Sys2Proof.Machine.execHsContainer n lens s

end Sys2Proof.Machine
end

