-- ==== Sys2Proof/Machine/Fetch.lean ====
section
/-! DEFINITION. What the engine runs next: the command that CMD.OP selects, or the next container or token of a decoder
stage in progress. -/

namespace Sys2Proof.Machine

/-- What the engine's turn finds: an instruction and the state to run it in, or the state after a turn that runs none (a
symbol of a Huffman body, the end of a body, a container or token that does not decode). -/
abbrev Fetched := Sum (Instr × State) State

/-- The state with the reader moved to `rd`. -/
def setReader (rd : Reader) (s : State) : State := { s with work := { s.work with reader := rd } }

/-- The container at the reader of a stage that expects the identifier `ident` (42_lzss.md R102, 43_huffman.md R122). -/
def fetchContainer (ident : Byte) (s : State) : Fetched :=
  match decode (.container ident) s.work.reader with
  | .ok (i, rd) => .inl (i, setReader rd s)
  | .error e => .inr (raiseError (headerError ident e) s)

/-- The end of a body whose output goes to OUT: CheckEnd, then the outcome (40_bitstream.md R83, 10_state.md R31). -/
def endBody (out : List Byte) (s : State) : State :=
  match checkEnd s.work.reader with
  | .error k => raiseError k s
  | .ok _ => completeDone out s

/-- The end of the outer body of an HS container: CheckEnd, then the bytes are in INNER and the LZSS stage starts on
INNER[0..n_inner) (44_hybrid.md R133). -/
def endOuterBody (inner : List Byte) (s : State) : State :=
  match checkEnd s.work.reader with
  | .error k => raiseError k s
  | .ok _ =>
    let mem := Memory.ofBytes inner
    { s with
      innerMem := mem
      work :=
        { s.work with
          stage := .header Config.identLzss
          nInner := inner.length
          reader := { src := mem.bytes s.draws 0 inner.length, pos := 0 } } }

/-- The next token of an LZSS body, or its end when N bytes are out (42_lzss.md R106). -/
def fetchToken (s : State) : Fetched :=
  if s.work.lzss.out.length < s.work.lzss.n then
    match decode (.token (clog2 s.work.lzss.d) (clog2 s.work.lzss.l)) s.work.reader with
    | .ok (i, rd) => .inl (i, setReader rd s)
    | .error _ => .inr (raiseError .unexpectedEndOfInput s)
  else .inr (endBody s.work.lzss.out s)

/-- The next symbol of a Huffman body, or its end when n bytes are out (43_huffman.md R125). -/
def huffTurn (ident : Byte) (s : State) : State :=
  if s.work.huff.out.length < s.work.huff.n then
    match hufSymbol s.work.reader s.work.huff with
    | .error k => raiseError k s
    | .ok (rd, w) => { s with work := { s.work with reader := rd, huff := w } }
  else if ident = Config.identHs then endOuterBody s.work.huff.out s
  else endBody s.work.huff.out s

/-- What the engine's turn finds while STATE = BUSY. With no decoder stage in progress it is the command of CMD.OP
(10_state.md R31, 60_exceptions.md R140); the other stages are the parts of a decoder (log entry 4). -/
def fetch (s : State) : Fetched :=
  match s.work.stage with
  | .command => .inl (decodeCommand (cmdWord s), s)
  | .header ident => fetchContainer ident s
  | .lzssBody => fetchToken s
  | .huffBody ident => .inr (huffTurn ident s)

/-- The command whose decoder reads a container of this identifier (30_encoding.md R57). -/
def decompressOp (ident : Byte) : BitVec 4 :=
  if ident = Config.identHuffman then 4 else if ident = Config.identHs then 6 else 2

/-- A started command whose decoder stage `stage` has its reader at `rd`. -/
def placeStage (op : BitVec 4) (stage : Stage) (rd : Reader) (lzss : LzssWork) (s : State) : State :=
  let t := startCommand op s
  { t with work := { t.work with stage := stage, reader := rd, lzss := lzss } }

/-- The table word `w` placed where the engine's next turn finds it (log entry 5): a command word in CMD, as a host write
starts it; a container as the source of its decoder; a token at bit 104 of an LZSS body with D = L = 1024 and room for a
longest match after the output so far. -/
def placeTableWord (s : State) (nbits w : Nat) : State :=
  match tableFormat nbits w with
  | .command => startCommand (BitVec.ofNat 4 w) s
  | .container ident =>
    placeStage (decompressOp ident) (.header ident) { src := tableSource nbits w, pos := 0 } s.work.lzss s
  | .token wD wL =>
    placeStage 2 .lzssBody { src := List.replicate 13 0 ++ tableSource nbits w, pos := 104 }
      { n := s.work.lzss.out.length + 2 ^ wL, d := 2 ^ wD, l := 2 ^ wL, out := s.work.lzss.out } s

end Sys2Proof.Machine
end

