-- ==== Sys2Proof/Machine/HostBus.lean ====
section
/-! DEFINITION. The host's accesses to the register window and the buffer memories (10_state.md, 20_memory.md), and the
host program notation of 30_encoding.md R72 and R73. -/

namespace Sys2Proof.Machine

/-- The eight words of the register window (10_state.md R18). -/
inductive Reg where
  | cmd | status | inLen | dictSize | lookaheadSize | outLen | reserved18 | reserved1C
  deriving DecidableEq, Repr

/-- The offset of a register (10_state.md R18). -/
def Reg.offset : Reg → Nat
  | .cmd => 0x00
  | .status => 0x04
  | .inLen => 0x08
  | .dictSize => 0x0C
  | .lookaheadSize => 0x10
  | .outLen => 0x14
  | .reserved18 => 0x18
  | .reserved1C => 0x1C

/-- The register an access of `bits` bits at offset `off` reaches; none for an access that is not 32 bits wide at a multiple
of 4 within 0x00..0x1C (20_memory.md R43). -/
def regOfAccess (bits off : Nat) : Option Reg :=
  if bits = 32 then
    match off with
    | 0x00 => some .cmd
    | 0x04 => some .status
    | 0x08 => some .inLen
    | 0x0C => some .dictSize
    | 0x10 => some .lookaheadSize
    | 0x14 => some .outLen
    | 0x18 => some .reserved18
    | 0x1C => some .reserved1C
    | _ => none
  else none

/-- What a register reads as (10_state.md R18 to R25). Reads have no side effects (20_memory.md R47). -/
def readReg (r : Reg) (s : State) : Word :=
  match r with
  | .cmd => cmdWord s
  | .status => statusWord s
  | .inLen => s.inLen
  | .dictSize => s.dictSize
  | .lookaheadSize => s.lookaheadSize
  | .outLen => s.outLen
  | .reserved18 => 0
  | .reserved1C => 0

/-- A write to a register while no command runs: CMD takes bits [3:0] and starts a command (10_state.md R19, R30), the three
operand registers take the word (R21 to R23), and every other write is ignored (R25). -/
def writeRegIdle (r : Reg) (v : Word) (s : State) : State :=
  match r with
  | .cmd => startCommand (v.extractLsb' 0 4) s
  | .inLen => { s with inLen := v }
  | .dictSize => { s with dictSize := v }
  | .lookaheadSize => { s with lookaheadSize := v }
  | .status => s
  | .outLen => s
  | .reserved18 => s
  | .reserved1C => s

/-- A write to a register: while STATE = BUSY it is ignored (10_state.md R25, R26). -/
def writeReg (r : Reg) (v : Word) (s : State) : State :=
  if s.run = .busy then s else writeRegIdle r v s

/-- Record what a host read returned. -/
def respond (r : Response) (s : State) : State := { s with responses := s.responses ++ [r] }

/-- Answer a host read of an unspecified byte: a fresh free draw (10_state.md R28, R37; log entry 2). -/
def respondFree (s : State) : State := respond (.byte (Config.freeByte s.draws)) { s with draws := s.draws + 1 }

/-- Answer a host read of a byte that is known, or of one that is not. -/
def respondByte (b : Option Byte) (s : State) : State :=
  match b with
  | some v => respond (.byte v) s
  | none => respondFree s

/-- What a host read of IN[a] finds: the last byte the host wrote there (10_state.md R27), if it has written one (R37). -/
def readIn (a : Nat) (s : State) : Option Byte := s.inMem.read a

/-- What a host read of OUT[a] finds: byte a of the last output while STATE = DONE and a < OUT_LEN, and otherwise no byte
the spec specifies (10_state.md R28). -/
def readOut (a : Nat) (s : State) : Option Byte :=
  if s.run = .done ∧ a < s.outLen.toNat then s.outMem.read a else none

/-- A host write to IN[a], ignored while STATE = BUSY (10_state.md R26, R27). -/
def writeIn (a : Nat) (b : Byte) (s : State) : State :=
  if s.run = .busy then s else { s with inMem := s.inMem.write a b }

/-- One host access: one atomic step (20_memory.md R46). An access of the wrong width, alignment or range has no defined
effect, and the model refuses it (R43, R44); a write to OUT is ignored (10_state.md R28). -/
def hostStep (a : HostAccess) (s : State) : Result :=
  match a with
  | .regWrite bits off v =>
    match regOfAccess bits off with
    | some r => .next (writeReg r v s)
    | none => .refused .registerAccess
  | .regRead bits off =>
    match regOfAccess bits off with
    | some r => .next (respond (.word (readReg r s)) s)
    | none => .refused .registerAccess
  | .inWrite a b => if a < s.cfg.inMemBytes then .next (writeIn a b s) else .refused .bufferAccess
  | .inRead a => if a < s.cfg.inMemBytes then .next (respondByte (readIn a s) s) else .refused .bufferAccess
  | .outWrite a _ => if a < s.cfg.outMemBytes then .next s else .refused .bufferAccess
  | .outRead a => if a < s.cfg.outMemBytes then .next (respondByte (readOut a s) s) else .refused .bufferAccess

/-! ## Host programs (30_encoding.md R72, R73) -/

/-- A line of a host program: the transactions of R72 and the pseudo-instructions of R73. `wait polls` is a poll loop
whose first `polls` reads find the engine still BUSY and whose last follows its completion step (log entry 6). -/
inductive HostLine where
  | wr (r : Reg) (v : Word)
  | rd (r : Reg)
  | wrb (a : Nat) (bs : List Byte)
  | rdb (a n : Nat)
  | wait (polls : Nat)
  | run (op : BitVec 4) (polls : Nat)
  | load (bs : List Byte)
  deriving DecidableEq, Repr

/-- The byte writes of `wrb IN[a], bs`, in ascending address order (20_memory.md R44, 30_encoding.md R72). -/
def inWrites (a : Nat) : List Byte → List Move
  | [] => []
  | b :: bs => .host (.inWrite a b) :: inWrites (a + 1) bs

/-- The transaction of a register write and of a register read (30_encoding.md R72). -/
def wrMove (r : Reg) (v : Word) : Move := .host (.regWrite 32 r.offset v)
def rdMove (r : Reg) : Move := .host (.regRead 32 r.offset)

/-- The poll loop of `wait` (30_encoding.md R73). -/
def waitMoves (polls : Nat) : List Move := List.replicate polls (rdMove .status) ++ [.engine, rdMove .status]

/-- The moves a line stands for (30_encoding.md R72, R73). -/
def HostLine.moves : HostLine → List Move
  | .wr r v => [wrMove r v]
  | .rd r => [rdMove r]
  | .wrb a bs => inWrites a bs
  | .rdb a n => (List.range n).map (fun i => .host (.outRead (a + i)))
  | .wait polls => waitMoves polls
  | .run op polls => wrMove .cmd (op.setWidth 32) :: waitMoves polls
  | .load bs => inWrites 0 bs ++ [wrMove .inLen (BitVec.ofNat 32 bs.length)]

/-! ## Placement (20_memory.md R39) -/

/-- The host-visible spaces (20_memory.md R38). -/
inductive Space where
  | reg | inBuf | outBuf
  deriving DecidableEq, Repr

/-- Where the host platform places address `a` of a space: the OPEN parameters REG_BASE, IN_BASE and OUT_BASE
(20_memory.md R39). No rule depends on it. -/
def placedAt (c : Params) (sp : Space) (a : Nat) : Nat :=
  match sp with
  | .reg => c.regBase + a
  | .inBuf => c.inBase + a
  | .outBuf => c.outBase + a

end Sys2Proof.Machine
end

