-- ==== Sys2Proof/Machine/Step.lean ====
section
/-! DEFINITION. One step of the machine. -/

namespace Sys2Proof.Machine

/-- The engine's turn: run what it fetches (10_state.md R31). -/
def engineTurn (s : State) : Host.Outcome State Fault Refusal :=
  match fetch s with
  | .inl (i, t) => exec i t
  | .inr t => .next t

/-- The engine's turn if one is enabled: "It is enabled exactly when STATE = BUSY" (10_state.md R31); otherwise nothing
happens. -/
def engineStep (s : State) : Host.Outcome State Fault Refusal :=
  if s.run = .busy then engineTurn s else .next s

/-- One step: the next of the moves to come, by host, engine or system; with none to come the engine completes a running
command (70_reset_and_hazards.md R160), and an idle engine waits (R153). -/
def step (s : State) : Host.Outcome State Fault Refusal :=
  match s.moves with
  | [] => engineStep s
  | .host a :: rest => hostStep a { s with moves := rest }
  | .engine :: rest => engineStep { s with moves := rest }
  | .reset :: rest => .next (resetEvent { s with moves := rest })

/-- `s` with a table word stored where the engine's next turn fetches it, and that turn the next move. -/
def State.withFetchWord (s : State) (nbits w : Nat) : State :=
  { placeTableWord s nbits w with moves := .engine :: s.moves }

end Sys2Proof.Machine
end

