-- ==== Sys2Proof/Safety.lean ====
section
/-! DEFINITION. The terms claims are stated in: what a memory and a state hold, how a command ended, what it left alone,
the invariant of the machine, and the spec's own wording of a few results. -/

namespace Sys2Proof.Machine

/-! ## Inputs, outcomes and frames -/

/-- The memory holds the bytes `bs` from address 0 on. -/
abbrev Memory.holds (m : Memory) (bs : List Byte) : Prop := ∀ i < bs.length, m.read i = some (byteAt bs i)

/-- IN_LEN and IN give a command the input `bs`, every byte of it written by the host (10_state.md R21, R27). -/
abbrev State.hasInput (s : State) (bs : List Byte) : Prop := s.inLen.toNat = bs.length ∧ s.inMem.holds bs

/-- The command ended in DONE with the output `out`: byte a of OUT is byte a of `out`, and no byte beyond it is specified
(10_state.md R28, R31). -/
abbrev State.outputIs (t : State) (out : List Byte) : Prop :=
  t.run = .done ∧ t.err = 0 ∧ (out.length < 2 ^ 32 → t.outLen.toNat = out.length) ∧
  ∀ a : Nat, Memory.read t.outMem a = out[a]?

/-- The command ended in ERROR with the kind `k`: no byte of OUT is specified (60_exceptions.md R143). -/
abbrev State.failsWith (t : State) (k : ErrKind) : Prop :=
  t.run = .error ∧ t.err = k.code ∧ t.outLen = 0 ∧ ∀ a : Nat, Memory.read t.outMem a = none

/-- What no command changes: CMD, the operand registers and every byte of IN (60_exceptions.md R143, 10_state.md R26, R27),
the parameters, and the model's record of the host's moves and reads. -/
abbrev State.keepsOperands (s t : State) : Prop :=
  t.cmdOp = s.cmdOp ∧ t.inLen = s.inLen ∧ t.dictSize = s.dictSize ∧ t.lookaheadSize = s.lookaheadSize ∧
  (∀ a : Nat, Memory.read t.inMem a = Memory.read s.inMem a) ∧
  t.cfg = s.cfg ∧ t.moves = s.moves ∧ t.responses = s.responses

/-- DICT_SIZE and LOOKAHEAD_SIZE pass CheckLzssConfig (42_lzss.md R95). -/
abbrev State.legalConfig (s : State) : Prop :=
  1 ≤ s.dictSize.toNat ∧ s.dictSize.toNat ≤ s.cfg.maxDictSize ∧
  1 ≤ s.lookaheadSize.toNat ∧ s.lookaheadSize.toNat ≤ s.cfg.maxLookaheadSize

/-! ## The spec's wording of a few results -/

/-- `k` is ℓ(d): the largest k ≤ cap with IN[p + i] = IN[p − d + i] for every i < k (41_matcher.md R88). -/
abbrev isMatchLength (input : List Byte) (p d cap k : Nat) : Prop :=
  k ≤ cap ∧ (∀ i < k, byteAt input (p + i) = byteAt input (p - d + i)) ∧
  (k < cap → byteAt input (p + k) ≠ byteAt input (p - d + k))

/-- The bytes a token sequence stands for after `out`, if every token obeys 42_lzss.md R104 under N = n, D = d, L = l and
none runs past N (R96, R105, R106). -/
def expandTokens (n d l : Nat) : List Token → List Byte → Option (List Byte)
  | [], out => some out
  | .literal b :: ts, out => if out.length < n then expandTokens n d l ts (out ++ [b]) else none
  | .copy dist len :: ts, out =>
    if 1 ≤ dist ∧ dist ≤ d ∧ dist ≤ out.length ∧ Config.minMatch ≤ len ∧ len ≤ l ∧ out.length + len ≤ n then
      expandTokens n d l ts (copyBytes dist len out)
    else none

/-- The bits of an LZSS container: header and tokens (30_encoding.md R58, R62, R63). -/
def lzssBits (n d l : Word) (ts : List Token) : List Bool :=
  encode (.container Config.identLzss) (.lzssContainer n d l) ++
    ts.flatMap (fun t => encode (.token (clog2 d.toNat) (clog2 l.toNat)) (instrOfToken t))

/-- The bits of a Huffman body: for each coded byte b the LEN[b] bits of CODE[b] (30_encoding.md R65). -/
def codeBits (lens : List Nat) (x : List Byte) : List Bool :=
  x.flatMap (fun b => valueBits ((canonical lens).getD b.toNat 0) (lens.getD b.toNat 0))

/-- The bits of a Huffman container (30_encoding.md R59). -/
def huffmanBits (n : Word) (lens : List Byte) (x : List Byte) : List Bool :=
  encode (.container Config.identHuffman) (.huffmanContainer n lens) ++ codeBits (lensOfBytes lens) x

/-- The bits of an HS container (30_encoding.md R60). -/
def hsBits (n : Word) (lens : List Byte) (x : List Byte) : List Bool :=
  encode (.container Config.identHs) (.hsContainer n lens) ++ codeBits (lensOfBytes lens) x

/-- The code-length table an encoder builds for `x`, as header bytes (43_huffman.md R114, R120). -/
def lensFor (x : List Byte) : List Byte := (buildLengths (freqTable x)).map (BitVec.ofNat 8)

/-- Σ over LEN[s] > 0 of 2^(255 − LEN[s]) (43_huffman.md R123). -/
def kraftSum (lens : List Nat) : Nat := ((lens.filter (0 < ·)).map (fun l => 2 ^ (255 - l))).sum

/-- How many symbols are present (43_huffman.md R112). -/
def presentCount (freq : List Nat) : Nat := freq.countP (1 ≤ ·)

/-! ## What is wrong with a body -/

/-- The defect of the bits `rest` that stand after the last token or code of a complete output, to the end of the source:
a set bit, or more bits than complete a byte (30_encoding.md R66, R69, 40_bitstream.md R83). -/
def endDefect (rest : List Bool) : Option ErrKind :=
  if 8 ≤ rest.length ∨ true ∈ rest then some .corruptStream else none

/-- A match of 42_lzss.md R104 that passes every check under N = n, D = d, L = l with `o` bytes out. -/
abbrev legalMatch (n d l o dist len : Nat) : Prop :=
  dist ≤ d ∧ dist ≤ o ∧ Config.minMatch ≤ len ∧ len ≤ l ∧ o + len ≤ n

/-- The defect of an LZSS body at the bits `rest`, once its tokens so far stand for `out`, if there is one: a token cut off
by the end of the source (42_lzss.md R103), an illegal match (R104), or what endDefect says once N bytes are out (R106). -/
def tokenDefect (n d l : Nat) (out : List Byte) (rest : List Bool) : Option ErrKind :=
  if out.length = n then endDefect rest
  else
    match rest with
    | [] => some .unexpectedEndOfInput
    | false :: r => if r.length < 8 then some .unexpectedEndOfInput else none
    | true :: r =>
      if r.length < clog2 d + clog2 l then some .unexpectedEndOfInput
      else if legalMatch n d l out.length (bitsValue (r.take (clog2 d)) + 1)
          (bitsValue ((r.drop (clog2 d)).take (clog2 l)) + 1) then none
      else some .corruptStream

/-- The bits `rest` start with the code of some symbol (43_huffman.md R124). -/
def startsWithCode (lens : List Nat) (rest : List Bool) : Bool :=
  (List.range Config.alphabet).any (fun s =>
    lens.getD s 0 != 0 && (valueBits ((canonical lens).getD s 0) (lens.getD s 0)).isPrefixOf rest)

/-- The defect of a Huffman body at the bits `rest`, once its codes so far stand for `x`, if there is one: a code cut off by
the end of the source or MAXL bits that match no code (43_huffman.md R124), or what endDefect says once n bytes are out
(R125). -/
def codeDefect (n : Nat) (lens : List Nat) (x : List Byte) (rest : List Bool) : Option ErrKind :=
  if x.length = n then endDefect rest
  else if startsWithCode lens rest then none
  else if rest.length < maxLength lens then some .unexpectedEndOfInput
  else some .corruptStream

/-! ## Sequences of fields -/

/-- A sequence of PutBits calls, each a value and a width (40_bitstream.md R77). -/
def putFields (w : Writer) : List (Nat × Nat) → Except ErrKind Writer
  | [] => .ok w
  | f :: fs =>
    match putBits w f.1 f.2 with
    | .error k => .error k
    | .ok w' => putFields w' fs

/-- A sequence of PutBits calls on a new writer and then Flush (40_bitstream.md R79). -/
def writeFields (dest : Dest) (cap : Nat) (fs : List (Nat × Nat)) : Except ErrKind (List Byte) :=
  match putFields (Writer.new dest cap) fs with
  | .error k => .error k
  | .ok w => flush w

/-- A sequence of GetBits calls (40_bitstream.md R82). -/
def getFields (rd : Reader) : List Nat → Option (List Nat × Reader)
  | [] => some ([], rd)
  | w :: ws =>
    match getBits rd w with
    | none => none
    | some (v, rd') =>
      match getFields rd' ws with
      | none => none
      | some (vs, rd'') => some (v :: vs, rd'')

/-- The decoder that a container identifier selects, with the capacities of the machine (30_encoding.md R57). -/
def decoderOf (c : Params) (ident : Byte) (src : List Byte) : Except ErrKind (List Byte) :=
  if ident = Config.identLzss then lzssDecode c.outMemBytes src
  else if ident = Config.identHs then hsDecode c src
  else hufDecode Config.identHuffman c.outMemBytes src

/-! ## Runs and the invariant -/

/-- The host sequence that runs a command (70_reset_and_hazards.md R155): load the input, write the sizes, write CMD and
poll until the command has ended. -/
def hostRun (bs : List Byte) (d l : Word) (op : BitVec 4) (polls : Nat) : List Move :=
  [HostLine.load bs, HostLine.wr .dictSize d, HostLine.wr .lookaheadSize l, HostLine.run op polls].flatMap HostLine.moves

/-- Up to `k` engine turns, stopping when the command has ended. -/
def engineTurns : Nat → State → State
  | 0, s => s
  | k + 1, s =>
    if s.run = .busy then
      match engineTurn s with
      | .next t => engineTurns k t
      | .fault _ => s
      | .refused _ => s
    else s

/-- What holds at reset and after every step. -/
structure State.Inv (s : State) : Prop where
  /-- IN and INNER are in canonical form and lie within their capacities (20_memory.md R38). -/
  inCanonical : Memory.wf s.inMem = true
  inWithin : Memory.below s.inMem s.cfg.inMemBytes = true
  innerCanonical : Memory.wf s.innerMem = true
  innerWithin : Memory.below s.innerMem s.cfg.innerMemBytes = true
  /-- ERR is nonzero exactly when STATE = ERROR (10_state.md R20), and codes 7..15 are never written (60_exceptions.md R138). -/
  errInError : s.err ≠ 0 ↔ s.run = .error
  errKnown : s.err.toNat ≤ 6
  /-- OUT_LEN is 0 while STATE is IDLE, BUSY or ERROR (10_state.md R24), and no byte of OUT is specified then (R28). -/
  noOutput : s.run ≠ .done → s.outLen = 0 ∧ s.outMem = []
  /-- While STATE = DONE, the bytes of OUT that are specified are an output that fits OUT, and OUT_LEN is its length
  (10_state.md R24, R31). -/
  output : s.run = .done →
    ∃ out : List Byte, out.length ≤ s.cfg.outMemBytes ∧ s.outMem = Memory.ofBytes out ∧ s.outLen = lengthWord out.length
  /-- No decoder stage is in progress unless a command runs (10_state.md R34). -/
  quiet : s.run ≠ .busy → s.work.stage = .command
  /-- A decoder's output never passes the length its header declares, which fits its destination (60_exceptions.md R141). -/
  lzssProgress : s.work.stage = .lzssBody →
    s.work.lzss.out.length ≤ s.work.lzss.n ∧ s.work.lzss.n ≤ s.cfg.outMemBytes
  huffProgress : ∀ ident, s.work.stage = .huffBody ident →
    s.work.huff.out.length ≤ s.work.huff.n ∧
    s.work.huff.n ≤ (if ident = Config.identHs then s.cfg.innerMemBytes else s.cfg.outMemBytes)

end Sys2Proof.Machine
end

