-- ==== Sys2Proof/Certificates/Slice0/Obligations.lean ====
section
/-! DEFINITION. The statements for the provers. Each docstring names the rules it formalises. -/

open Sys2Proof
open Sys2Proof.Machine

/-! ## Reset -/

/-- 10_state.md R36: after reset every register reads 0 and STATE = IDLE, whatever the OPEN parameters are. -/
def Obligations.ResetGivesEveryRegisterItsValue : Prop :=
  (∀ (c : Params) (r : Reg), readReg r (State.resetOf c) = 0) ∧
  (∀ c : Params, (State.resetOf c).run = .idle ∧ (State.resetOf c).cmdOp = 0 ∧ (State.resetOf c).err = 0)

/-- 70_reset_and_hazards.md R153: a reset in any state, BUSY included, abandons the command, sets every register to its
reset value and leaves no byte of IN, OUT and INNER specified. -/
def Obligations.ResetAbandonsTheRunningCommand : Prop :=
  ∀ (s : State) (rest : List Move), s.moves = .reset :: rest →
    ∃ t, step s = .next t ∧ (∀ r : Reg, readReg r t = 0) ∧ t.run = .idle ∧ t.work.stage = .command ∧
      (∀ a : Nat, Memory.read t.inMem a = none ∧ Memory.read t.outMem a = none ∧ Memory.read t.innerMem a = none) ∧
      t.cfg = s.cfg ∧ t.moves = rest

/-! ## The register window and the buffers -/

/-- 10_state.md R30: a CMD write while STATE ≠ BUSY starts a command, in one step, and changes nothing else the host
can see. -/
def Obligations.CommandWriteStartsACommand : Prop :=
  ∀ (s : State) (v : Word) (rest : List Move), s.run ≠ .busy → s.moves = .host (.regWrite 32 0x00 v) :: rest →
    ∃ t, step s = .next t ∧ t.cmdOp.toNat = v.toNat % 16 ∧ t.run = .busy ∧ t.err = 0 ∧ t.outLen = 0 ∧
      (∀ a : Nat, Memory.read t.outMem a = none) ∧
      t.inLen = s.inLen ∧ t.dictSize = s.dictSize ∧ t.lookaheadSize = s.lookaheadSize ∧
      (∀ a : Nat, Memory.read t.inMem a = Memory.read s.inMem a) ∧
      t.cfg = s.cfg ∧ t.responses = s.responses ∧ t.moves = rest ∧ t.work.stage = .command

/-- 10_state.md R26: while STATE = BUSY, host writes to every register and to IN are ignored. -/
def Obligations.WritesWhileBusyAreIgnored : Prop :=
  ∀ (s : State) (rest : List Move), s.run = .busy →
    (∀ (r : Reg) (v : Word), s.moves = .host (.regWrite 32 r.offset v) :: rest →
      step s = .next { s with moves := rest }) ∧
    (∀ (a : Nat) (b : Byte), a < s.cfg.inMemBytes → s.moves = .host (.inWrite a b) :: rest →
      step s = .next { s with moves := rest })

/-- 10_state.md R21, R22, R23: while STATE ≠ BUSY each operand register takes any 32-bit value the host writes, and
nothing else changes. -/
def Obligations.OperandRegistersTakeAnyWord : Prop :=
  ∀ (s : State) (v : Word) (rest : List Move), s.run ≠ .busy →
    (s.moves = .host (.regWrite 32 0x08 v) :: rest → step s = .next { s with inLen := v, moves := rest }) ∧
    (s.moves = .host (.regWrite 32 0x0C v) :: rest → step s = .next { s with dictSize := v, moves := rest }) ∧
    (s.moves = .host (.regWrite 32 0x10 v) :: rest → step s = .next { s with lookaheadSize := v, moves := rest })

/-- 10_state.md R25: reserved bits and offsets read as 0; the reserved bits [31:4] of a CMD write are ignored, and writes to
the reserved offsets, STATUS and OUT_LEN are ignored in every state. -/
def Obligations.ReservedAndReadOnlyRegisters : Prop :=
  ∀ s : State,
    (readReg .cmd s).toNat / 16 = 0 ∧ (readReg .status s).toNat / 256 = 0 ∧ (readReg .status s).toNat / 4 % 4 = 0 ∧
    readReg .reserved18 s = 0 ∧ readReg .reserved1C s = 0 ∧
    (∀ (v v' : Word) (rest : List Move), v.toNat % 16 = v'.toNat % 16 →
      step { s with moves := .host (.regWrite 32 0x00 v) :: rest } =
        step { s with moves := .host (.regWrite 32 0x00 v') :: rest }) ∧
    ∀ (off : Nat) (v : Word) (rest : List Move), off = 0x04 ∨ off = 0x14 ∨ off = 0x18 ∨ off = 0x1C →
      s.moves = .host (.regWrite 32 off v) :: rest → step s = .next { s with moves := rest }

/-- 10_state.md R18, R19, R20 and 20_memory.md R47: a register read answers the register at its offset, CMD as CMD.OP and
STATUS with STATE in bits [1:0] and ERR in bits [7:4], and has no other effect. -/
def Obligations.RegisterReadsAnswerAndChangeNothing : Prop :=
  ∀ (s : State) (r : Reg) (rest : List Move), s.moves = .host (.regRead 32 r.offset) :: rest →
    step s = .next { s with moves := rest, responses := s.responses ++ [.word (readReg r s)] } ∧
    (readReg .cmd s).toNat = s.cmdOp.toNat ∧
    (readReg .status s).toNat = s.err.toNat * 16 + s.run.code.toNat ∧
    readReg .inLen s = s.inLen ∧ readReg .dictSize s = s.dictSize ∧
    readReg .lookaheadSize s = s.lookaheadSize ∧ readReg .outLen s = s.outLen

/-- 20_memory.md R43: a register access that is not 32 bits wide at a multiple of 4 within 0x00..0x1C is refused, and only
such an access is. -/
def Obligations.AccessOutsideTheRegisterWindowIsRefused : Prop :=
  ∀ (s : State) (bits off : Nat) (v : Word) (rest : List Move),
    (s.moves = .host (.regWrite bits off v) :: rest →
      (step s = .refused .registerAccess ↔ ¬ (bits = 32 ∧ off % 4 = 0 ∧ off ≤ 0x1C))) ∧
    (s.moves = .host (.regRead bits off) :: rest →
      (step s = .refused .registerAccess ↔ ¬ (bits = 32 ∧ off % 4 = 0 ∧ off ≤ 0x1C)))

/-- 20_memory.md R44: a byte access to IN or OUT is refused exactly when its address is at or beyond the capacity. -/
def Obligations.BufferAccessBeyondCapacityIsRefused : Prop :=
  ∀ (s : State) (a : Nat) (b : Byte) (rest : List Move),
    (s.moves = .host (.inWrite a b) :: rest → (step s = .refused .bufferAccess ↔ s.cfg.inMemBytes ≤ a)) ∧
    (s.moves = .host (.inRead a) :: rest → (step s = .refused .bufferAccess ↔ s.cfg.inMemBytes ≤ a)) ∧
    (s.moves = .host (.outWrite a b) :: rest → (step s = .refused .bufferAccess ↔ s.cfg.outMemBytes ≤ a)) ∧
    (s.moves = .host (.outRead a) :: rest → (step s = .refused .bufferAccess ↔ s.cfg.outMemBytes ≤ a))

/-- 10_state.md R27: IN holds, at every address, the last byte the host wrote there; a host read returns it at any time,
a write while BUSY is ignored, and no other step but a reset changes IN, a turn of the engine included. -/
def Obligations.InHoldsTheLastHostWrite : Prop :=
  ∀ (s : State) (a : Nat) (rest : List Move), a < s.cfg.inMemBytes →
    (∀ b : Byte, s.moves = .host (.inWrite a b) :: rest →
      ∃ t, step s = .next t ∧ t.moves = rest ∧
        (∀ x : Nat, Memory.read t.inMem x =
          if s.run ≠ .busy ∧ x = a then some b else Memory.read s.inMem x)) ∧
    (∀ b : Byte, Memory.read s.inMem a = some b → s.moves = .host (.inRead a) :: rest →
      step s = .next { s with moves := rest, responses := s.responses ++ [.byte b] }) ∧
    (∀ t, (∀ x b r, s.moves ≠ .host (.inWrite x b) :: r) → (∀ r, s.moves ≠ .reset :: r) → step s = .next t →
      ∀ x : Nat, Memory.read t.inMem x = Memory.read s.inMem x)

/-- 10_state.md R37: a host read of a byte of IN that the host has not written since reset is a free draw, and the next
such read is another one. The statement holds whatever the free values are (log entry 2). -/
def Obligations.UnwrittenInReadIsAFreshDraw : Prop :=
  ∀ (s : State) (a a' : Nat) (rest : List Move), a < s.cfg.inMemBytes → a' < s.cfg.inMemBytes →
    Memory.read s.inMem a = none → Memory.read s.inMem a' = none →
    s.moves = .host (.inRead a) :: .host (.inRead a') :: rest →
    ∃ k k' : Nat, k ≠ k' ∧ core.run 2 s =
      .next { s with
        moves := rest, draws := s.draws + 2,
        responses := s.responses ++ [.byte (Config.freeByte k), .byte (Config.freeByte k')] }

/-- 10_state.md R28: host writes to OUT are ignored; a read of OUT[a] with STATE = DONE and a < OUT_LEN returns a byte of
the last output, and any other read is a free draw. The invariant rules out a DONE state with no output (no run reaches
one). -/
def Obligations.OutReadsReturnTheOutputOrAFreeDraw : Prop :=
  ∀ (s : State) (a : Nat) (rest : List Move), s.Inv → a < s.cfg.outMemBytes →
    (∀ b : Byte, s.moves = .host (.outWrite a b) :: rest → step s = .next { s with moves := rest }) ∧
    (s.moves = .host (.outRead a) :: rest →
      (s.run = .done ∧ a < s.outLen.toNat →
        ∃ b, Memory.read s.outMem a = some b ∧
          step s = .next { s with moves := rest, responses := s.responses ++ [.byte b] }) ∧
      (¬ (s.run = .done ∧ a < s.outLen.toNat) →
        step s = .next { s with
          moves := rest, draws := s.draws + 1,
          responses := s.responses ++ [.byte (Config.freeByte s.draws)] }))

/-- 30_encoding.md R73 and 70_reset_and_hazards.md R155 steps 2 and 3: the host line `load bs`, run from a state that is not
BUSY, leaves IN and IN_LEN giving a command the input `bs`, and every byte of IN beyond it as it was. -/
def Obligations.LoadGivesACommandItsInput : Prop :=
  ∀ (s : State) (bs : List Byte) (rest : List Move), s.run ≠ .busy → bs.length ≤ s.cfg.inMemBytes →
    bs.length < 2 ^ 32 → s.moves = (HostLine.load bs).moves ++ rest →
    ∃ t, core.run (bs.length + 1) s = .next t ∧ t.hasInput bs ∧ t.moves = rest ∧
      (∀ a : Nat, bs.length ≤ a → Memory.read t.inMem a = Memory.read s.inMem a) ∧
      t.run = s.run ∧ t.dictSize = s.dictSize ∧ t.lookaheadSize = s.lookaheadSize ∧ t.cfg = s.cfg

/-- 70_reset_and_hazards.md R155 and R162: a host that loads an input, sets the sizes, starts a command and polls sees BUSY
in every poll before the completion step, and then the outcome that the command's instruction gives on those operands.
The polls before completion are a choice of the schedule (log entry 6). -/
def Obligations.HostRunSeesTheOutcomeOfItsCommand : Prop :=
  ∀ (s : State) (bs : List Byte) (d l : Word) (op : BitVec 4) (polls : Nat) (rest : List Move), s.run ≠ .busy →
    bs.length ≤ s.cfg.inMemBytes → bs.length < 2 ^ 32 → s.moves = hostRun bs d l op polls ++ rest →
    ∃ u t v, u.hasInput bs ∧ u.dictSize = d ∧ u.lookaheadSize = l ∧ u.cmdOp = op ∧ u.cfg = s.cfg ∧
      exec (decodeCommand (op.setWidth 32)) u = .next t ∧
      core.run (hostRun bs d l op polls).length s = .next v ∧
      v.run = t.run ∧ v.err = t.err ∧ v.outLen = t.outLen ∧
      (∀ a : Nat, Memory.read v.outMem a = Memory.read t.outMem a) ∧ v.moves = rest ∧
      v.responses = s.responses ++ List.replicate polls (.word 1) ++ [.word (statusWord t)]

/-! ## Steps -/

/-- A turn of the engine runs the instruction it fetches: the command of CMD.OP when no decoder stage is in progress
(10_state.md R31), the container at the reader of a stage that expects one (42_lzss.md R102, 43_huffman.md R122), or the
next token of an LZSS body whose output is not complete (42_lzss.md R106), with the reader moved past its bits. -/
def Obligations.EngineTurnRunsTheFetchedInstruction : Prop :=
  ∀ (s : State) (rest : List Move), s.run = .busy → s.moves = .engine :: rest →
    (s.work.stage = .command →
      step s = exec (decodeCommand (readReg .cmd s)) { s with moves := rest }) ∧
    (∀ (ident : Byte) (i : Instr) (rd : Reader), s.work.stage = .header ident →
      decode (.container ident) s.work.reader = .ok (i, rd) →
      step s = exec i { s with moves := rest, work := { s.work with reader := rd } }) ∧
    (∀ (i : Instr) (rd : Reader), s.work.stage = .lzssBody → s.work.lzss.out.length < s.work.lzss.n →
      decode (.token (clog2 s.work.lzss.d) (clog2 s.work.lzss.l)) s.work.reader = .ok (i, rd) →
      step s = exec i { s with moves := rest, work := { s.work with reader := rd } })

/-- 10_state.md R31 and 70_reset_and_hazards.md R160: the engine's step is enabled exactly when STATE = BUSY. One turn ends
any command that CMD.OP selects, in DONE or ERROR; a turn while STATE ≠ BUSY changes nothing. -/
def Obligations.OneEngineTurnEndsTheCommand : Prop :=
  ∀ s : State,
    (s.run = .busy → s.work.stage = .command → (s.moves = [] ∨ ∃ rest, s.moves = .engine :: rest) →
      ∃ t, step s = .next t ∧ (t.run = .done ∨ t.run = .error) ∧ t.moves = s.moves.tail) ∧
    (s.run ≠ .busy → ∀ rest, s.moves = .engine :: rest → step s = .next { s with moves := rest })

/-- 60_exceptions.md R140: every instruction answers a next state in every state; and a step stops only on a host access
that 20_memory.md R43 or R44 refuses. -/
def Obligations.OnlyUndefinedHostAccessesStop : Prop :=
  (∀ (i : Instr) (s : State), ∃ t, exec i s = .next t) ∧
  ∀ s : State, (∀ t, step s ≠ .next t) →
    (step s = .refused .registerAccess ∧ ∃ bits off v rest,
      (s.moves = .host (.regWrite bits off v) :: rest ∨ s.moves = .host (.regRead bits off) :: rest) ∧
      ¬ (bits = 32 ∧ off % 4 = 0 ∧ off ≤ 0x1C)) ∨
    (step s = .refused .bufferAccess ∧ ∃ a b rest,
      ((s.moves = .host (.inWrite a b) :: rest ∨ s.moves = .host (.inRead a) :: rest) ∧ s.cfg.inMemBytes ≤ a) ∨
      ((s.moves = .host (.outWrite a b) :: rest ∨ s.moves = .host (.outRead a) :: rest) ∧ s.cfg.outMemBytes ≤ a))

/-- 60_exceptions.md R144: an outcome, DONE or ERROR, with its OUT_LEN and its bytes of OUT, persists until the next CMD
write or a reset. -/
def Obligations.OutcomePersistsUntilTheNextStart : Prop :=
  ∀ s t : State, s.run = .done ∨ s.run = .error → step s = .next t →
    (∀ v rest, s.moves ≠ .host (.regWrite 32 0x00 v) :: rest) → (∀ rest, s.moves ≠ .reset :: rest) →
    t.run = s.run ∧ t.err = s.err ∧ t.outLen = s.outLen ∧ t.cmdOp = s.cmdOp ∧
    ∀ a : Nat, Memory.read t.outMem a = Memory.read s.outMem a

/-! ## Encodings -/

/-- 30_encoding.md R55, R67: the command a word selects depends on its bits [3:0] alone. -/
def Obligations.CommandIsSelectedByTheLowFourBits : Prop :=
  ∀ w : Word,
    (w.toNat % 16 = 1 → decodeCommand w = .lzssCompress) ∧
    (w.toNat % 16 = 2 → decodeCommand w = .lzssDecompress) ∧
    (w.toNat % 16 = 3 → decodeCommand w = .huffmanCompress) ∧
    (w.toNat % 16 = 4 → decodeCommand w = .huffmanDecompress) ∧
    (w.toNat % 16 = 5 → decodeCommand w = .hsCompress) ∧
    (w.toNat % 16 = 6 → decodeCommand w = .hsDecompress) ∧
    (w.toNat % 16 = 0 ∨ 7 ≤ w.toNat % 16 →
      ∃ op, decodeCommand w = .reservedCommand op ∧ op.toNat = w.toNat % 16 ∧ reservedOp op = true)

/-- A few words written out from the tables of 30_encoding.md R55, R58, R62 and R63: the command 0x13, the literal 0x41, the
match (2, 6) in fields of 2 and 3 bits, and an LZSS header. -/
def Obligations.SampleWordsDecode : Prop :=
  decodeCommand 0x00000013 = .huffmanCompress ∧
  decode (.token 2 3) { src := [0x20, 0x80], pos := 0 } = .ok (.lit 0x41, { src := [0x20, 0x80], pos := 9 }) ∧
  decode (.token 2 3) { src := [0xB4], pos := 0 } = .ok (.matchTok 2 6, { src := [0xB4], pos := 6 }) ∧
  decode (.container 1) { src := [1, 0, 0, 3, 0xE8, 0, 0, 4, 0, 0, 0, 0, 8], pos := 0 } =
    .ok (.lzssContainer 1000 1024 8, { src := [1, 0, 0, 3, 0xE8, 0, 0, 4, 0, 0, 0, 0, 8], pos := 104 })

/-- 30_encoding.md R54, R62, R63, R64: decoding the encoding of a well-formed command or token gives it back, with every
operand, wherever in a byte sequence its bits stand, and consumes exactly its bits. -/
def Obligations.DecodeOfEncodeGivesTheInstruction : Prop :=
  ∀ (f : Format) (i : Instr) (before after : List Bool), wellFormed f i = true → (∀ ident, f ≠ .container ident) →
    decode f { src := packBits (before ++ encode f i ++ after), pos := before.length } =
      .ok (i, { src := packBits (before ++ encode f i ++ after), pos := before.length + (encode f i).length })

/-- 30_encoding.md R58, R59, R60, R71: decoding the encoding of a well-formed container header gives it back, with every
field, and leaves the reader at the body, whatever the body is. -/
def Obligations.DecodeOfEncodeGivesTheContainer : Prop :=
  ∀ (ident : Byte) (i : Instr) (body : List Bool), wellFormed (.container ident) i = true →
    (encode (.container ident) i).length = 8 * headerLength ident ∧
    decode (.container ident) { src := packBits (encode (.container ident) i ++ body), pos := 0 } =
      .ok (i, { src := packBits (encode (.container ident) i ++ body), pos := 8 * headerLength ident })

/-! ## Bitstream -/

/-- 40_bitstream.md R76, R77, R79 and 30_encoding.md R66: the fields a stage puts, flushed, are their bits most significant
first, completed with 0 bits to ceil(b/8) bytes; a destination too small for them gives CapacityExceeded. R77 gives widths up to
32 and values that fit them; for a greater width, and for the low bits of a greater value, the loop of R77 is run as it
stands, which is the model's reading (log entry 8). -/
def Obligations.FlushedFieldsArePackedMostSignificantFirst : Prop :=
  ∀ (dest : Dest) (cap : Nat) (fs : List (Nat × Nat)),
    writeFields dest cap fs =
      if ((fs.map Prod.snd).sum + 7) / 8 ≤ cap then .ok (packBits (fs.flatMap (fun f => valueBits f.1 f.2)))
      else .error .capacityExceeded

/-- 40_bitstream.md R84: a reader reads back the fields of any PutBits calls from the stream Flush returns, with the same
widths and in the same order, and CheckEnd then succeeds. That it holds for widths above 32, outside R77 and R82, is the
model's reading (log entry 8). -/
def Obligations.FieldsReadBackAsWritten : Prop :=
  ∀ (dest : Dest) (cap : Nat) (fs : List (Nat × Nat)) (bs : List Byte),
    (∀ f ∈ fs, f.1 < 2 ^ f.2) → writeFields dest cap fs = .ok bs →
    ∃ rd, getFields { src := bs, pos := 0 } (fs.map Prod.snd) = some (fs.map Prod.fst, rd) ∧ checkEnd rd = .ok ()

/-- 40_bitstream.md R83: CheckEnd succeeds exactly when the source ends with the byte of the last bit read and the bits
after it are 0; otherwise it raises CorruptStream. -/
def Obligations.CheckEndAcceptsExactlyZeroPadding : Prop :=
  ∀ rd : Reader,
    (checkEnd rd = .ok () ↔
      rd.src.length = (rd.pos + 7) / 8 ∧ ∀ q, rd.pos ≤ q → q < 8 * ((rd.pos + 7) / 8) → bitAt rd.src q = false) ∧
    (checkEnd rd ≠ .ok () → checkEnd rd = .error .corruptStream)

/-! ## Matcher -/

/-- 41_matcher.md R88, R89, R90, R92: FindMatch answers the candidate with the longest match and, among those, the smallest
distance; it answers none exactly when no candidate matches 3 bytes or more. -/
def Obligations.FindMatchIsTheNearestLongestMatch : Prop :=
  ∀ (input : List Byte) (p d l : Nat), p < input.length →
    (∀ dist len, findMatch input p d l = some (dist, len) →
      1 ≤ dist ∧ dist ≤ min d p ∧ 3 ≤ len ∧ isMatchLength input p dist (min l (input.length - p)) len ∧
      ∀ d' k, 1 ≤ d' → d' ≤ min d p → isMatchLength input p d' (min l (input.length - p)) k →
        k ≤ len ∧ (k = len → dist ≤ d')) ∧
    (findMatch input p d l = none ↔
      ∀ d' k, 1 ≤ d' → d' ≤ min d p → isMatchLength input p d' (min l (input.length - p)) k → k < 3)

/-- 42_lzss.md R96: the tokens of an input are all legal under (N, D, L) and the bytes they stand for are the input. -/
def Obligations.TokensStandForTheInput : Prop :=
  ∀ (input : List Byte) (d l : Nat), expandTokens input.length d l (tokens input d l) [] = some input

/-! ## LZSS -/

/-- 42_lzss.md R95, R100, R109: LZSSCompress with a legal configuration and an input that fits IN ends in DONE with the
LZSS container of the input, header then tokens, and never in CapacityExceeded under 00_scope.md R9 and R10. The input
may hold bytes the host has not written, which are free values (log entry 2). -/
def Obligations.LzssCompressWritesTheContainer : Prop :=
  ∀ s : State, s.cfg.Valid → s.inLen.toNat ≤ s.cfg.inMemBytes → s.legalConfig →
    ∃ t, exec .lzssCompress s = .next t ∧
      t.outputIs (packBits (lzssBits s.inLen s.dictSize s.lookaheadSize
        (tokens (inputBytes s) s.dictSize.toNat s.lookaheadSize.toNat))) ∧
      s.keepsOperands t

/-- 42_lzss.md R101: the size of an LZSS container. -/
def Obligations.LzssContainerSize : Prop :=
  ∀ (dest : Dest) (cap : Nat) (input : List Byte) (d l : Nat) (out : List Byte),
    lzssEncode dest cap input d l = .ok out →
    out.length = 13 + (9 * (tokens input d l).countP (fun t => match t with | .literal _ => true | .copy _ _ => false)
      + (1 + clog2 d + clog2 l) * (tokens input d l).countP (fun t => match t with | .literal _ => false | .copy _ _ => true)
      + 7) / 8

/-- 42_lzss.md R103 to R106, R110: LZSSDecompress of a container whose tokens obey R104 and stand for N bytes ends in DONE
with those bytes. With any bits after the legal tokens `ts`, the first defect there ends it: a token cut off by the end of
the source in UnexpectedEndOfInput (R103), an illegal match (R104), nonzero padding or a trailing byte (30_encoding.md R66,
R69, 40_bitstream.md R83) in CorruptStream. -/
def Obligations.LzssDecompressExpandsTheTokens : Prop :=
  ∀ (s : State) (n d l : Word) (ts : List Token) (out : List Byte),
    s.inLen.toNat ≤ s.cfg.inMemBytes → 1 ≤ d.toNat → 1 ≤ l.toNat → n.toNat ≤ s.cfg.outMemBytes →
    expandTokens n.toNat d.toNat l.toNat ts [] = some out →
    (s.hasInput (packBits (lzssBits n d l ts)) → out.length = n.toNat →
      ∃ t, exec .lzssDecompress s = .next t ∧ t.outputIs out ∧ s.keepsOperands t) ∧
    (∀ (rest : List Bool) (k : ErrKind), s.hasInput (packBits (lzssBits n d l ts ++ rest)) →
      (lzssBits n d l ts ++ rest).length % 8 = 0 → tokenDefect n.toNat d.toNat l.toNat out rest = some k →
      ∃ t, exec .lzssDecompress s = .next t ∧ t.failsWith k ∧ s.keepsOperands t)

/-- 42_lzss.md R108: decoding the LZSS container of an input gives the input back. -/
def Obligations.LzssRoundTrip : Prop :=
  ∀ (c : Params) (dest : Dest) (input : List Byte) (d l : Nat), c.Valid → input.length ≤ c.inMemBytes →
    1 ≤ d → d ≤ c.maxDictSize → 1 ≤ l → l ≤ c.maxLookaheadSize →
    ∃ bs, lzssEncode dest (match dest with | .out => c.outMemBytes | .inner => c.innerMemBytes) input d l = .ok bs ∧
      lzssDecode c.outMemBytes bs = .ok input

/-- 42_lzss.md R102: the header checks of the LZSS decoder, the first failing one deciding the error; any other
header is accepted, with D and L up to 2^32 − 1, and the body is decoded from byte 13. -/
def Obligations.LzssHeaderChecksInOrder : Prop :=
  ∀ (cap : Nat) (src : List Byte),
    (src.length = 0 → lzssDecode cap src = .error .unexpectedEndOfInput) ∧
    (1 ≤ src.length → byteAt src 0 ≠ 0x01 → lzssDecode cap src = .error .corruptStream) ∧
    (1 ≤ src.length → byteAt src 0 = 0x01 → src.length < 13 → lzssDecode cap src = .error .unexpectedEndOfInput) ∧
    (13 ≤ src.length → byteAt src 0 = 0x01 → be32 src 5 = 0 ∨ be32 src 9 = 0 →
      lzssDecode cap src = .error .corruptStream) ∧
    (13 ≤ src.length → byteAt src 0 = 0x01 → be32 src 5 ≠ 0 → be32 src 9 ≠ 0 → cap < be32 src 1 →
      lzssDecode cap src = .error .capacityExceeded) ∧
    (13 ≤ src.length → byteAt src 0 = 0x01 → be32 src 5 ≠ 0 → be32 src 9 ≠ 0 → be32 src 1 ≤ cap →
      lzssDecode cap src =
        lzssFinish { src := src, pos := 104 } { n := be32 src 1, d := be32 src 5, l := be32 src 9, out := [] })

/-- The literal token (42_lzss.md R106): LIT appends its byte to the decoder's output and changes nothing else. -/
def Obligations.LiteralAppendsItsByte : Prop :=
  ∀ (s : State) (b : Byte),
    exec (.lit b) s =
      .next { s with work := { s.work with lzss := { s.work.lzss with out := s.work.lzss.out ++ [b] } } }

/-- 42_lzss.md R104, R105: a MATCH that passes the checks appends `len` bytes, each equal to the byte `d` before it in the
growing output, and changes nothing else. -/
def Obligations.MatchCopiesByteByByte : Prop :=
  ∀ (s : State) (d len : Nat), 1 ≤ d → d ≤ s.work.lzss.d → d ≤ s.work.lzss.out.length → 3 ≤ len →
    len ≤ s.work.lzss.l → s.work.lzss.out.length + len ≤ s.work.lzss.n →
    ∃ out, exec (.matchTok d len) s =
        .next { s with work := { s.work with lzss := { s.work.lzss with out := out } } } ∧
      out.length = s.work.lzss.out.length + len ∧
      (∀ i < s.work.lzss.out.length, byteAt out i = byteAt s.work.lzss.out i) ∧
      (∀ i, s.work.lzss.out.length ≤ i → i < out.length → byteAt out i = byteAt out (i - d))

/-- 42_lzss.md R104: a MATCH that fails any check ends the command in CorruptStream; the operands stay. -/
def Obligations.IllegalMatchIsCorruptStream : Prop :=
  ∀ (s : State) (d len : Nat),
    s.work.lzss.d < d ∨ s.work.lzss.out.length < d ∨ len < 3 ∨ s.work.lzss.l < len ∨
      s.work.lzss.n < s.work.lzss.out.length + len →
    ∃ t, exec (.matchTok d len) s = .next t ∧ t.failsWith .corruptStream ∧ s.keepsOperands t

/-- 42_lzss.md R102, R106: an LZSS container header with D and L nonzero and an N that fits OUT starts the token decoder
with an empty output, and changes nothing else; D = 0 or L = 0 ends the command in CorruptStream, and then a larger N
in CapacityExceeded. -/
def Obligations.LzssContainerStartsTheTokenDecoder : Prop :=
  ∀ (s : State) (n d l : Word),
    (d ≠ 0 → l ≠ 0 → n.toNat ≤ s.cfg.outMemBytes →
      exec (.lzssContainer n d l) s =
        .next { s with
          work := { s.work with stage := .lzssBody, lzss := { n := n.toNat, d := d.toNat, l := l.toNat, out := [] } } }) ∧
    (d = 0 ∨ l = 0 →
      ∃ t, exec (.lzssContainer n d l) s = .next t ∧ t.failsWith .corruptStream ∧ s.keepsOperands t) ∧
    (d ≠ 0 → l ≠ 0 → s.cfg.outMemBytes < n.toNat →
      ∃ t, exec (.lzssContainer n d l) s = .next t ∧ t.failsWith .capacityExceeded ∧ s.keepsOperands t)

/-! ## Huffman -/

/-- 43_huffman.md R112, R116: every code length is 0 for an absent symbol and between 1 and 255 for a present one. -/
def Obligations.CodeLengthsOfPresentSymbols : Prop :=
  ∀ (x : List Byte) (s : Nat), s < 256 →
    (buildLengths (freqTable x)).length = 256 ∧
    ((∀ b ∈ x, b.toNat ≠ s) → (buildLengths (freqTable x)).getD s 0 = 0) ∧
    ((∃ b ∈ x, b.toNat = s) →
      1 ≤ (buildLengths (freqTable x)).getD s 0 ∧ (buildLengths (freqTable x)).getD s 0 ≤ 255)

/-- 43_huffman.md R117: Σ 2^(−LEN) is 1 with at least two present symbols, 1/2 with one and 0 with none (times 2^255). -/
def Obligations.BuiltLengthsMeetKraft : Prop :=
  ∀ x : List Byte,
    (2 ≤ presentCount (freqTable x) → kraftSum (buildLengths (freqTable x)) = 2 ^ 255) ∧
    (presentCount (freqTable x) = 1 → kraftSum (buildLengths (freqTable x)) = 2 ^ 254) ∧
    (presentCount (freqTable x) = 0 → kraftSum (buildLengths (freqTable x)) = 0)

/-- 43_huffman.md R118, R119: for lengths that satisfy Kraft, every canonical code fits its length and no code is a prefix of
another symbol's. -/
def Obligations.CanonicalCodesArePrefixFree : Prop :=
  ∀ lens : List Nat, (∀ l ∈ lens, l ≤ 255) → kraft lens = true →
    (canonical lens).length = lens.length ∧
    ∀ s t, s < lens.length → t < lens.length → 0 < lens.getD s 0 → lens.getD s 0 ≤ lens.getD t 0 →
      (canonical lens).getD s 0 < 2 ^ lens.getD s 0 ∧
      (s ≠ t → (canonical lens).getD t 0 / 2 ^ (lens.getD t 0 - lens.getD s 0) ≠ (canonical lens).getD s 0)

/-- 43_huffman.md R121, R128: HuffmanCompress of an input that fits IN ends in DONE with the Huffman container of the input,
header then codes, when that fits OUT, and in CapacityExceeded when it does not. The input may hold bytes the host has
not written, which are free values (log entry 2). -/
def Obligations.HuffmanCompressWritesTheContainer : Prop :=
  ∀ s : State, s.inLen.toNat ≤ s.cfg.inMemBytes →
    ∃ t, exec .huffmanCompress s = .next t ∧ s.keepsOperands t ∧
      (261 + ((codeBits (lensOfBytes (lensFor (inputBytes s))) (inputBytes s)).length + 7) / 8 ≤ s.cfg.outMemBytes →
        t.outputIs (packBits (huffmanBits s.inLen (lensFor (inputBytes s)) (inputBytes s)))) ∧
      (s.cfg.outMemBytes < 261 + ((codeBits (lensOfBytes (lensFor (inputBytes s))) (inputBytes s)).length + 7) / 8 →
        t.failsWith .capacityExceeded)

/-- 43_huffman.md R122, R124, R125, R129: HuffmanDecompress of a container with any code-length table that satisfies Kraft,
whose body is the codes of N bytes, ends in DONE with those bytes. With any bits after the codes of `x`, the first defect
there ends it: a code cut off by the end of the source in UnexpectedEndOfInput (R124), bits that match no code
(30_encoding.md R70, R124), nonzero padding or a trailing byte (R66, R69, 40_bitstream.md R83) in CorruptStream. -/
def Obligations.HuffmanDecompressReadsTheCodes : Prop :=
  ∀ (s : State) (n : Word) (lens : List Byte) (x : List Byte), lens.length = 256 → kraft (lensOfBytes lens) = true →
    (∀ b ∈ x, byteAt lens b.toNat ≠ 0) → s.inLen.toNat ≤ s.cfg.inMemBytes → n.toNat ≤ s.cfg.outMemBytes →
    (x.length = n.toNat → s.hasInput (packBits (huffmanBits n lens x)) →
      ∃ t, exec .huffmanDecompress s = .next t ∧ t.outputIs x ∧ s.keepsOperands t) ∧
    (∀ (rest : List Bool) (k : ErrKind), x.length ≤ n.toNat → n = 0 ∨ (∃ l ∈ lens, l ≠ 0) →
      s.hasInput (packBits (huffmanBits n lens x ++ rest)) → (huffmanBits n lens x ++ rest).length % 8 = 0 →
      codeDefect n.toNat (lensOfBytes lens) x rest = some k →
      ∃ t, exec .huffmanDecompress s = .next t ∧ t.failsWith k ∧ s.keepsOperands t)

/-- 43_huffman.md R127: decoding the Huffman container of a byte sequence gives it back, with either identifier. -/
def Obligations.HuffmanRoundTrip : Prop :=
  ∀ (dest : Dest) (cap cap' : Nat) (ident : Byte) (x bs : List Byte), ident = 0x02 ∨ ident = 0x03 → x.length < 2 ^ 32 →
    hufEncode dest cap ident x = .ok bs → x.length ≤ cap' → hufDecode ident cap' bs = .ok x

/-- 43_huffman.md R122: the header checks of the Huffman decoder, the first failing one deciding the error; any other
header is accepted, one with N = 0 and nonzero lengths too, and the body is decoded from byte 261. -/
def Obligations.HuffmanHeaderChecksInOrder : Prop :=
  ∀ (ident : Byte) (cap : Nat) (src : List Byte), ident = 0x02 ∨ ident = 0x03 →
    (src.length = 0 → hufDecode ident cap src = .error .unexpectedEndOfInput) ∧
    (1 ≤ src.length → byteAt src 0 ≠ ident → hufDecode ident cap src = .error .corruptHeader) ∧
    (1 ≤ src.length → byteAt src 0 = ident → src.length < 261 →
      hufDecode ident cap src = .error .unexpectedEndOfInput) ∧
    (261 ≤ src.length → byteAt src 0 = ident →
      2 ^ 255 < kraftSum (lensOfBytes (headerLens src)) → hufDecode ident cap src = .error .corruptHeader) ∧
    (261 ≤ src.length → byteAt src 0 = ident → 0 < be32 src 1 → (∀ l ∈ headerLens src, l = 0) →
      hufDecode ident cap src = .error .corruptHeader) ∧
    (261 ≤ src.length → byteAt src 0 = ident → kraftSum (lensOfBytes (headerLens src)) ≤ 2 ^ 255 →
      (∃ l ∈ headerLens src, l ≠ 0) → cap < be32 src 1 → hufDecode ident cap src = .error .capacityExceeded) ∧
    (261 ≤ src.length → byteAt src 0 = ident → kraftSum (lensOfBytes (headerLens src)) ≤ 2 ^ 255 →
      be32 src 1 = 0 ∨ (∃ l ∈ headerLens src, l ≠ 0) → be32 src 1 ≤ cap →
      ∃ w : HuffWork, hufDecode ident cap src = hufFinish { src := src, pos := 2088 } w ∧
        w.n = be32 src 1 ∧ w.out = [] ∧ w.lens = lensOfBytes (headerLens src) ∧
        w.code = canonical (lensOfBytes (headerLens src)))

/-- 43_huffman.md R122, R125: a Huffman or HS container header whose lengths satisfy Kraft, with some code if N > 0, and
whose N fits the destination (OUT, or INNER for HS) starts the symbol decoder with an empty output and the canonical
code of its lengths, and changes nothing outside the working state; otherwise the command ends in CorruptHeader, or for
N alone in CapacityExceeded. -/
def Obligations.HuffmanContainersStartTheSymbolDecoder : Prop :=
  ∀ (s : State) (n : Word) (lens : List Byte) (i : Instr) (ident : Byte) (cap : Nat),
    (i = .huffmanContainer n lens ∧ ident = 0x02 ∧ cap = s.cfg.outMemBytes) ∨
      (i = .hsContainer n lens ∧ ident = 0x03 ∧ cap = s.cfg.innerMemBytes) →
    (kraftSum (lensOfBytes lens) ≤ 2 ^ 255 → (n = 0 ∨ ∃ l ∈ lens, l ≠ 0) → n.toNat ≤ cap →
      ∃ w : HuffWork, exec i s = .next { s with work := { s.work with stage := .huffBody ident, huff := w } } ∧
        w.n = n.toNat ∧ w.out = [] ∧ w.lens = lensOfBytes lens ∧ w.code = canonical (lensOfBytes lens)) ∧
    (2 ^ 255 < kraftSum (lensOfBytes lens) ∨ (n ≠ 0 ∧ ∀ l ∈ lens, l = 0) →
      ∃ t, exec i s = .next t ∧ t.failsWith .corruptHeader ∧ s.keepsOperands t) ∧
    (kraftSum (lensOfBytes lens) ≤ 2 ^ 255 → (∃ l ∈ lens, l ≠ 0) → cap < n.toNat →
      ∃ t, exec i s = .next t ∧ t.failsWith .capacityExceeded ∧ s.keepsOperands t)

/-- 43_huffman.md R121 (its corner case; 93_implementation_defined.md G4): a Huffman body is never longer than its input. -/
def Obligations.HuffmanBodyIsNeverLongerThanItsInput : Prop :=
  ∀ x : List Byte, (codeBits (lensOfBytes (lensFor x)) x).length ≤ 8 * x.length

/-! ## HS -/

/-- 44_hybrid.md R131, R132, R136: HSCompress with the parameters of 00_scope.md R7 to R10, a legal configuration and an
input that fits IN ends in DONE with the HS container of the LZSS container of the input; the outer N is the inner length.
The input may hold bytes the host has not written, which are free values (log entry 2). -/
def Obligations.HsCompressWritesTheNestedContainer : Prop :=
  ∀ s : State, s.cfg.Valid → s.inLen.toNat ≤ s.cfg.inMemBytes → s.legalConfig →
    ∀ inner : List Byte,
    inner = packBits (lzssBits s.inLen s.dictSize s.lookaheadSize
      (tokens (inputBytes s) s.dictSize.toNat s.lookaheadSize.toNat)) →
    ∃ t, exec .hsCompress s = .next t ∧
      t.outputIs (packBits (hsBits (BitVec.ofNat 32 inner.length) (lensFor inner) inner)) ∧ s.keepsOperands t

/-- 44_hybrid.md R133, R135, R137: HSDecompress of the HS container of an input ends in DONE with the input. So does one of
any HS container: any code-length table that satisfies Kraft, whose coded bytes are an LZSS container of any legal tokens
that stand for its N bytes, with any D and L from 1 up. -/
def Obligations.HsDecompressGivesTheInputBack : Prop :=
  (∀ (s : State) (input bs : List Byte) (d l : Nat), s.cfg.Valid → input.length ≤ s.cfg.inMemBytes →
    1 ≤ d → d ≤ s.cfg.maxDictSize → 1 ≤ l → l ≤ s.cfg.maxLookaheadSize →
    hsEncode s.cfg input d l = .ok bs → s.hasInput bs → s.inLen.toNat ≤ s.cfg.inMemBytes →
    ∃ t, exec .hsDecompress s = .next t ∧ t.outputIs input ∧ s.keepsOperands t) ∧
  (∀ (s : State) (m n d l : Word) (lens inner out : List Byte) (ts : List Token), lens.length = 256 →
    kraft (lensOfBytes lens) = true → (∀ b ∈ inner, byteAt lens b.toNat ≠ 0) →
    inner = packBits (lzssBits n d l ts) → inner.length = m.toNat → m.toNat ≤ s.cfg.innerMemBytes →
    1 ≤ d.toNat → 1 ≤ l.toNat → n.toNat ≤ s.cfg.outMemBytes →
    expandTokens n.toNat d.toNat l.toNat ts [] = some out → out.length = n.toNat →
    s.hasInput (packBits (hsBits m lens inner)) → s.inLen.toNat ≤ s.cfg.inMemBytes →
    ∃ t, exec .hsDecompress s = .next t ∧ t.outputIs out ∧ s.keepsOperands t)

/-- 44_hybrid.md R135: decoding the HS container of an input gives the input back. -/
def Obligations.HsRoundTrip : Prop :=
  ∀ (c : Params) (input : List Byte) (d l : Nat), c.Valid → input.length ≤ c.inMemBytes →
    1 ≤ d → d ≤ c.maxDictSize → 1 ≤ l → l ≤ c.maxLookaheadSize →
    ∃ bs, hsEncode c input d l = .ok bs ∧ hsDecode c bs = .ok input

/-- 44_hybrid.md R133, R134: an error of the outer Huffman stage ends HSDecompress with that kind before the inner container
is looked at, and otherwise an error of the inner LZSS stage does. -/
def Obligations.HsDecompressReportsTheFailingStage : Prop :=
  ∀ (s : State) (src : List Byte) (k : ErrKind), s.hasInput src → s.inLen.toNat ≤ s.cfg.inMemBytes →
    (hufDecode 0x03 s.cfg.innerMemBytes src = .error k ∨
      ∃ inner, hufDecode 0x03 s.cfg.innerMemBytes src = .ok inner ∧ lzssDecode s.cfg.outMemBytes inner = .error k) →
    ∃ t, exec .hsDecompress s = .next t ∧ t.failsWith k ∧ s.keepsOperands t

/-- 44_hybrid.md R133, R134: HSDecompress of an HS container whose outer body is malformed after the codes of `x` ends in the
error of the first defect there (43_huffman.md R124, R125). When the outer body is well formed and its coded bytes are an
LZSS container malformed after the legal tokens `ts`, it ends in the error of the first defect there (42_lzss.md R103,
R104, R106). -/
def Obligations.HsDecompressRejectsMalformedBodies : Prop :=
  ∀ (s : State) (m : Word) (lens x : List Byte), lens.length = 256 → kraft (lensOfBytes lens) = true →
    (∀ b ∈ x, byteAt lens b.toNat ≠ 0) → s.inLen.toNat ≤ s.cfg.inMemBytes → m.toNat ≤ s.cfg.innerMemBytes →
    (∀ (rest : List Bool) (k : ErrKind), x.length ≤ m.toNat → m = 0 ∨ (∃ l ∈ lens, l ≠ 0) →
      s.hasInput (packBits (hsBits m lens x ++ rest)) → (hsBits m lens x ++ rest).length % 8 = 0 →
      codeDefect m.toNat (lensOfBytes lens) x rest = some k →
      ∃ t, exec .hsDecompress s = .next t ∧ t.failsWith k ∧ s.keepsOperands t) ∧
    (∀ (n d l : Word) (ts : List Token) (out : List Byte) (rest : List Bool) (k : ErrKind),
      x.length = m.toNat → s.hasInput (packBits (hsBits m lens x)) →
      x = packBits (lzssBits n d l ts ++ rest) → (lzssBits n d l ts ++ rest).length % 8 = 0 →
      1 ≤ d.toNat → 1 ≤ l.toNat → n.toNat ≤ s.cfg.outMemBytes →
      expandTokens n.toNat d.toNat l.toNat ts [] = some out →
      tokenDefect n.toNat d.toNat l.toNat out rest = some k →
      ∃ t, exec .hsDecompress s = .next t ∧ t.failsWith k ∧ s.keepsOperands t)

/-! ## Errors and outcomes -/

/-- 60_exceptions.md R139: the start checks. A reserved command ends in InvalidCommand, whatever IN_LEN is; each of the six
commands with an IN_LEN above IN_MEM_BYTES ends in CapacityExceeded, whatever DICT_SIZE and LOOKAHEAD_SIZE are. -/
def Obligations.StartChecksComeFirst : Prop :=
  (∀ (s : State) (op : BitVec 4), reservedOp op = true →
    ∃ t, exec (.reservedCommand op) s = .next t ∧ t.failsWith .invalidCommand ∧ s.keepsOperands t) ∧
  ∀ (s : State) (i : Instr), s.cfg.inMemBytes < s.inLen.toNat →
    i = .lzssCompress ∨ i = .lzssDecompress ∨ i = .huffmanCompress ∨ i = .huffmanDecompress ∨ i = .hsCompress ∨
      i = .hsDecompress →
    ∃ t, exec i s = .next t ∧ t.failsWith .capacityExceeded ∧ s.keepsOperands t

/-- 42_lzss.md R95: LZSSCompress and HSCompress with a DICT_SIZE or LOOKAHEAD_SIZE of 0 or above its maximum end in
InvalidConfiguration, once the start checks have passed, and with legal ones, 1 and 2 included, they do not. -/
def Obligations.IllegalConfigurationIsRejected : Prop :=
  ∀ (s : State) (i : Instr), s.inLen.toNat ≤ s.cfg.inMemBytes → i = .lzssCompress ∨ i = .hsCompress →
    (¬ s.legalConfig → ∃ t, exec i s = .next t ∧ t.failsWith .invalidConfiguration ∧ s.keepsOperands t) ∧
    (s.legalConfig → ∃ t, exec i s = .next t ∧ t.err ≠ ErrKind.code .invalidConfiguration)

/-- 30_encoding.md R68: a decompress command whose first input byte is not the identifier it expects ends in CorruptStream
(LZSS) or CorruptHeader (Huffman, HS), and one whose inner container does not start with 0x01 in CorruptStream. -/
def Obligations.WrongContainerIdentifierIsRejected : Prop :=
  ∀ (s : State) (b : Byte), 1 ≤ s.inLen.toNat → s.inLen.toNat ≤ s.cfg.inMemBytes → Memory.read s.inMem 0 = some b →
    (b ≠ 0x01 → ∃ t, exec .lzssDecompress s = .next t ∧ t.failsWith .corruptStream ∧ s.keepsOperands t) ∧
    (b ≠ 0x02 → ∃ t, exec .huffmanDecompress s = .next t ∧ t.failsWith .corruptHeader ∧ s.keepsOperands t) ∧
    (b ≠ 0x03 → ∃ t, exec .hsDecompress s = .next t ∧ t.failsWith .corruptHeader ∧ s.keepsOperands t) ∧
    (∀ src inner : List Byte, s.hasInput src → hufDecode 0x03 s.cfg.innerMemBytes src = .ok inner →
      1 ≤ inner.length → byteAt inner 0 ≠ 0x01 →
      ∃ t, exec .hsDecompress s = .next t ∧ t.failsWith .corruptStream ∧ s.keepsOperands t)

/-- 10_state.md R31 and 60_exceptions.md R143, the frame of every command: it ends in DONE with an output and ERR = 0, or
in ERROR with the code of its kind, OUT_LEN = 0 and no byte of OUT specified; CMD, the operand registers and every byte
of IN are unchanged. -/
def Obligations.CommandsEndInOneOutcomeAndKeepTheirOperands : Prop :=
  ∀ (i : Instr) (s : State), commandOp i ≠ none →
    ∃ t, exec i s = .next t ∧ s.keepsOperands t ∧ ((∃ out, t.outputIs out) ∨ ∃ k, t.failsWith k)

/-- 00_scope.md R16 and 10_state.md R34: a command's outcome is a function of its opcode, its input and the operand
registers alone: not of the hidden state, INNER, OUT, or an earlier outcome. -/
def Obligations.OutcomeDependsOnTheOperandsAlone : Prop :=
  ∀ (i : Instr) (s s' t t' : State) (input : List Byte), commandOp i ≠ none →
    s.hasInput input → s'.hasInput input → s.dictSize = s'.dictSize → s.lookaheadSize = s'.lookaheadSize →
    s.cfg = s'.cfg → exec i s = .next t → exec i s' = .next t' →
    t.run = t'.run ∧ t.err = t'.err ∧ t.outLen = t'.outLen ∧
    ∀ a : Nat, Memory.read t.outMem a = Memory.read t'.outMem a

/-- 60_exceptions.md R141 and 00_scope.md R10 (doc00 §7): with the parameters of R7 to R10, no compress command with a
well-formed configuration fails. -/
def Obligations.CompressionNeverFails : Prop :=
  ∀ (s : State) (i : Instr), s.cfg.Valid → s.inLen.toNat ≤ s.cfg.inMemBytes →
    i = .huffmanCompress ∨ ((i = .lzssCompress ∨ i = .hsCompress) ∧ s.legalConfig) →
    ∃ t, exec i s = .next t ∧ t.run = .done ∧ t.err = 0

/-! ## Invariant and refinement -/

/-- The invariant holds after reset, for every choice of the OPEN parameters (10_state.md R36, R37). -/
def Obligations.InvariantHoldsAtReset : Prop := ∀ c : Params, (State.resetOf c).Inv

/-- Every step keeps the invariant: canonical memories within their capacities, ERR nonzero exactly in ERROR (10_state.md
R20), OUT_LEN and OUT as R24, R28 and R31 say, no decoder past its declared length (60_exceptions.md R141). -/
def Obligations.EveryStepKeepsTheInvariant : Prop := ∀ s t : State, s.Inv → step s = .next t → t.Inv

/-- No step changes the OPEN parameters (00_scope.md R6). -/
def Obligations.NoStepChangesTheParameters : Prop := ∀ s t : State, step s = .next t → t.cfg = s.cfg

/-- 10_state.md R31, R34: a decoder run stage by stage, container, tokens or symbols and end check each in its own turn
of the engine, ends in exactly the state that the one completion step with its stage function gives. It ties the
meanings of the container and token instructions to the decompress commands. -/
def Obligations.StagedDecoderRefinesTheCompletionStep : Prop :=
  ∀ (s : State) (ident : Byte), ident = 0x01 ∨ ident = 0x02 ∨ ident = 0x03 → s.run = .busy →
    s.work.stage = .header ident →
    ∃ k, engineTurns k s = complete (decoderOf s.cfg ident s.work.reader.src) s
end

