-- ==== Sys2Proof/Laws/State.lean ====
section
/-! SUPPORT. One lemma for each field of State after each shared update, true by unfolding, so that no later proof unfolds a
record update. -/

namespace Sys2Proof.Machine

/-! ## startCommand -/

@[simp] theorem startCommand_cmdOp (op : BitVec 4) (s : State) : (startCommand op s).cmdOp = op := rfl
@[simp] theorem startCommand_run (op : BitVec 4) (s : State) : (startCommand op s).run = .busy := rfl
@[simp] theorem startCommand_err (op : BitVec 4) (s : State) : (startCommand op s).err = 0 := rfl
@[simp] theorem startCommand_inLen (op : BitVec 4) (s : State) : (startCommand op s).inLen = s.inLen := rfl
@[simp] theorem startCommand_dictSize (op : BitVec 4) (s : State) : (startCommand op s).dictSize = s.dictSize := rfl
@[simp] theorem startCommand_lookaheadSize (op : BitVec 4) (s : State) :
    (startCommand op s).lookaheadSize = s.lookaheadSize := rfl
@[simp] theorem startCommand_outLen (op : BitVec 4) (s : State) : (startCommand op s).outLen = 0 := rfl
@[simp] theorem startCommand_inMem (op : BitVec 4) (s : State) : (startCommand op s).inMem = s.inMem := rfl
@[simp] theorem startCommand_outMem (op : BitVec 4) (s : State) : (startCommand op s).outMem = [] := rfl
@[simp] theorem startCommand_innerMem (op : BitVec 4) (s : State) : (startCommand op s).innerMem = [] := rfl
@[simp] theorem startCommand_work (op : BitVec 4) (s : State) : (startCommand op s).work = Work.clear := rfl
@[simp] theorem startCommand_cfg (op : BitVec 4) (s : State) : (startCommand op s).cfg = s.cfg := rfl
@[simp] theorem startCommand_draws (op : BitVec 4) (s : State) : (startCommand op s).draws = s.draws := rfl
@[simp] theorem startCommand_moves (op : BitVec 4) (s : State) : (startCommand op s).moves = s.moves := rfl
@[simp] theorem startCommand_responses (op : BitVec 4) (s : State) :
    (startCommand op s).responses = s.responses := rfl

/-! ## completeDone -/

@[simp] theorem completeDone_cmdOp (out : List Byte) (s : State) : (completeDone out s).cmdOp = s.cmdOp := rfl
@[simp] theorem completeDone_run (out : List Byte) (s : State) : (completeDone out s).run = .done := rfl
@[simp] theorem completeDone_err (out : List Byte) (s : State) : (completeDone out s).err = 0 := rfl
@[simp] theorem completeDone_inLen (out : List Byte) (s : State) : (completeDone out s).inLen = s.inLen := rfl
@[simp] theorem completeDone_dictSize (out : List Byte) (s : State) :
    (completeDone out s).dictSize = s.dictSize := rfl
@[simp] theorem completeDone_lookaheadSize (out : List Byte) (s : State) :
    (completeDone out s).lookaheadSize = s.lookaheadSize := rfl
@[simp] theorem completeDone_outLen (out : List Byte) (s : State) :
    (completeDone out s).outLen = lengthWord out.length := rfl
@[simp] theorem completeDone_inMem (out : List Byte) (s : State) : (completeDone out s).inMem = s.inMem := rfl
@[simp] theorem completeDone_outMem (out : List Byte) (s : State) :
    (completeDone out s).outMem = Memory.ofBytes out := rfl
@[simp] theorem completeDone_innerMem (out : List Byte) (s : State) : (completeDone out s).innerMem = [] := rfl
@[simp] theorem completeDone_work (out : List Byte) (s : State) : (completeDone out s).work = Work.clear := rfl
@[simp] theorem completeDone_cfg (out : List Byte) (s : State) : (completeDone out s).cfg = s.cfg := rfl
@[simp] theorem completeDone_draws (out : List Byte) (s : State) :
    (completeDone out s).draws = s.draws + s.inLen.toNat := rfl
@[simp] theorem completeDone_moves (out : List Byte) (s : State) : (completeDone out s).moves = s.moves := rfl
@[simp] theorem completeDone_responses (out : List Byte) (s : State) :
    (completeDone out s).responses = s.responses := rfl

/-! ## raiseError -/

@[simp] theorem raiseError_cmdOp (k : ErrKind) (s : State) : (raiseError k s).cmdOp = s.cmdOp := rfl
@[simp] theorem raiseError_run (k : ErrKind) (s : State) : (raiseError k s).run = .error := rfl
@[simp] theorem raiseError_err (k : ErrKind) (s : State) : (raiseError k s).err = k.code := rfl
@[simp] theorem raiseError_inLen (k : ErrKind) (s : State) : (raiseError k s).inLen = s.inLen := rfl
@[simp] theorem raiseError_dictSize (k : ErrKind) (s : State) : (raiseError k s).dictSize = s.dictSize := rfl
@[simp] theorem raiseError_lookaheadSize (k : ErrKind) (s : State) :
    (raiseError k s).lookaheadSize = s.lookaheadSize := rfl
@[simp] theorem raiseError_outLen (k : ErrKind) (s : State) : (raiseError k s).outLen = 0 := rfl
@[simp] theorem raiseError_inMem (k : ErrKind) (s : State) : (raiseError k s).inMem = s.inMem := rfl
@[simp] theorem raiseError_outMem (k : ErrKind) (s : State) : (raiseError k s).outMem = [] := rfl
@[simp] theorem raiseError_innerMem (k : ErrKind) (s : State) : (raiseError k s).innerMem = [] := rfl
@[simp] theorem raiseError_work (k : ErrKind) (s : State) : (raiseError k s).work = Work.clear := rfl
@[simp] theorem raiseError_cfg (k : ErrKind) (s : State) : (raiseError k s).cfg = s.cfg := rfl
@[simp] theorem raiseError_draws (k : ErrKind) (s : State) : (raiseError k s).draws = s.draws + s.inLen.toNat := rfl
@[simp] theorem raiseError_moves (k : ErrKind) (s : State) : (raiseError k s).moves = s.moves := rfl
@[simp] theorem raiseError_responses (k : ErrKind) (s : State) : (raiseError k s).responses = s.responses := rfl

/-! ## resetEvent -/

@[simp] theorem resetEvent_cmdOp (s : State) : (resetEvent s).cmdOp = 0 := rfl
@[simp] theorem resetEvent_run (s : State) : (resetEvent s).run = .idle := rfl
@[simp] theorem resetEvent_err (s : State) : (resetEvent s).err = 0 := rfl
@[simp] theorem resetEvent_inLen (s : State) : (resetEvent s).inLen = 0 := rfl
@[simp] theorem resetEvent_dictSize (s : State) : (resetEvent s).dictSize = 0 := rfl
@[simp] theorem resetEvent_lookaheadSize (s : State) : (resetEvent s).lookaheadSize = 0 := rfl
@[simp] theorem resetEvent_outLen (s : State) : (resetEvent s).outLen = 0 := rfl
@[simp] theorem resetEvent_inMem (s : State) : (resetEvent s).inMem = [] := rfl
@[simp] theorem resetEvent_outMem (s : State) : (resetEvent s).outMem = [] := rfl
@[simp] theorem resetEvent_innerMem (s : State) : (resetEvent s).innerMem = [] := rfl
@[simp] theorem resetEvent_work (s : State) : (resetEvent s).work = Work.clear := rfl
@[simp] theorem resetEvent_cfg (s : State) : (resetEvent s).cfg = s.cfg := rfl
@[simp] theorem resetEvent_draws (s : State) : (resetEvent s).draws = s.draws := rfl
@[simp] theorem resetEvent_moves (s : State) : (resetEvent s).moves = s.moves := rfl
@[simp] theorem resetEvent_responses (s : State) : (resetEvent s).responses = s.responses := rfl

/-! ## respond -/

@[simp] theorem respond_cmdOp (r : Response) (s : State) : (respond r s).cmdOp = s.cmdOp := rfl
@[simp] theorem respond_run (r : Response) (s : State) : (respond r s).run = s.run := rfl
@[simp] theorem respond_err (r : Response) (s : State) : (respond r s).err = s.err := rfl
@[simp] theorem respond_inLen (r : Response) (s : State) : (respond r s).inLen = s.inLen := rfl
@[simp] theorem respond_dictSize (r : Response) (s : State) : (respond r s).dictSize = s.dictSize := rfl
@[simp] theorem respond_lookaheadSize (r : Response) (s : State) :
    (respond r s).lookaheadSize = s.lookaheadSize := rfl
@[simp] theorem respond_outLen (r : Response) (s : State) : (respond r s).outLen = s.outLen := rfl
@[simp] theorem respond_inMem (r : Response) (s : State) : (respond r s).inMem = s.inMem := rfl
@[simp] theorem respond_outMem (r : Response) (s : State) : (respond r s).outMem = s.outMem := rfl
@[simp] theorem respond_innerMem (r : Response) (s : State) : (respond r s).innerMem = s.innerMem := rfl
@[simp] theorem respond_work (r : Response) (s : State) : (respond r s).work = s.work := rfl
@[simp] theorem respond_cfg (r : Response) (s : State) : (respond r s).cfg = s.cfg := rfl
@[simp] theorem respond_draws (r : Response) (s : State) : (respond r s).draws = s.draws := rfl
@[simp] theorem respond_moves (r : Response) (s : State) : (respond r s).moves = s.moves := rfl
@[simp] theorem respond_responses (r : Response) (s : State) : (respond r s).responses = s.responses ++ [r] := rfl

/-! ## setReader -/

@[simp] theorem setReader_cmdOp (rd : Reader) (s : State) : (setReader rd s).cmdOp = s.cmdOp := rfl
@[simp] theorem setReader_run (rd : Reader) (s : State) : (setReader rd s).run = s.run := rfl
@[simp] theorem setReader_err (rd : Reader) (s : State) : (setReader rd s).err = s.err := rfl
@[simp] theorem setReader_inLen (rd : Reader) (s : State) : (setReader rd s).inLen = s.inLen := rfl
@[simp] theorem setReader_dictSize (rd : Reader) (s : State) : (setReader rd s).dictSize = s.dictSize := rfl
@[simp] theorem setReader_lookaheadSize (rd : Reader) (s : State) :
    (setReader rd s).lookaheadSize = s.lookaheadSize := rfl
@[simp] theorem setReader_outLen (rd : Reader) (s : State) : (setReader rd s).outLen = s.outLen := rfl
@[simp] theorem setReader_inMem (rd : Reader) (s : State) : (setReader rd s).inMem = s.inMem := rfl
@[simp] theorem setReader_outMem (rd : Reader) (s : State) : (setReader rd s).outMem = s.outMem := rfl
@[simp] theorem setReader_innerMem (rd : Reader) (s : State) : (setReader rd s).innerMem = s.innerMem := rfl
@[simp] theorem setReader_work (rd : Reader) (s : State) : (setReader rd s).work = { s.work with reader := rd } := rfl
@[simp] theorem setReader_cfg (rd : Reader) (s : State) : (setReader rd s).cfg = s.cfg := rfl
@[simp] theorem setReader_draws (rd : Reader) (s : State) : (setReader rd s).draws = s.draws := rfl
@[simp] theorem setReader_moves (rd : Reader) (s : State) : (setReader rd s).moves = s.moves := rfl
@[simp] theorem setReader_responses (rd : Reader) (s : State) : (setReader rd s).responses = s.responses := rfl

end Sys2Proof.Machine
end

