-- ==== Sys2Proof/Laws/Memory.lean ====
section
/-! SUPPORT. The laws of a byte memory: read after write, what a write leaves alone, and that every operation keeps the
canonical form. -/

namespace Sys2Proof.Machine

@[simp] theorem Memory.read_nil (a : Nat) : Memory.read [] a = none := rfl

theorem Memory.read_cons (b : Nat) (v : Byte) (m : Memory) (a : Nat) :
    Memory.read ((b, v) :: m) a = if a = b then some v else Memory.read m a := by
  cases h : Nat.beq a b
  · simp [Memory.read, h, Nat.ne_of_beq_eq_false h]
  · simp [Memory.read, Nat.eq_of_beq_eq_true h]

theorem Memory.read_write_same (m : Memory) (a : Nat) (v : Byte) : Memory.read (Memory.write m a v) a = some v := by
  induction m with
  | nil => simp [Memory.write, Memory.read_cons]
  | cons c m ih =>
    obtain ⟨b, w⟩ := c
    simp only [Memory.write]
    split
    · simp [Memory.read_cons]
    · split
      · simp [Memory.read_cons]
      · simp only [Memory.read_cons, ih]; split
        · contradiction
        · rfl

theorem Memory.read_write_other (m : Memory) (a x : Nat) (v : Byte) (h : x ≠ a) :
    Memory.read (Memory.write m a v) x = Memory.read m x := by
  induction m with
  | nil => simp [Memory.write, Memory.read_cons, h]
  | cons c m ih =>
    obtain ⟨b, w⟩ := c
    simp only [Memory.write]
    split
    · simp [Memory.read_cons, h]
    · split
      · subst_vars; simp [Memory.read_cons, h]
      · simp only [Memory.read_cons, ih]

/-- What a read finds after a write. -/
theorem Memory.read_write (m : Memory) (a x : Nat) (v : Byte) :
    Memory.read (Memory.write m a v) x = if x = a then some v else Memory.read m x := by
  split
  · subst_vars; exact Memory.read_write_same m _ v
  · exact Memory.read_write_other m a x v ‹_›

/-- The tail of a memory in canonical form is in canonical form, and its addresses are above the first. -/
theorem Memory.wf_cons (a : Nat) (v : Byte) (m : Memory) :
    Memory.wf ((a, v) :: m) = true ↔ Memory.wf m = true ∧ ∀ c ∈ m, a < c.1 := by
  induction m generalizing a v with
  | nil => simp [Memory.wf]
  | cons c m ih =>
    obtain ⟨b, w⟩ := c
    simp only [Memory.wf, Bool.and_eq_true, decide_eq_true_eq, List.mem_cons, forall_eq_or_imp]
    constructor
    · rintro ⟨h1, h2⟩
      exact ⟨h2, h1, fun c hc => lt_trans h1 (((ih b w).1 h2).2 c hc)⟩
    · rintro ⟨h2, h1, -⟩
      exact ⟨h1, h2⟩

theorem Memory.mem_write (m : Memory) (a : Nat) (v : Byte) (c : Host.Cell) (h : c ∈ Memory.write m a v) :
    c = (a, v) ∨ c ∈ m := by
  induction m with
  | nil => simpa [Memory.write] using h
  | cons d m ih =>
    obtain ⟨b, w⟩ := d
    simp only [Memory.write] at h
    split at h
    · simpa using h
    · split at h
      · simp only [List.mem_cons] at h ⊢; tauto
      · simp only [List.mem_cons] at h ⊢
        rcases h with h | h
        · tauto
        · rcases ih h with h | h <;> tauto

/-- A write keeps the canonical form. -/
theorem Memory.write_wf (m : Memory) (a : Nat) (v : Byte) (h : Memory.wf m = true) :
    Memory.wf (Memory.write m a v) = true := by
  induction m with
  | nil => simp [Memory.write, Memory.wf]
  | cons c m ih =>
    obtain ⟨b, w⟩ := c
    have hc := (Memory.wf_cons b w m).1 h
    simp only [Memory.write]
    split
    · simpa [Memory.wf, h]
    · split
      · subst_vars; exact (Memory.wf_cons _ _ _).2 hc
      · refine (Memory.wf_cons _ _ _).2 ⟨ih hc.1, fun c hm => ?_⟩
        rcases Memory.mem_write m a v c hm with rfl | hm
        · simp only; omega
        · exact hc.2 c hm

theorem Memory.below_iff (m : Memory) (cap : Nat) : Memory.below m cap = true ↔ ∀ c ∈ m, c.1 < cap := by
  simp [Memory.below]

/-- A write inside the capacity keeps every address below it. -/
theorem Memory.write_below (m : Memory) (a cap : Nat) (v : Byte) (ha : a < cap) (h : Memory.below m cap = true) :
    Memory.below (Memory.write m a v) cap = true := by
  rw [Memory.below_iff] at h ⊢
  intro c hc
  rcases Memory.mem_write m a v c hc with rfl | hc
  · exact ha
  · exact h c hc

theorem Memory.mem_ofBytesAt (bs : List Byte) (a : Nat) (c : Host.Cell) (h : c ∈ Memory.ofBytesAt a bs) :
    a ≤ c.1 ∧ c.1 < a + bs.length := by
  induction bs generalizing a with
  | nil => simp [Memory.ofBytesAt] at h
  | cons b bs ih =>
    simp only [Memory.ofBytesAt, List.mem_cons] at h
    rcases h with rfl | h
    · simp
    · have := ih (a + 1) h
      simp only [List.length_cons]; omega

/-- A memory made of bytes is in canonical form. -/
theorem Memory.ofBytesAt_wf (bs : List Byte) (a : Nat) : Memory.wf (Memory.ofBytesAt a bs) = true := by
  induction bs generalizing a with
  | nil => rfl
  | cons b bs ih =>
    refine (Memory.wf_cons _ _ _).2 ⟨ih (a + 1), fun c hc => ?_⟩
    have := Memory.mem_ofBytesAt bs (a + 1) c hc
    omega

theorem Memory.ofBytes_wf (bs : List Byte) : Memory.wf (Memory.ofBytes bs) = true := Memory.ofBytesAt_wf bs 0

theorem Memory.ofBytes_below (bs : List Byte) (cap : Nat) (h : bs.length ≤ cap) :
    Memory.below (Memory.ofBytes bs) cap = true := by
  rw [Memory.below_iff]
  intro c hc
  have := Memory.mem_ofBytesAt bs 0 c hc
  omega

theorem Memory.read_ofBytesAt (bs : List Byte) (a x : Nat) :
    Memory.read (Memory.ofBytesAt a bs) x = if a ≤ x then bs[x - a]? else none := by
  induction bs generalizing a with
  | nil => simp [Memory.ofBytesAt]
  | cons b bs ih =>
    simp only [Memory.ofBytesAt, Memory.read_cons, ih]
    split
    · subst_vars; simp
    · split
      · obtain ⟨k, hk⟩ : ∃ k, x - a = k + 1 := ⟨x - a - 1, by omega⟩
        rw [if_pos (by omega), hk, List.getElem?_cons_succ, show x - (a + 1) = k by omega]
      · rw [if_neg (by omega)]

/-- A memory made of bytes reads as those bytes, and no other byte of it is known. -/
theorem Memory.read_ofBytes (bs : List Byte) (x : Nat) : Memory.read (Memory.ofBytes bs) x = bs[x]? := by
  simp [Memory.ofBytes, Memory.read_ofBytesAt]

/-- A read of `n` bytes gives `n` bytes. -/
@[simp] theorem Memory.bytes_length (m : Memory) (k a n : Nat) : (Memory.bytes m k a n).length = n := by
  induction n generalizing k a with
  | zero => rfl
  | succ n ih => simp [Memory.bytes, ih]

/-- A read of bytes that are all known is those bytes, whatever the free values are. -/
theorem Memory.bytes_known (m : Memory) (k a n : Nat) (bs : List Byte) (hn : bs.length = n)
    (h : ∀ i < n, Memory.read m (a + i) = some (byteAt bs i)) : Memory.bytes m k a n = bs := by
  induction n generalizing k a bs with
  | zero => simpa [Memory.bytes] using (List.length_eq_zero_iff.1 hn).symm
  | succ n ih =>
    cases bs with
    | nil => simp at hn
    | cons b bs =>
      have h0 := h 0 (by omega)
      simp only [byteAt, List.getD_cons_zero, Nat.add_zero] at h0
      simp only [Memory.bytes, h0, Option.getD_some, List.cons.injEq, true_and]
      refine ih (k + 1) (a + 1) bs (by simpa using hn) fun i hi => ?_
      have := h (i + 1) (by omega)
      simpa [byteAt, Nat.add_assoc, Nat.add_comm 1 i] using this

/-- The memory of the reset state is in canonical form. -/
theorem reset_memories_wf :
    Memory.wf State.reset.inMem = true ∧ Memory.wf State.reset.outMem = true ∧ Memory.wf State.reset.innerMem = true :=
  ⟨rfl, rfl, rfl⟩

end Sys2Proof.Machine
end

