-- ==== Sys2Proof/Laws/Ops.lean ====
section
/-! SUPPORT. For each shared operation one lemma that says once everything it can do: a command's outcome, a host access, an
engine turn and a step. -/

namespace Sys2Proof.Machine

/-! ## A command's outcome -/

@[simp] theorem complete_ok (out : List Byte) (s : State) : complete (.ok out) s = completeDone out s := rfl
@[simp] theorem complete_error (k : ErrKind) (s : State) : complete (.error k) s = raiseError k s := rfl

theorem completeDone_outputIs (out : List Byte) (s : State) : (completeDone out s).outputIs out := by
  refine ⟨rfl, rfl, fun h => ?_, fun a => Memory.read_ofBytes out a⟩
  have h2 : lengthWord out.length = BitVec.ofNat 32 out.length := if_pos h
  rw [completeDone_outLen, h2, BitVec.toNat_ofNat, Nat.mod_eq_of_lt h]

theorem raiseError_failsWith (k : ErrKind) (s : State) : (raiseError k s).failsWith k :=
  ⟨rfl, rfl, rfl, fun _ => rfl⟩

theorem completeDone_keepsOperands (out : List Byte) (s : State) : s.keepsOperands (completeDone out s) :=
  ⟨rfl, rfl, rfl, rfl, fun _ => rfl, rfl, rfl, rfl⟩

theorem raiseError_keepsOperands (k : ErrKind) (s : State) : s.keepsOperands (raiseError k s) :=
  ⟨rfl, rfl, rfl, rfl, fun _ => rfl, rfl, rfl, rfl⟩

/-- The codes of the error kinds are 1 to 6 (60_exceptions.md R138). -/
theorem ErrKind.code_range (k : ErrKind) : 1 ≤ k.code.toNat ∧ k.code.toNat ≤ 6 := by cases k <;> decide

/-! ## The operands -/

@[simp] theorem inputBytes_length (s : State) : (inputBytes s).length = s.inLen.toNat := by simp [inputBytes]

/-- An input whose bytes the host has all written is those bytes, whatever the free values are. -/
theorem inputBytes_of_hasInput (s : State) (bs : List Byte) (h : s.hasInput bs) : inputBytes s = bs :=
  Memory.bytes_known s.inMem s.draws 0 s.inLen.toNat bs h.1.symm fun i hi => by
    have := h.2 i (by omega)
    simpa using this

/-- The start checks of a command that is not reserved. -/
theorem startChecks_of_not_reserved (c : Params) (op : BitVec 4) (n : Nat) (h : reservedOp op = false) :
    startChecks c op n = if c.inMemBytes < n then .error .capacityExceeded else .ok () := by
  simp [startChecks, h]

theorem withInput_of_fits (op : BitVec 4) (s : State) (stages : List Byte → Except ErrKind (List Byte))
    (h : reservedOp op = false) (hn : s.inLen.toNat ≤ s.cfg.inMemBytes) :
    withInput op s stages = stages (inputBytes s) := by
  simp [withInput, startChecks_of_not_reserved _ _ _ h, Nat.not_lt.2 hn]

theorem withInput_of_too_long (op : BitVec 4) (s : State) (stages : List Byte → Except ErrKind (List Byte))
    (h : reservedOp op = false) (hn : s.cfg.inMemBytes < s.inLen.toNat) :
    withInput op s stages = .error .capacityExceeded := by
  simp [withInput, startChecks_of_not_reserved _ _ _ h, hn]

/-- CheckLzssConfig passes exactly the legal configurations (42_lzss.md R95). -/
theorem checkLzssConfig_ok_iff (s : State) :
    checkLzssConfig s.cfg s.dictSize.toNat s.lookaheadSize.toNat = .ok () ↔ s.legalConfig := by
  unfold checkLzssConfig
  split
  · simp only [reduceCtorEq, false_iff]; omega
  · split
    · simp only [reduceCtorEq, false_iff]; omega
    · simp only [true_iff]; omega

theorem checkLzssConfig_error (c : Params) (d l : Nat) (k : ErrKind) (h : checkLzssConfig c d l = .error k) :
    k = .invalidConfiguration := by
  unfold checkLzssConfig at h
  split at h
  · cases h; rfl
  · split at h
    · cases h; rfl
    · cases h

/-! ## Host accesses -/

/-- Everything a host access can do: nothing, start a command, write an operand register or a byte of IN while no command
runs, or record an answer. -/
theorem hostStep_cases (a : HostAccess) (s t : State) (h : hostStep a s = .next t) :
    t = s ∨
    (s.run ≠ .busy ∧ ∃ v : Word, a = .regWrite 32 0x00 v ∧ t = startCommand (v.extractLsb' 0 4) s) ∨
    (s.run ≠ .busy ∧ ∃ v : Word, t = { s with inLen := v } ∨ t = { s with dictSize := v } ∨
      t = { s with lookaheadSize := v }) ∨
    (s.run ≠ .busy ∧ ∃ x b, x < s.cfg.inMemBytes ∧ a = .inWrite x b ∧ t = { s with inMem := s.inMem.write x b }) ∨
    (∃ r, t = respond r s) ∨ t = respondFree s := by
  cases a with
  | regWrite bits off v =>
    simp only [hostStep] at h
    split at h
    · rename_i r hr
      injection h with h
      subst h
      unfold writeReg
      split
      · exact .inl rfl
      · rename_i hb
        cases r
        case cmd =>
          refine .inr (.inl ⟨hb, v, ?_, rfl⟩)
          unfold regOfAccess at hr
          split at hr
          · subst_vars; split at hr <;> simp_all
          · cases hr
        case inLen => exact .inr (.inr (.inl ⟨hb, v, .inl rfl⟩))
        case dictSize => exact .inr (.inr (.inl ⟨hb, v, .inr (.inl rfl)⟩))
        case lookaheadSize => exact .inr (.inr (.inl ⟨hb, v, .inr (.inr rfl)⟩))
        all_goals exact .inl rfl
    · cases h
  | regRead bits off =>
    simp only [hostStep] at h
    split at h
    · injection h with h
      exact .inr (.inr (.inr (.inr (.inl ⟨_, h.symm⟩))))
    · cases h
  | inWrite x b =>
    simp only [hostStep] at h
    split at h
    · injection h with h
      subst h
      unfold writeIn
      split
      · exact .inl rfl
      · exact .inr (.inr (.inr (.inl ⟨‹_›, x, b, ‹_›, rfl, rfl⟩)))
    · cases h
  | inRead x =>
    simp only [hostStep] at h
    split at h
    · injection h with h
      subst h
      unfold respondByte
      split
      · exact .inr (.inr (.inr (.inr (.inl ⟨_, rfl⟩))))
      · exact .inr (.inr (.inr (.inr (.inr rfl))))
    · cases h
  | outWrite x b =>
    simp only [hostStep] at h
    split at h
    · injection h with h; exact .inl h.symm
    · cases h
  | outRead x =>
    simp only [hostStep] at h
    split at h
    · injection h with h
      subst h
      unfold respondByte
      split
      · exact .inr (.inr (.inr (.inr (.inl ⟨_, rfl⟩))))
      · exact .inr (.inr (.inr (.inr (.inr rfl))))
    · cases h

/-! ## Steps -/

/-- Everything a step can do, by whose move it is. -/
theorem step_cases (s t : State) (h : step s = .next t) :
    (s.run ≠ .busy ∧ s.moves = [] ∧ t = s) ∨
    (∃ rest, s.run ≠ .busy ∧ s.moves = .engine :: rest ∧ t = { s with moves := rest }) ∨
    (s.run = .busy ∧ (s.moves = [] ∨ ∃ rest, s.moves = .engine :: rest) ∧
      engineTurn { s with moves := s.moves.tail } = .next t) ∨
    (∃ a rest, s.moves = .host a :: rest ∧ hostStep a { s with moves := rest } = .next t) ∨
    (∃ rest, s.moves = .reset :: rest ∧ t = resetEvent { s with moves := rest }) := by
  unfold step at h
  split at h
  · rename_i hm
    unfold engineStep at h
    split at h
    · refine .inr (.inr (.inl ⟨‹_›, .inl hm, ?_⟩))
      have htail : s.moves.tail = s.moves := by rw [hm]; rfl
      rw [htail]; exact h
    · injection h with h; exact .inl ⟨‹_›, hm, h.symm⟩
  · rename_i a rest hm
    exact .inr (.inr (.inr (.inl ⟨a, rest, hm, h⟩)))
  · rename_i rest hm
    unfold engineStep at h
    split at h
    · refine .inr (.inr (.inl ⟨‹_›, .inr ⟨rest, hm⟩, ?_⟩))
      rw [hm]; exact h
    · injection h with h; exact .inr (.inl ⟨rest, ‹_›, hm, h.symm⟩)
  · rename_i rest hm
    injection h with h
    exact .inr (.inr (.inr (.inr ⟨rest, hm, h.symm⟩)))

/-- Everything an engine turn can do, by the decoder stage in progress. -/
theorem engineTurn_cases (s : State) :
    (s.work.stage = .command ∧ engineTurn s = exec (decodeCommand (cmdWord s)) s) ∨
    (∃ ident, s.work.stage = .header ident ∧
      ((∃ i rd, decode (.container ident) s.work.reader = .ok (i, rd) ∧ engineTurn s = exec i (setReader rd s)) ∨
       (∃ e, engineTurn s = .next (raiseError (headerError ident e) s)))) ∨
    (s.work.stage = .lzssBody ∧
      ((s.work.lzss.out.length < s.work.lzss.n ∧ ∃ i rd,
          decode (.token (clog2 s.work.lzss.d) (clog2 s.work.lzss.l)) s.work.reader = .ok (i, rd) ∧
          engineTurn s = exec i (setReader rd s)) ∨
       (s.work.lzss.out.length < s.work.lzss.n ∧ engineTurn s = .next (raiseError .unexpectedEndOfInput s)) ∨
       (s.work.lzss.n ≤ s.work.lzss.out.length ∧ engineTurn s = .next (endBody s.work.lzss.out s)))) ∨
    (∃ ident, s.work.stage = .huffBody ident ∧ engineTurn s = .next (huffTurn ident s)) := by
  unfold engineTurn fetch
  cases hs : s.work.stage with
  | command => exact .inl ⟨rfl, rfl⟩
  | header ident =>
    refine .inr (.inl ⟨ident, rfl, ?_⟩)
    simp only [fetchContainer]
    cases hd : decode (.container ident) s.work.reader with
    | ok p => exact .inl ⟨p.1, p.2, rfl, rfl⟩
    | error e => exact .inr ⟨e, rfl⟩
  | lzssBody =>
    refine .inr (.inr (.inl ⟨rfl, ?_⟩))
    simp only [fetchToken]
    by_cases hl : s.work.lzss.out.length < s.work.lzss.n
    · simp only [if_pos hl]
      cases hd : decode (.token (clog2 s.work.lzss.d) (clog2 s.work.lzss.l)) s.work.reader with
      | ok p => exact .inl ⟨hl, p.1, p.2, rfl, rfl⟩
      | error e => exact .inr (.inl ⟨hl, rfl⟩)
    · simp only [if_neg hl]
      exact .inr (.inr ⟨by omega, trivial⟩)
  | huffBody ident => exact .inr (.inr (.inr ⟨ident, rfl, rfl⟩))

end Sys2Proof.Machine
end

