-- ==== Sys2Proof/Laws/Bitstream.lean ====
section
/-! SUPPORT. The laws of bits in bytes: a value and its bits, packing bits into bytes and reading them back, and for each
operation of the bitstream writer everything it can do. -/

namespace Sys2Proof

/-! ## A value and its bits -/

@[simp] theorem length_valueBits (v w : Nat) : (valueBits v w).length = w := by
  induction w with
  | zero => rfl
  | succ w ih => simp [valueBits, ih]

theorem bitsValue_foldl (bs : List Bool) (v : Nat) :
    bs.foldl (fun v b => 2 * v + b.toNat) v = v * 2 ^ bs.length + bitsValue bs := by
  induction bs generalizing v with
  | nil => simp [bitsValue]
  | cons b bs ih =>
    have h : bitsValue (b :: bs) = b.toNat * 2 ^ bs.length + bitsValue bs := by
      simpa [bitsValue] using ih (2 * 0 + b.toNat)
    rw [List.foldl_cons, ih, h, List.length_cons, pow_succ]; ring

@[simp] theorem bitsValue_nil : bitsValue [] = 0 := rfl

theorem bitsValue_cons (b : Bool) (bs : List Bool) : bitsValue (b :: bs) = b.toNat * 2 ^ bs.length + bitsValue bs := by
  simpa [bitsValue] using bitsValue_foldl bs (2 * 0 + b.toNat)

theorem bitsValue_append (as bs : List Bool) : bitsValue (as ++ bs) = bitsValue as * 2 ^ bs.length + bitsValue bs := by
  rw [bitsValue, List.foldl_append, bitsValue_foldl]; rfl

theorem bitsValue_concat (bs : List Bool) (b : Bool) : bitsValue (bs ++ [b]) = 2 * bitsValue bs + b.toNat := by
  rw [bitsValue_append, bitsValue_cons]; simp [Nat.mul_comm]

theorem bitsValue_lt (bs : List Bool) : bitsValue bs < 2 ^ bs.length := by
  induction bs with
  | nil => simp
  | cons b bs ih => rw [bitsValue_cons, List.length_cons, pow_succ]; cases b <;> (simp; omega)

/-- The bits of a value, as a number, are its low bits (40_bitstream.md R77, R82). -/
theorem bitsValue_valueBits (v w : Nat) : bitsValue (valueBits v w) = v % 2 ^ w := by
  induction w with
  | zero => simp [valueBits, Nat.mod_one]
  | succ w ih =>
    rw [valueBits, bitsValue_cons, ih, length_valueBits, Nat.mod_pow_succ, Nat.testBit_eq_decide_div_mod_eq]
    rcases Nat.mod_two_eq_zero_or_one (v / 2 ^ w) with h | h
    · simp [h]
    · simp [h]; ring

/-- Bit `i` of a number given by its bits is the bit that stands `i` from the end. -/
theorem testBit_bitsValue (bs : List Bool) (i : Nat) (h : i < bs.length) :
    (bitsValue bs).testBit i = bs.getD (bs.length - 1 - i) false := by
  induction bs with
  | nil => simp at h
  | cons b bs ih =>
    rw [bitsValue_cons]
    have hlt := bitsValue_lt bs
    by_cases hi : i = bs.length
    · subst hi
      rw [Nat.testBit_eq_decide_div_mod_eq, Nat.add_comm, Nat.add_mul_div_right _ _ (by positivity),
        Nat.div_eq_of_lt hlt]
      cases b <;> simp
    · have hi' : i < bs.length := by simp at h; omega
      have h2 : (b.toNat * 2 ^ bs.length + bitsValue bs).testBit i = (bitsValue bs).testBit i := by
        rw [Nat.mul_comm, Nat.testBit_two_pow_mul_add _ hlt, if_pos hi']
      rw [h2, ih hi', List.length_cons, show bs.length + 1 - 1 - i = (bs.length - 1 - i) + 1 by omega]
      rfl

/-! ## Bits packed into bytes -/

/-- Bit `j` of a packed byte, counted from its first. -/
theorem getLsbD_packByte (bs : List Bool) (hb : bs.length ≤ 8) (j : Nat) (hj : j < 8) :
    (packByte bs).getLsbD (7 - j) = bs.getD j false := by
  have hlt := bitsValue_lt bs
  rw [packByte, BitVec.getLsbD_ofNat, Nat.mul_comm, Nat.testBit_two_pow_mul]
  have h7 : decide (7 - j < 8) = true := by simp; omega
  rw [h7, Bool.true_and]
  by_cases hj2 : j < bs.length
  · have h8 : decide (7 - j ≥ 8 - bs.length) = true := by simp; omega
    rw [h8, Bool.true_and, testBit_bitsValue _ _ (by omega)]
    congr 1; omega
  · have h8 : decide (7 - j ≥ 8 - bs.length) = false := by simp; omega
    rw [h8, Bool.false_and, List.getD_eq_getElem?_getD, List.getElem?_eq_none (by omega)]; rfl

theorem packBits_nil : packBits [] = [] := rfl

/-- Packing takes eight bits at a time. -/
theorem packBits_step (as bs : List Bool) (h : as.length = 8) : packBits (as ++ bs) = packByte as :: packBits bs := by
  match as, h with
  | [_, _, _, _, _, _, _, _], _ => rfl

/-- At most eight bits are one byte. -/
theorem packBits_short (bs : List Bool) (h0 : bs ≠ []) (h : bs.length ≤ 8) : packBits bs = [packByte bs] := by
  match bs, h0, h with
  | [_], _, _ => rfl
  | [_, _], _, _ => rfl
  | [_, _, _], _, _ => rfl
  | [_, _, _, _], _, _ => rfl
  | [_, _, _, _, _], _, _ => rfl
  | [_, _, _, _, _, _], _, _ => rfl
  | [_, _, _, _, _, _, _], _, _ => rfl
  | [_, _, _, _, _, _, _, _], _, _ => rfl

/-- Induction on a bit sequence, eight bits at a time. -/
theorem byteInduction (P : List Bool → Prop) (nil : P []) (short : ∀ bs, bs ≠ [] → bs.length < 8 → P bs)
    (step : ∀ as bs, as.length = 8 → P bs → P (as ++ bs)) (bs : List Bool) : P bs := by
  induction hn : bs.length using Nat.strong_induction_on generalizing bs with
  | _ n ih =>
    by_cases h : bs.length < 8
    · by_cases h0 : bs = []
      · exact h0 ▸ nil
      · exact short bs h0 h
    · have h8 : (bs.take 8).length = 8 := by rw [List.length_take]; omega
      rw [← List.take_append_drop 8 bs]
      exact step _ _ h8 (ih (bs.drop 8).length (by rw [List.length_drop]; omega) _ rfl)

/-- b bits occupy ceil(b/8) bytes (30_encoding.md R66). -/
@[simp] theorem length_packBits (bs : List Bool) : (packBits bs).length = (bs.length + 7) / 8 := by
  induction bs using byteInduction with
  | nil => rfl
  | short bs h0 h =>
    have : 0 < bs.length := List.length_pos_iff.2 h0
    rw [packBits_short bs h0 h.le, List.length_singleton]; omega
  | step as bs h ih => rw [packBits_step as bs h, List.length_cons, ih, List.length_append, h]; omega

/-- Bytes packed whole stay as they are when more bits follow. -/
theorem packBits_append (as bs : List Bool) (h : as.length % 8 = 0) : packBits (as ++ bs) = packBits as ++ packBits bs := by
  induction as using byteInduction with
  | nil => rfl
  | short as h0 h8 =>
    have : 0 < as.length := List.length_pos_iff.2 h0
    omega
  | step cs as hc ih =>
    rw [List.append_assoc, packBits_step cs _ hc, packBits_step cs _ hc, ih (by rw [List.length_append] at h; omega)]
    rfl

/-- Bit `q` of a packed sequence is bit `q` of what was packed, or a padding 0 (20_memory.md R41, 30_encoding.md R66). -/
theorem bitAt_packBits (bs : List Bool) (q : Nat) : bitAt (packBits bs) q = bs.getD q false := by
  induction bs using byteInduction generalizing q with
  | nil => simp [bitAt, byteAt, packBits_nil]
  | short bs h0 h =>
    rw [packBits_short bs h0 h.le, bitAt, byteAt]
    by_cases hq : q < 8
    · rw [Nat.div_eq_of_lt hq, Nat.mod_eq_of_lt hq]
      exact getLsbD_packByte bs h.le q hq
    · obtain ⟨k, hk⟩ : ∃ k, q / 8 = k + 1 := ⟨q / 8 - 1, by omega⟩
      rw [hk, show bs.getD q false = false by rw [List.getD_eq_getElem?_getD, List.getElem?_eq_none (by omega)]; rfl]
      simp
  | step as bs h ih =>
    rw [packBits_step as bs h]
    by_cases hq : q < 8
    · have h1 : bitAt (packByte as :: packBits bs) q = (packByte as).getLsbD (7 - q) := by
        rw [bitAt, byteAt, Nat.div_eq_of_lt hq, Nat.mod_eq_of_lt hq]; rfl
      rw [h1, getLsbD_packByte as h.le q hq, List.getD_append _ _ _ _ (by omega)]
    · have h1 : bitAt (packByte as :: packBits bs) q = bitAt (packBits bs) (q - 8) := by
        rw [bitAt, bitAt, byteAt, byteAt, show q / 8 = (q - 8) / 8 + 1 by omega, show q % 8 = (q - 8) % 8 by omega]
        rfl
      rw [h1, ih, List.getD_append_right _ _ _ _ (by omega), h]

/-! ## Reading -/

/-- The field of packed bits that lies among them is those bits. -/
theorem fieldAt_packBits (as fs bs : List Bool) :
    fieldAt (packBits (as ++ fs ++ bs)) as.length fs.length = bitsValue fs := by
  rw [fieldAt]
  congr 1
  apply List.ext_getElem?
  intro i
  by_cases hi : i < fs.length
  · rw [List.getElem?_map, List.getElem?_range hi, Option.map_some, bitAt_packBits, List.getD_eq_getElem?_getD,
      List.append_assoc, List.getElem?_append_right (by omega), Nat.add_sub_cancel_left, List.getElem?_append_left hi,
      List.getElem?_eq_getElem hi]
    rfl
  · rw [List.getElem?_eq_none (by simp; omega), List.getElem?_eq_none (by omega)]

/-- GetBits over packed bits answers the field and moves past it (40_bitstream.md R82). -/
theorem getBits_packBits (as fs bs : List Bool) (w : Nat) (hw : fs.length = w) :
    getBits { src := packBits (as ++ fs ++ bs), pos := as.length } w =
      some (bitsValue fs, { src := packBits (as ++ fs ++ bs), pos := as.length + w }) := by
  subst hw
  have h : ¬ 8 * (packBits (as ++ fs ++ bs)).length - as.length < fs.length := by
    simp only [length_packBits, List.length_append]; omega
  simp only [getBits, if_neg h, fieldAt_packBits]

/-- GetBit over packed bits answers the next one (40_bitstream.md R81). -/
theorem getBit_packBits (as bs : List Bool) (b : Bool) :
    getBit { src := packBits (as ++ b :: bs), pos := as.length } =
      some (b, { src := packBits (as ++ b :: bs), pos := as.length + 1 }) := by
  have h : ¬ 8 * (packBits (as ++ b :: bs)).length ≤ as.length := by
    simp only [length_packBits, List.length_append, List.length_cons]; omega
  have hb : bitAt (packBits (as ++ b :: bs)) as.length = b := by
    rw [bitAt_packBits, List.getD_append_right _ _ _ _ le_rfl]; simp
  simp only [getBit, if_neg h, hb]

end Sys2Proof

namespace Sys2Proof.Machine

/-! ## The writer -/

/-- The writer has been given exactly the bits `bits`: whole bytes written, the rest pending (40_bitstream.md R75). -/
structure Writer.Holds (w : Writer) (bits : List Bool) : Prop where
  pending : w.n < 8
  count : bits.length = 8 * w.bytes.length + w.n
  written : w.bytes = packBits (bits.take (8 * w.bytes.length))
  acc : w.acc = bitsValue (bits.drop (8 * w.bytes.length))
  fits : w.bytes.length ≤ w.cap

theorem Writer.holds_new (dest : Dest) (cap : Nat) : (Writer.new dest cap).Holds [] where
  pending := Nat.zero_lt_succ 7
  count := rfl
  written := rfl
  acc := rfl
  fits := Nat.zero_le cap

/-- EmitByte appends a byte, or raises CapacityExceeded when the destination is full (40_bitstream.md R76). -/
theorem emitByte_eq (w : Writer) (b : Byte) :
    emitByte w b =
      if w.bytes.length < w.cap then .ok { w with bytes := w.bytes ++ [b] } else .error .capacityExceeded := by
  unfold emitByte
  by_cases h : w.bytes.length < w.cap
  · rw [if_neg (by omega), if_pos h]
  · rw [if_pos (by omega), if_neg h]

/-- Everything one round of PutBits can do: hold one bit more, unless it completes a byte that does not fit. -/
theorem putBit_spec (w : Writer) (bits : List Bool) (b : Bool) (h : w.Holds bits) :
    if (bits.length + 1) / 8 ≤ w.cap then
      ∃ w', putBit w b = .ok w' ∧ w'.Holds (bits ++ [b]) ∧ w'.cap = w.cap ∧ w'.dest = w.dest
    else putBit w b = .error .capacityExceeded := by
  obtain ⟨hn, hc, hw, ha, hf⟩ := h
  by_cases h8 : w.n + 1 = 8
  · have hlen : (bits.length + 1) / 8 = w.bytes.length + 1 := by omega
    rw [hlen]
    by_cases hcap : w.bytes.length + 1 ≤ w.cap
    · rw [if_pos hcap]
      have hdrop : (bits.drop (8 * w.bytes.length)).length = 7 := by rw [List.length_drop]; omega
      have hbits : bits ++ [b] =
          bits.take (8 * w.bytes.length) ++ (bits.drop (8 * w.bytes.length) ++ [b]) := by
        rw [← List.append_assoc, List.take_append_drop]
      have hlast : (bits.drop (8 * w.bytes.length) ++ [b]).length = 8 := by rw [List.length_append, hdrop]; rfl
      refine ⟨{ w with bytes := w.bytes ++ [BitVec.ofNat 8 (2 * w.acc + b.toNat)], acc := 0, n := 0 }, ?_, ?_, rfl, rfl⟩
      · simp only [putBit, if_pos h8, emitByte_eq, if_pos (show w.bytes.length < w.cap by omega)]
      · refine ⟨Nat.zero_lt_succ 7, ?_, ?_, ?_, ?_⟩
        · simp only [List.length_append, List.length_singleton]; omega
        · have htake : (bits ++ [b]).take (8 * (w.bytes ++ [BitVec.ofNat 8 (2 * w.acc + b.toNat)]).length) = bits ++ [b] :=
            List.take_of_length_le (by simp only [List.length_append, List.length_singleton]; omega)
          rw [htake, hbits, packBits_append _ _ (by rw [List.length_take]; omega), ← hw,
            packBits_short _ (by simp) hlast.le, packByte, hlast, bitsValue_concat, ← ha]
          simp
        · have hdrop : (bits ++ [b]).drop (8 * (w.bytes ++ [BitVec.ofNat 8 (2 * w.acc + b.toNat)]).length) = [] :=
            List.drop_of_length_le (by simp only [List.length_append, List.length_singleton]; omega)
          rw [hdrop]; rfl
        · simp only [List.length_append, List.length_singleton]; omega
    · rw [if_neg hcap]
      simp only [putBit, if_pos h8, emitByte_eq, if_neg (show ¬ w.bytes.length < w.cap by omega)]
  · rw [if_pos (by omega)]
    refine ⟨{ w with acc := 2 * w.acc + b.toNat, n := w.n + 1 }, by simp only [putBit, if_neg h8], ?_, rfl, rfl⟩
    refine ⟨show w.n + 1 < 8 by omega, ?_, ?_, ?_, hf⟩
    · simp only [List.length_append, List.length_singleton]; omega
    · show w.bytes = packBits ((bits ++ [b]).take (8 * w.bytes.length))
      rw [List.take_append_of_le_length (by omega)]; exact hw
    · show 2 * w.acc + b.toNat = bitsValue ((bits ++ [b]).drop (8 * w.bytes.length))
      rw [List.drop_append_of_le_length (by omega), bitsValue_concat, ← ha]

/-- Everything PutBits can do: hold the field's bits too, or raise CapacityExceeded (40_bitstream.md R77). -/
theorem putBits_spec (v i : Nat) (w : Writer) (bits : List Bool) (h : w.Holds bits) :
    if (bits.length + i) / 8 ≤ w.cap then
      ∃ w', putBits w v i = .ok w' ∧ w'.Holds (bits ++ valueBits v i) ∧ w'.cap = w.cap ∧ w'.dest = w.dest
    else putBits w v i = .error .capacityExceeded := by
  induction i generalizing w bits with
  | zero =>
    have hf := h.fits
    have hc := h.count
    have hn := h.pending
    rw [if_pos (by omega)]
    exact ⟨w, rfl, by simpa [valueBits] using h, rfl, rfl⟩
  | succ i ih =>
    have hs := putBit_spec w bits (v.testBit i) h
    by_cases h1 : (bits.length + 1) / 8 ≤ w.cap
    · rw [if_pos h1] at hs
      obtain ⟨w1, e1, h1', c1, d1⟩ := hs
      have := ih w1 _ h1'
      rw [c1, List.length_append, List.length_singleton, show bits.length + 1 + i = bits.length + (i + 1) by omega] at this
      simp only [putBits, e1]
      split
      · rename_i hfit
        rw [if_pos hfit] at this
        obtain ⟨w2, e2, h2, c2, d2⟩ := this
        exact ⟨w2, e2, by simpa [valueBits] using h2, by rw [c2], by rw [d2, d1]⟩
      · rename_i hfit
        rw [if_neg hfit] at this
        exact this
    · rw [if_neg h1] at hs
      rw [if_neg (by omega)]
      simp only [putBits, hs]

/-- Everything Flush can do: the stream is the bits held, completed with 0 bits (40_bitstream.md R79). -/
theorem flush_spec (w : Writer) (bits : List Bool) (h : w.Holds bits) :
    flush w = if (bits.length + 7) / 8 ≤ w.cap then .ok (packBits bits) else .error .capacityExceeded := by
  obtain ⟨hn, hc, hw, ha, hf⟩ := h
  by_cases h0 : w.n = 0
  · have htake : bits.take (8 * w.bytes.length) = bits := List.take_of_length_le (by omega)
    rw [if_pos (by omega), flush, if_pos h0, ← htake, ← hw]
  · have hdrop : (bits.drop (8 * w.bytes.length)).length = w.n := by rw [List.length_drop]; omega
    have hne : bits.drop (8 * w.bytes.length) ≠ [] := by
      intro hnil; rw [hnil] at hdrop; exact h0 hdrop.symm
    have hpack : packBits bits = w.bytes ++ [BitVec.ofNat 8 (w.acc * 2 ^ (8 - w.n))] := by
      conv_lhs => rw [← List.take_append_drop (8 * w.bytes.length) bits]
      rw [packBits_append _ _ (by rw [List.length_take]; omega), ← hw, packBits_short _ hne (by omega), packByte, hdrop, ← ha]
    simp only [flush, if_neg h0, emitByte_eq]
    by_cases hcap : w.bytes.length < w.cap
    · rw [if_pos hcap, if_pos (by omega), hpack]
    · rw [if_neg hcap, if_neg (by omega)]

/-- Everything PutByte on a byte boundary can do, for a sequence of header bytes (40_bitstream.md R78). -/
theorem putBytes_spec (bs : List Byte) (w : Writer) (bits : List Bool) (h : w.Holds bits) (h0 : w.n = 0) :
    if w.bytes.length + bs.length ≤ w.cap then
      ∃ w', putBytes w bs = .ok w' ∧ w'.Holds (bits ++ bs.flatMap byteBits) ∧ w'.n = 0 ∧ w'.cap = w.cap ∧
        w'.dest = w.dest ∧ w'.bytes = w.bytes ++ bs
    else putBytes w bs = .error .capacityExceeded := by
  induction bs generalizing w bits with
  | nil =>
    rw [if_pos (by simpa using h.fits)]
    exact ⟨w, rfl, by simpa using h, h0, rfl, rfl, by simp⟩
  | cons b bs ih =>
    obtain ⟨hn, hc, hw, ha, hf⟩ := h
    have hbits : bits.take (8 * w.bytes.length) = bits := List.take_of_length_le (by omega)
    have hbyte : packBits (byteBits b) = [b] := by
      rw [packBits_short _ (by simp [byteBits, valueBits]) (by simp [byteBits]), packByte, byteBits, length_valueBits,
        bitsValue_valueBits]
      simp [Nat.mod_eq_of_lt b.isLt]
    by_cases hcap : w.bytes.length < w.cap
    · have hstep : ({ w with bytes := w.bytes ++ [b] } : Writer).Holds (bits ++ byteBits b) := by
        have hl : (bits ++ byteBits b).length = 8 * (w.bytes ++ [b]).length := by
          simp only [List.length_append, List.length_singleton, byteBits, length_valueBits]; omega
        refine ⟨hn, by rw [hl]; simp [h0], ?_, ?_, by simp only [List.length_append, List.length_singleton]; omega⟩
        · show w.bytes ++ [b] = packBits ((bits ++ byteBits b).take (8 * (w.bytes ++ [b]).length))
          rw [List.take_of_length_le hl.le, packBits_append _ _ (by omega), hbyte, ← hbits, ← hw]
        · show w.acc = bitsValue ((bits ++ byteBits b).drop (8 * (w.bytes ++ [b]).length))
          rw [List.drop_of_length_le hl.le, ha, List.drop_of_length_le (by omega)]
      have := ih { w with bytes := w.bytes ++ [b] } _ hstep h0
      simp only [putBytes, putByte, emitByte_eq, if_pos hcap]
      rw [show (w.bytes ++ [b]).length + bs.length = w.bytes.length + (b :: bs).length by
        simp; omega] at this
      split
      · rename_i hfit
        rw [if_pos hfit] at this
        obtain ⟨w2, e2, h2, n2, c2, d2, b2⟩ := this
        exact ⟨w2, e2, by simpa [List.flatMap_cons] using h2, n2, c2, d2, by simp [b2]⟩
      · rename_i hfit
        rw [if_neg hfit] at this
        exact this
    · rw [if_neg (by simp only [List.length_cons]; omega)]
      simp only [putBytes, putByte, emitByte_eq, if_neg hcap]

end Sys2Proof.Machine
end

