-- ==== Sys2Proof/Laws/PerInstr.lean ====
section
/-! SUPPORT. A fact about every instruction as syntax, one lemma per constructor: the length of its encoding. -/

namespace Sys2Proof.Laws

theorem byteBits_length (b : Byte) : (byteBits b).length = 8 := length_valueBits _ _

theorem lensBits_length (lens : List Byte) : (lensBits lens).length = 8 * lens.length := by
  induction lens with
  | nil => rfl
  | cons b bs ih =>
    have : lensBits (b :: bs) = byteBits b ++ lensBits bs := rfl
    rw [this, List.length_append, byteBits_length, ih, List.length_cons]; omega

namespace EncodedLength

/-- How many bits the encoding of `i` in the format `f` has: 32 for a command word (30_encoding.md R54), 9 for a literal
(R62), 1 + wD + wL for a match (R63), and 8 for each byte of a container header (R71). -/
def bits : Format → Instr → Nat
  | .command, _ => 32
  | .token _ _, .lit _ => 9
  | .token wD wL, _ => 1 + wD + wL
  | .container ident, _ => 8 * headerLength ident

/-- An encoding has the length its format gives it. -/
def Statement (i : Instr) : Prop := ∀ f : Format, wellFormed f i = true → (encode f i).length = bits f i

theorem lzssCompress : Statement .lzssCompress := by
  intro f h; cases f <;> simp_all [wellFormed, encode, commandOp, length_valueBits, bits]

theorem lzssDecompress : Statement .lzssDecompress := by
  intro f h; cases f <;> simp_all [wellFormed, encode, commandOp, length_valueBits, bits]

theorem huffmanCompress : Statement .huffmanCompress := by
  intro f h; cases f <;> simp_all [wellFormed, encode, commandOp, length_valueBits, bits]

theorem huffmanDecompress : Statement .huffmanDecompress := by
  intro f h; cases f <;> simp_all [wellFormed, encode, commandOp, length_valueBits, bits]

theorem hsCompress : Statement .hsCompress := by
  intro f h; cases f <;> simp_all [wellFormed, encode, commandOp, length_valueBits, bits]

theorem hsDecompress : Statement .hsDecompress := by
  intro f h; cases f <;> simp_all [wellFormed, encode, commandOp, length_valueBits, bits]

theorem reservedCommand (op : BitVec 4) : Statement (.reservedCommand op) := by
  intro f h; cases f <;> simp_all [wellFormed, encode, commandOp, length_valueBits, bits]

theorem lit (b : Byte) : Statement (.lit b) := by
  intro f h; cases f <;> simp_all [wellFormed, encode, byteBits_length, bits]

theorem matchTok (d len : Nat) : Statement (.matchTok d len) := by
  intro f h
  cases f <;> simp_all [wellFormed, encode, length_valueBits, bits]
  omega

theorem lzssContainer (n d l : Word) : Statement (.lzssContainer n d l) := by
  intro f h
  cases f <;> simp_all [wellFormed, encode, length_valueBits, byteBits_length, bits, headerLength]

theorem huffmanContainer (n : Word) (lens : List Byte) : Statement (.huffmanContainer n lens) := by
  intro f h
  cases f <;> simp_all [wellFormed, encode, length_valueBits, byteBits_length, lensBits_length, bits, headerLength]

theorem hsContainer (n : Word) (lens : List Byte) : Statement (.hsContainer n lens) := by
  intro f h
  cases f <;> simp_all [wellFormed, encode, length_valueBits, byteBits_length, lensBits_length, bits, headerLength]

end EncodedLength

end Sys2Proof.Laws
end

