-- ==== Sys2Proof/Laws/Stages.lean ====
section
/-! SUPPORT. For each stage what it can do whatever its input is: an encoder's stream is the bits it put and fits its
destination, a decoder's output has the length its header declares and fits its destination (60_exceptions.md R141). -/

namespace Sys2Proof.Machine

/-! ## Encoders -/

/-- A stage that only puts bits: it ends holding more bits, in the same destination, or in CapacityExceeded. -/
def Puts (w : Writer) (bits more : List Bool) (r : Except ErrKind Writer) : Prop :=
  (∃ w', r = .ok w' ∧ w'.Holds (bits ++ more) ∧ w'.cap = w.cap) ∨
  (r = .error .capacityExceeded ∧ w.cap < (bits.length + more.length + 7) / 8)

theorem puts_putBits (w : Writer) (bits : List Bool) (v i : Nat) (h : w.Holds bits) :
    Puts w bits (valueBits v i) (putBits w v i) := by
  have := putBits_spec v i w bits h
  split at this
  · obtain ⟨w', e, h', c, -⟩ := this
    exact .inl ⟨w', e, h', c⟩
  · exact .inr ⟨this, by rw [length_valueBits]; omega⟩

/-- Two such stages in a row. -/
theorem Puts.bind {w : Writer} {bits as bs : List Bool} {r : Except ErrKind Writer}
    {f : Writer → Except ErrKind Writer} :
    Puts w bits as r → (∀ w', w'.Holds (bits ++ as) → Puts w' (bits ++ as) bs (f w')) →
    Puts w bits (as ++ bs) (match r with | .error k => .error k | .ok w' => f w') := by
  intro hr hf
  rcases hr with ⟨w', rfl, h', c⟩ | ⟨rfl, hlt⟩
  · rcases hf w' h' with ⟨w2, e2, h2, c2⟩ | ⟨e2, hlt⟩
    · exact .inl ⟨w2, e2, by rwa [List.append_assoc] at h2, by rw [c2, c]⟩
    · refine .inr ⟨e2, ?_⟩
      rw [c] at hlt
      simp only [List.length_append] at hlt ⊢
      omega
  · exact .inr ⟨rfl, by simp only [List.length_append]; omega⟩

/-- The bits of a token are those of its encoding (42_lzss.md R98, R99). -/
theorem puts_serializeToken (wD wL : Nat) (w : Writer) (bits : List Bool) (t : Token) (h : w.Holds bits) :
    Puts w bits (encode (.token wD wL) (instrOfToken t)) (serializeToken wD wL w t) := by
  cases t with
  | literal b =>
    have hb : encode (.token wD wL) (instrOfToken (.literal b)) = valueBits 0 1 ++ valueBits b.toNat 8 := rfl
    rw [hb]
    exact (puts_putBits w bits 0 1 h).bind fun w' h' => puts_putBits w' _ b.toNat 8 h'
  | copy d len =>
    have hb : encode (.token wD wL) (instrOfToken (.copy d len)) =
        valueBits 1 1 ++ (valueBits (d - 1) wD ++ valueBits (len - 1) wL) := rfl
    rw [hb]
    exact (puts_putBits w bits 1 1 h).bind fun w' h' =>
      (puts_putBits w' _ (d - 1) wD h').bind fun w2 h2 => puts_putBits w2 _ (len - 1) wL h2

/-- The bits of a token sequence (42_lzss.md R100). -/
theorem puts_serializeTokens (wD wL : Nat) (ts : List Token) (w : Writer) (bits : List Bool) (h : w.Holds bits) :
    Puts w bits (ts.flatMap fun t => encode (.token wD wL) (instrOfToken t)) (serializeTokens wD wL w ts) := by
  induction ts generalizing w bits with
  | nil => exact .inl ⟨w, rfl, by simpa using h, rfl⟩
  | cons t ts ih =>
    rw [List.flatMap_cons]
    exact (puts_serializeToken wD wL w bits t h).bind fun w' h' => ih w' _ h'

/-- The bits of the codes of a byte sequence (30_encoding.md R65). -/
theorem puts_putCodes (lens code : List Nat) (x : List Byte) (w : Writer) (bits : List Bool) (h : w.Holds bits) :
    Puts w bits (x.flatMap fun b => valueBits (code.getD b.toNat 0) (lens.getD b.toNat 0)) (putCodes lens code w x) := by
  induction x generalizing w bits with
  | nil => exact .inl ⟨w, rfl, by simpa using h, rfl⟩
  | cons b bs ih =>
    rw [List.flatMap_cons]
    exact (puts_putBits w bits _ _ h).bind fun w' h' => ih w' _ h'

/-- Header bytes on a new writer. -/
theorem puts_header (dest : Dest) (cap : Nat) (bs : List Byte) :
    Puts (Writer.new dest cap) [] (bs.flatMap byteBits) (putBytes (Writer.new dest cap) bs) := by
  have := putBytes_spec bs _ [] (Writer.holds_new dest cap) rfl
  split at this
  · obtain ⟨w', e, h', -, c, -⟩ := this
    exact .inl ⟨w', e, h', c⟩
  · rename_i hfit
    refine .inr ⟨this, ?_⟩
    have hl : (bs.flatMap byteBits).length = 8 * bs.length := by
      clear this hfit
      induction bs with
      | nil => rfl
      | cons b bs ih => rw [List.flatMap_cons, List.length_append, ih, byteBits, length_valueBits, List.length_cons]; omega
    have hfit' : cap < bs.length := by simpa [Writer.new] using hfit
    rw [hl]
    show cap < _
    simp only [List.length_nil]; omega

/-- A stage that puts bits on a new writer and then flushes: the packed bits, or CapacityExceeded. -/
theorem Puts.flush {dest : Dest} {cap : Nat} {bits : List Bool} {r : Except ErrKind Writer} :
    Puts (Writer.new dest cap) [] bits r →
    (match r with | .error k => Except.error k | .ok w => Machine.flush w) =
      if (bits.length + 7) / 8 ≤ cap then .ok (packBits bits) else .error .capacityExceeded := by
  intro h
  rcases h with ⟨w', rfl, h', c⟩ | ⟨rfl, hlt⟩
  · simp only [flush_spec w' _ h', c, List.nil_append]; rfl
  · rw [if_neg]
    have hlt' : cap < (0 + bits.length + 7) / 8 := hlt
    omega

theorem match_match_error {r : Except ErrKind Writer} {f : Writer → Except ErrKind Writer}
    {g : Writer → Except ErrKind (List Byte)} :
    (match (match r with | .error k => Except.error k | .ok w => f w) with
      | .error k => Except.error k
      | .ok w => g w) =
    (match r with
      | .error k => Except.error k
      | .ok w => match f w with | .error k => Except.error k | .ok w => g w) := by
  cases r <;> rfl

/-- Everything LzssEncode can do: the header's bits and the tokens' bits packed, or CapacityExceeded (42_lzss.md R100). -/
theorem lzssEncode_eq (dest : Dest) (cap : Nat) (input : List Byte) (d l : Nat) :
    ∃ bits, bits = (Config.identLzss :: (u32be input.length ++ u32be d ++ u32be l)).flatMap byteBits ++
        (tokens input d l).flatMap (fun t => encode (.token (clog2 d) (clog2 l)) (instrOfToken t)) ∧
      lzssEncode dest cap input d l =
        if (bits.length + 7) / 8 ≤ cap then .ok (packBits bits) else .error .capacityExceeded := by
  refine ⟨_, rfl, ?_⟩
  have h := (puts_header dest cap (Config.identLzss :: (u32be input.length ++ u32be d ++ u32be l))).bind fun w' h' =>
    puts_serializeTokens (clog2 d) (clog2 l) (tokens input d l) w' _ h'
  rw [← h.flush, match_match_error]
  rfl

/-- Everything HufEncode can do: the header's bits and the codes' bits packed, or CapacityExceeded (43_huffman.md R121). -/
theorem hufEncode_eq (dest : Dest) (cap : Nat) (ident : Byte) (x : List Byte) :
    ∃ bits lens, lens = buildLengths (freqTable x) ∧
      bits = (ident :: (u32be x.length ++ lens.map (BitVec.ofNat 8))).flatMap byteBits ++
        x.flatMap (fun b => valueBits ((canonical lens).getD b.toNat 0) (lens.getD b.toNat 0)) ∧
      hufEncode dest cap ident x =
        if (bits.length + 7) / 8 ≤ cap then .ok (packBits bits) else .error .capacityExceeded := by
  refine ⟨_, _, rfl, rfl, ?_⟩
  have h := (puts_header dest cap
      (ident :: (u32be x.length ++ (buildLengths (freqTable x)).map (BitVec.ofNat 8)))).bind fun w' h' =>
    puts_putCodes (buildLengths (freqTable x)) (canonical (buildLengths (freqTable x))) x w' _ h'
  rw [← h.flush, match_match_error]
  rfl

theorem lzssEncode_fits (dest : Dest) (cap : Nat) (input : List Byte) (d l : Nat) (out : List Byte)
    (h : lzssEncode dest cap input d l = .ok out) : out.length ≤ cap := by
  obtain ⟨bits, -, e⟩ := lzssEncode_eq dest cap input d l
  rw [e] at h
  split at h
  · injection h with h; rw [← h, length_packBits]; assumption
  · cases h

theorem hufEncode_fits (dest : Dest) (cap : Nat) (ident : Byte) (x out : List Byte)
    (h : hufEncode dest cap ident x = .ok out) : out.length ≤ cap := by
  obtain ⟨bits, lens, -, -, e⟩ := hufEncode_eq dest cap ident x
  rw [e] at h
  split at h
  · injection h with h; rw [← h, length_packBits]; assumption
  · cases h

/-! ## Decoders -/

@[simp] theorem copyBytes_length (d k : Nat) (out : List Byte) : (copyBytes d k out).length = out.length + k := by
  induction k generalizing out with
  | zero => rfl
  | succ k ih => rw [copyBytes, ih, List.length_append, List.length_singleton]; omega

/-- Everything a token can do to the decoder: the header fields stay, the output grows by the token's bytes and never past
N (42_lzss.md R104, R105). -/
theorem performToken_ok (t : Token) (w w' : LzssWork) (h : performToken t w = .ok w') (hlt : w.out.length < w.n) :
    w'.n = w.n ∧ w'.d = w.d ∧ w'.l = w.l ∧ w.out.length < w'.out.length ∧ w'.out.length ≤ w.n := by
  cases t with
  | literal b =>
    injection h with h
    subst h
    exact ⟨rfl, rfl, rfl, by simp [performLiteral], by simpa [performLiteral] using hlt⟩
  | copy d len =>
    simp only [performToken, performMatch] at h
    split at h
    · rename_i hl
      injection h with h
      subst h
      simp only [matchLegal, Bool.and_eq_true, decide_eq_true_eq] at hl
      have h3 : Config.minMatch = 3 := rfl
      exact ⟨rfl, rfl, rfl, by simp only [copyBytes_length]; omega, by simp only [copyBytes_length]; omega⟩
    · cases h

/-- The only error a token can raise (42_lzss.md R104). -/
theorem performToken_error (t : Token) (w : LzssWork) (k : ErrKind) (h : performToken t w = .error k) :
    k = .corruptStream := by
  cases t with
  | literal b => cases h
  | copy d len =>
    simp only [performToken, performMatch] at h
    split at h
    · cases h
    · injection h with h; exact h.symm

/-- The loop ends with exactly N bytes out (42_lzss.md R106, R107). -/
theorem lzssBody_ok (fuel : Nat) (rd rd' : Reader) (w w' : LzssWork) (hf : w.n ≤ w.out.length + fuel)
    (ho : w.out.length ≤ w.n) (h : lzssBody fuel rd w = .ok (rd', w')) : w'.out.length = w.n ∧ w'.n = w.n := by
  induction fuel generalizing rd w with
  | zero => injection h with h; cases h; exact ⟨by omega, rfl⟩
  | succ fuel ih =>
    rw [lzssBody] at h
    split at h
    · rename_i hlt
      split at h
      · cases h
      · split at h
        · cases h
        · rename_i w1 hp
          obtain ⟨hn, -, -, hgt, hle⟩ := performToken_ok _ _ _ hp hlt
          have := ih _ w1 (by omega) (by omega) h
          rw [hn] at this
          exact this
    · injection h with h; cases h; exact ⟨by omega, rfl⟩

/-- The header's checks passed: the decoder starts with an empty output that fits (42_lzss.md R102). -/
theorem lzssStart_ok (cap n d l : Nat) (w : LzssWork) (h : lzssStart cap n d l = .ok w) :
    w = { n := n, d := d, l := l, out := [] } ∧ n ≤ cap ∧ d ≠ 0 ∧ l ≠ 0 := by
  unfold lzssStart at h
  split at h
  · cases h
  · split at h
    · cases h
    · injection h with h
      exact ⟨h.symm, by omega, by omega, by omega⟩

/-- The output of a decoder's loop and end check has N bytes (42_lzss.md R106). -/
theorem lzssFinish_ok (rd : Reader) (w : LzssWork) (out : List Byte) (ho : w.out = []) (h : lzssFinish rd w = .ok out) :
    out.length = w.n := by
  unfold lzssFinish at h
  split at h
  · cases h
  · rename_i rd' w' hb
    split at h
    · cases h
    · injection h with h
      subst h
      exact (lzssBody_ok _ _ _ _ _ (by simp [ho]) (by simp [ho]) hb).1

/-- A decoded output has the declared length and fits the destination (42_lzss.md R102, R106). -/
theorem lzssDecode_length (cap : Nat) (src out : List Byte) (h : lzssDecode cap src = .ok out) :
    out.length = be32 src 1 ∧ out.length ≤ cap := by
  rw [lzssDecode] at h
  generalize decodeContainer Config.identLzss src = r at h
  cases r with
  | error e => cases h
  | ok p =>
    cases hs : lzssStart cap (be32 src 1) (be32 src 5) (be32 src 9) with
    | error k => simp only [hs, reduceCtorEq] at h
    | ok w =>
      simp only [hs] at h
      obtain ⟨hw, hcap, -⟩ := lzssStart_ok _ _ _ _ _ hs
      have hl := lzssFinish_ok _ _ _ (by rw [hw]) h
      have hn : w.n = be32 src 1 := by rw [hw]
      exact ⟨hl.trans hn, by rw [hl, hn]; exact hcap⟩

/-- One symbol appends one byte (43_huffman.md R125). -/
theorem hufSymbol_ok (rd rd' : Reader) (w w' : HuffWork) (h : hufSymbol rd w = .ok (rd', w')) :
    w'.n = w.n ∧ w'.lens = w.lens ∧ w'.code = w.code ∧ w'.out.length = w.out.length + 1 := by
  unfold hufSymbol at h
  split at h
  · cases h
  · injection h with h
    cases h
    exact ⟨rfl, rfl, rfl, by simp⟩

/-- The loop ends with exactly n bytes out (43_huffman.md R125, R126). -/
theorem hufBody_ok (fuel : Nat) (rd rd' : Reader) (w w' : HuffWork) (hf : w.n ≤ w.out.length + fuel)
    (ho : w.out.length ≤ w.n) (h : hufBody fuel rd w = .ok (rd', w')) : w'.out.length = w.n ∧ w'.n = w.n := by
  induction fuel generalizing rd w with
  | zero => injection h with h; cases h; exact ⟨by omega, rfl⟩
  | succ fuel ih =>
    rw [hufBody] at h
    split at h
    · rename_i hlt
      split at h
      · cases h
      · rename_i w1 hp
        obtain ⟨hn, -, -, hl⟩ := hufSymbol_ok _ _ _ _ hp
        have := ih _ w1 (by omega) (by omega) h
        rw [hn] at this
        exact this
    · injection h with h; cases h; exact ⟨by omega, rfl⟩

/-- The header's checks passed: the decoder starts with an empty output that fits (43_huffman.md R122). -/
theorem hufStart_ok (cap n : Nat) (lens : List Nat) (w : HuffWork) (h : hufStart cap n lens = .ok w) :
    w.n = n ∧ n ≤ cap ∧ w.out = [] ∧ w.lens = lens ∧ w.code = canonical lens ∧ kraft lens = true := by
  unfold hufStart at h
  split at h
  · cases h
  · rename_i hk
    split at h
    · cases h
    · split at h
      · cases h
      · injection h with h
        subst h
        exact ⟨rfl, by omega, rfl, rfl, rfl, by simpa using hk⟩

/-- A decoded output has the declared length and fits the destination (43_huffman.md R122, R125). -/
theorem hufDecode_length (ident : Byte) (cap : Nat) (src out : List Byte) (h : hufDecode ident cap src = .ok out) :
    out.length = be32 src 1 ∧ out.length ≤ cap := by
  unfold hufDecode at h
  generalize be32 src 1 = n at h ⊢
  split at h
  · cases h
  · split at h
    · cases h
    · rename_i w hs
      obtain ⟨hn, hcap, ho, -⟩ := hufStart_ok _ _ _ _ hs
      unfold hufFinish at h
      split at h
      · cases h
      · rename_i rd' w' hb
        split at h
        · cases h
        · injection h with h
          subst h
          obtain ⟨h1, -⟩ := hufBody_ok _ _ _ _ _ (by simp [ho]) (by simp [ho]) hb
          exact ⟨by rw [h1, hn], by rw [h1, hn]; exact hcap⟩

end Sys2Proof.Machine
end

