-- ==== Sys2Proof/Tests/Slice0.lean ====
section
/-! SUPPORT. Tests: the checks of WellFormed, words written out from the spec's encodings, one step of each instruction
against the vectors of 95_test_vectors.md, and for each statement with hypotheses a state or operands that meet them. -/

open Sys2Proof
open Sys2Proof.Machine

namespace Sys2Proof.Tests

-- One test at a time: many kernel evaluations side by side take more memory than the check allows.
set_option Elab.async false

/-! ## Helpers -/

/-- A running command with the input `input` and the sizes `d` and `l`. -/
def busy (op : BitVec 4) (input : List Byte) (d l : Word) : State :=
  { State.reset with
    cmdOp := op, run := .busy, inMem := Memory.ofBytes input, inLen := BitVec.ofNat 32 input.length
    dictSize := d, lookaheadSize := l }

/-- An idle engine with the moves `ms` to come. -/
def idle (ms : List Move) : State := { State.reset with moves := ms }

/-- A running LZSS decoder with the header N = n, D = d, L = l and the output `out` so far. -/
def decoding (n d l : Nat) (out : List Byte) (rd : Reader) : State :=
  { State.reset with
    run := .busy, work := { Work.clear with stage := .lzssBody, reader := rd, lzss := { n := n, d := d, l := l, out := out } } }

/-- A Boolean question about the next state. -/
def next (o : Host.Outcome State Fault Refusal) (p : State → Bool) : Bool :=
  match o with
  | .next t => p t
  | .fault _ => false
  | .refused _ => false

/-- The bytes of OUT[0..n). -/
def outBytes (t : State) (n : Nat) : List (Option Byte) := (List.range n).map (fun a => Memory.read t.outMem a)

/-- The bytes of OUT that are known, in ascending address order. -/
def outList (t : State) : List Byte := t.outMem.map Prod.snd

theorem busy_hasInput (op : BitVec 4) (input : List Byte) (d l : Word) (h : input.length < 2 ^ 32) :
    (busy op input d l).hasInput input := by
  refine ⟨Nat.mod_eq_of_lt h, fun i hi => ?_⟩
  simp [busy, Memory.read_ofBytes, byteAt, hi]

/-- The bytes of a result. -/
def okBytes (r : Except ErrKind (List Byte)) : List Byte :=
  match r with
  | .ok bs => bs
  | .error _ => []

/-- A code-length table with the lengths `ls` from symbol `p` on and every other length 0. -/
def table (p : Nat) (ls : List Byte) : List Byte := List.replicate p 0 ++ ls ++ List.replicate (256 - p - ls.length) 0

/-- The HS container of vector S1, the empty input with D = L = 4. -/
def vectorS1 : List Byte := [3, 0, 0, 0, 0x0D, 1, 2, 0, 0, 2] ++ List.replicate 251 0 ++ [0x80, 0x63]

/-! ## WellFormed refuses -/

theorem test_wf_family_of_command : wellFormed .command (.lit 0) = false := by decide
theorem test_wf_family_of_token : wellFormed (.token 2 3) .lzssCompress = false := by decide
theorem test_wf_family_of_container : wellFormed (.container 1) (.matchTok 1 1) = false := by decide
theorem test_wf_reserved_op : wellFormed .command (.reservedCommand 3) = false := by decide
theorem test_wf_widths : wellFormed (.token 33 3) (.lit 0) = false ∧ wellFormed (.token 3 33) (.matchTok 1 1) = false := by
  decide
theorem test_wf_distance_range :
    wellFormed (.token 2 3) (.matchTok 0 3) = false ∧ wellFormed (.token 2 3) (.matchTok 5 3) = false := by decide
theorem test_wf_length_range :
    wellFormed (.token 2 3) (.matchTok 1 0) = false ∧ wellFormed (.token 2 3) (.matchTok 1 9) = false := by decide
theorem test_wf_identifier : wellFormed (.container 2) (.lzssContainer 0 1 1) = false := by decide
theorem test_wf_table_size :
    wellFormed (.container 2) (.huffmanContainer 0 [1, 1]) = false ∧
    wellFormed (.container 3) (.hsContainer 0 [1, 1]) = false := by decide

/-! ## Words written out from the spec's encodings (30_encoding.md R55, R58 to R63, R67) -/

theorem test_decode_lzssCompress : decodeTableWord 32 0x00000001 = some .lzssCompress := by decide
theorem test_decode_lzssDecompress : decodeTableWord 32 0x00000002 = some .lzssDecompress := by decide
theorem test_decode_huffmanCompress : decodeTableWord 32 0x00000003 = some .huffmanCompress := by decide
theorem test_decode_huffmanDecompress : decodeTableWord 32 0x00000004 = some .huffmanDecompress := by decide
theorem test_decode_hsCompress : decodeTableWord 32 0x00000005 = some .hsCompress := by decide
theorem test_decode_hsDecompress : decodeTableWord 32 0xFFFFFFF6 = some .hsDecompress := by decide
theorem test_decode_reservedCommand :
    decodeTableWord 32 0x00000007 = some (.reservedCommand 7) ∧ decodeTableWord 8 0 = some (.reservedCommand 0) := by decide
/-- 0 01000001 and padding: the bytes 20 80 (40_bitstream.md R77's example). -/
theorem test_decode_lit : decodeTableWord 16 0x8020 = some (.lit 0x41) := by decide
/-- 1 0000000001 0000000101 and padding, wD = wL = 10: the bytes 80 20 28. -/
theorem test_decode_matchTok : decodeTableWord 24 0x282080 = some (.matchTok 2 6) := by decide
/-- The first 13 bytes of vector E2. -/
theorem test_decode_lzssContainer :
    decode (.container 1) { src := [1, 0, 0, 0, 8, 0, 0, 0, 4, 0, 0, 0, 8], pos := 0 } =
      .ok (.lzssContainer 8 4 8, { src := [1, 0, 0, 0, 8, 0, 0, 0, 4, 0, 0, 0, 8], pos := 104 }) := by decide
/-- The header of vector F4, H261(02, 2, a:1, b:1). -/
theorem test_decode_huffmanContainer :
    (decode (.container 2)
      { src := [2, 0, 0, 0, 2] ++ List.replicate 97 0 ++ [1, 1] ++ List.replicate 157 0, pos := 0 }).map Prod.fst =
      .ok (.huffmanContainer 2 (table 0x61 [1, 1])) := by decide +kernel
/-- The header of vector S1: 03 00 00 00 0D, 01 02 00 00 02, 251 zero bytes. -/
theorem test_decode_hsContainer :
    (decode (.container 3) { src := [3, 0, 0, 0, 0x0D, 1, 2, 0, 0, 2] ++ List.replicate 251 0, pos := 0 }).map Prod.fst =
      .ok (.hsContainer 13 (table 0 [1, 2, 0, 0, 2])) := by decide +kernel
theorem test_decode_rejects_short_and_foreign :
    decode (.container 1) { src := [1, 0], pos := 0 } = .error .endOfBits ∧
    decode (.container 1) { src := [2], pos := 0 } = .error .wrongIdent ∧
    decode (.token 10 2) { src := [0xC0], pos := 0 } = .error .endOfBits ∧
    decode .command { src := [0, 0, 1], pos := 0 } = .error .endOfBits := by decide
/-- 30_encoding.md R63: d = 2, len = 6 with wD = 2, wL = 3 is 1 01 101. -/
theorem test_encode_matchTok : encode (.token 2 3) (.matchTok 2 6) = [true, false, true, true, false, true] := by decide

/-! ## One step of each instruction (95_test_vectors.md) -/

/-- Vector E2. -/
theorem test_lzssCompress_E2 :
    next (step (busy 1 [0x41, 0x42, 0x41, 0x42, 0x41, 0x42, 0x41, 0x42] 4 8)) (fun t =>
      t.outLen == 16 && outBytes t 17 ==
        [some 1, some 0, some 0, some 0, some 8, some 0, some 0, some 0, some 4, some 0, some 0, some 0, some 8,
          some 0x20, some 0x90, some 0xAD, none]) = true := by decide +kernel
/-- Vector E6: L < 3 gives literals only. -/
theorem test_lzssCompress_E6 :
    next (step (busy 1 [0x61, 0x61, 0x61, 0x61, 0x61, 0x61] 4 2)) (fun t =>
      (outBytes t 20).drop 13 == [some 0x30, some 0x98, some 0x4C, some 0x26, some 0x13, some 0x09, some 0x84]) = true := by
  decide +kernel
/-- Vector L2: the overlapping copy. -/
theorem test_lzssDecompress_L2 :
    next (step (busy 2 [1, 0, 0, 0, 8, 0, 0, 0, 4, 0, 0, 0, 8, 0x20, 0x90, 0xAD] 0 0)) (fun t =>
      statusWord t == 2 && outBytes t 9 ==
        [some 0x41, some 0x42, some 0x41, some 0x42, some 0x41, some 0x42, some 0x41, some 0x42, none]) = true := by
  decide +kernel
/-- Vector L17: a match past N is CorruptStream. -/
theorem test_lzssDecompress_L17 :
    next (step (busy 2 [1, 0, 0, 0, 3, 0, 0, 0, 4, 0, 0, 0, 4, 0x20, 0xC8] 0 0)) (fun t => statusWord t == 0x23) = true := by
  decide +kernel
/-- Vector F7: the leaf tie. -/
theorem test_huffmanCompress_F7 :
    next (step (busy 3 [0x61, 0x61, 0x62, 0x62, 0x63] 0 0)) (fun t =>
      t.outLen == 262 && (outList t).drop 102 == [2, 1, 2] ++ List.replicate 156 0 ++ [0xA3]) = true := by decide +kernel
/-- Vector D7: a single-symbol table. -/
theorem test_huffmanDecompress_D7 :
    next (step (busy 4 ([2, 0, 0, 0, 3] ++ table 0x7A [1] ++ [0]) 0 0)) (fun t =>
      statusWord t == 2 && outBytes t 4 == [some 0x7A, some 0x7A, some 0x7A, none]) = true := by decide +kernel
/-- Vector D2: a Kraft sum above 1 is CorruptHeader. -/
theorem test_huffmanDecompress_D2 :
    next (step (busy 4 ([2, 0, 0, 0, 1] ++ table 0x61 [1, 1, 1]) 0 0)) (fun t =>
      statusWord t == 0x33) = true := by decide +kernel
/-- Vector S1: the empty input. -/
theorem test_hsCompress_S1 :
    next (step (busy 5 [] 4 4)) (fun t =>
      t.outLen == 263 && outList t == vectorS1) = true := by decide +kernel
/-- Vector S5 for S1: the empty output. -/
theorem test_hsDecompress_S1 :
    next (step (busy 6 vectorS1 0 0)) (fun t =>
      statusWord t == 2 && t.outLen == 0) = true := by decide +kernel
/-- Vector S11: the payload is no LZSS container. -/
theorem test_hsDecompress_S11 :
    next (step (busy 6 ([3, 0, 0, 0, 13] ++ table 2 [1] ++ [0, 0]) 0 0)) (fun t => statusWord t == 0x23) = true := by
  decide +kernel
/-- Vectors C2 and C6. -/
theorem test_reservedCommand :
    next (step (busy 0 [] 0 0)) (fun t => statusWord t == 0x53) = true ∧
    next (step { busy 7 [] 0 0 with inLen := 0xFFFFFFFF }) (fun t => statusWord t == 0x53) = true := by decide +kernel
theorem test_lit :
    next (step (decoding 2 4 4 [0x41] { src := [0x21, 0x00], pos := 0 })) (fun t =>
      t.work.lzss.out == [0x41, 0x42] && t.work.reader.pos == 9) = true := by decide +kernel
/-- 42_lzss.md R105's example: out = A, Match(1, 4) gives AAAAA. The token is 1 00 011 with wD = 2, wL = 3. -/
theorem test_matchTok :
    next (step (decoding 5 4 8 [0x41] { src := [0x8C], pos := 0 })) (fun t =>
      t.work.lzss.out == [0x41, 0x41, 0x41, 0x41, 0x41]) = true := by decide +kernel
theorem test_lzssContainer_zero_D :
    next (exec (.lzssContainer 1 0 4) (busy 2 [] 0 0)) (fun t => statusWord t == 0x23) = true := by decide +kernel
theorem test_huffmanContainer :
    next (exec (.huffmanContainer 1 (table 1 [255, 255, 1])) (busy 4 [] 0 0)) (fun t =>
      t.work.stage == .huffBody 2 && t.work.huff.code.take 4 == [0, 2 ^ 254, 2 ^ 254 + 1, 0]) = true := by decide +kernel
theorem test_hsContainer_capacity :
    next (exec (.hsContainer 0xFFFFFFFF (table 0x7A [1])) (busy 6 [] 0 0)) (fun t => statusWord t == 0x63) = true := by
  decide +kernel
/-- Vector C4: a CMD write of 0x13. -/
theorem test_command_write :
    next (step (idle [.host (.regWrite 32 0 0x13)])) (fun t =>
      cmdWord t == 3 && statusWord t == 1) = true := by decide +kernel
/-- Every row of the opcode table runs as the first instruction after reset. -/
theorem test_withFetchWord_runs :
    next (step (State.reset.withFetchWord 32 3)) (fun t => t.outLen == 261) = true ∧
    next (step (State.reset.withFetchWord 16 0x8020)) (fun t => t.work.lzss.out == [0x41]) = true ∧
    next (step (State.reset.withFetchWord 8 0x80)) (fun t => statusWord t == 0x23) = true ∧
    next (step (State.reset.withFetchWord 8 1)) (fun t => statusWord t == 0x23) = true ∧
    next (step (State.reset.withFetchWord 8 2)) (fun t => t.work.stage == .huffBody 2) = true ∧
    next (step (State.reset.withFetchWord 8 3)) (fun t => t.work.stage == .huffBody 3) = true := by decide +kernel

/-! ## States and operands that meet the hypotheses of the statements -/

/-- An engine whose last command gave the output 0x41. -/
def finished (ms : List Move) : State :=
  { State.reset with run := .done, outMem := [(0, 0x41)], outLen := 1, moves := ms }

theorem finished_inv (ms : List Move) : (finished ms).Inv where
  inCanonical := rfl
  inWithin := rfl
  innerCanonical := rfl
  innerWithin := rfl
  errInError := by constructor <;> intro h <;> simp [finished, State.reset, State.resetOf] at h
  errKnown := Nat.zero_le 6
  noOutput := fun h => absurd rfl h
  output := fun _ => ⟨[0x41], show 1 ≤ 1442066 by omega, rfl, rfl⟩
  quiet := fun _ => rfl
  lzssProgress := fun h => by cases h
  huffProgress := fun _ h => by cases h

theorem witness_ResetAbandonsTheRunningCommand :
    ({ busy 1 [0x41] 4 4 with moves := [.reset] } : State).moves = .reset :: [] := rfl

theorem witness_CommandWriteStartsACommand :
    (idle [.host (.regWrite 32 0 0xF)]).run ≠ .busy ∧
    (idle [.host (.regWrite 32 0 0xF)]).moves = .host (.regWrite 32 0x00 0xF) :: [] := by decide

theorem witness_WritesWhileBusyAreIgnored :
    (busy 1 [] 4 4).run = .busy ∧
    ({ busy 1 [] 4 4 with moves := [.host (.regWrite 32 0 2)] } : State).moves =
      .host (.regWrite 32 Reg.cmd.offset 2) :: [] ∧
    1048575 < (busy 1 [] 4 4).cfg.inMemBytes ∧
    ({ busy 1 [] 4 4 with moves := [.host (.inWrite 1048575 7)] } : State).moves = .host (.inWrite 1048575 7) :: [] := by
  decide

theorem witness_OperandRegistersTakeAnyWord :
    (idle [.host (.regWrite 32 8 0xFFFFFFFF)]).run ≠ .busy ∧
    (idle [.host (.regWrite 32 8 0xFFFFFFFF)]).moves = .host (.regWrite 32 0x08 0xFFFFFFFF) :: [] ∧
    (idle [.host (.regWrite 32 12 0)]).moves = .host (.regWrite 32 0x0C 0) :: [] ∧
    (idle [.host (.regWrite 32 16 1)]).moves = .host (.regWrite 32 0x10 1) :: [] := by decide

theorem witness_ReservedAndReadOnlyRegisters :
    (0x13#32).toNat % 16 = (0xFFFFFFF3#32).toNat % 16 ∧
    (idle [.host (.regWrite 32 4 1)]).moves = .host (.regWrite 32 0x04 1) :: [] ∧
    (idle [.host (.regWrite 32 20 1)]).moves = .host (.regWrite 32 0x14 1) :: [] ∧
    (idle [.host (.regWrite 32 24 1)]).moves = .host (.regWrite 32 0x18 1) :: [] ∧
    (idle [.host (.regWrite 32 28 1)]).moves = .host (.regWrite 32 0x1C 1) :: [] := by decide

theorem witness_RegisterReadsAnswerAndChangeNothing :
    (finished [.host (.regRead 32 20)]).moves = .host (.regRead 32 Reg.outLen.offset) :: [] := by decide

theorem witness_AccessOutsideTheRegisterWindowIsRefused :
    (idle [.host (.regWrite 32 0x20 1)]).moves = .host (.regWrite 32 0x20 1) :: [] ∧
    next (step (idle [.host (.regWrite 32 0x20 1)])) (fun _ => true) = false ∧
    next (step (idle [.host (.regRead 32 0x1C)])) (fun _ => true) = true ∧
    next (step (idle [.host (.regRead 16 0)])) (fun _ => true) = false := by decide

theorem witness_BufferAccessBeyondCapacityIsRefused :
    next (step (idle [.host (.inWrite 1048575 1)])) (fun _ => true) = true ∧
    next (step (idle [.host (.inRead 1048576)])) (fun _ => true) = false ∧
    next (step (idle [.host (.outWrite 1442065 1)])) (fun _ => true) = true ∧
    next (step (idle [.host (.outRead 1442066)])) (fun _ => true) = false := by decide

theorem witness_InHoldsTheLastHostWrite :
    1048575 < (idle []).cfg.inMemBytes ∧
    (idle [.host (.inWrite 1048575 1)]).moves = .host (.inWrite 1048575 1) :: [] ∧
    Memory.read (busy 1 [0x41] 4 4).inMem 0 = some 0x41 ∧
    ({ busy 1 [0x41] 4 4 with moves := [.host (.inRead 0)] } : State).moves = .host (.inRead 0) :: [] ∧
    (∀ x b r, (finished [.host (.regWrite 32 0 3)]).moves ≠ .host (.inWrite x b) :: r) ∧
    (∀ r, (finished [.host (.regWrite 32 0 3)]).moves ≠ .reset :: r) ∧
    (∃ t, step (finished [.host (.regWrite 32 0 3)]) = .next t) :=
  ⟨by decide, rfl, rfl, rfl, by simp [finished], by simp [finished], _, rfl⟩

theorem witness_UnwrittenInReadIsAFreshDraw :
    0 < (idle []).cfg.inMemBytes ∧ Memory.read (idle []).inMem 0 = none ∧
    (idle [.host (.inRead 0), .host (.inRead 0)]).moves = .host (.inRead 0) :: .host (.inRead 0) :: [] := by decide

theorem witness_OutReadsReturnTheOutputOrAFreeDraw :
    (finished [.host (.outRead 0)]).Inv ∧ (finished [.host (.outRead 1)]).Inv ∧ 1 < (finished []).cfg.outMemBytes ∧
    (finished [.host (.outRead 0)]).moves = .host (.outRead 0) :: [] ∧
    ((finished [.host (.outRead 0)]).run = .done ∧ 0 < (finished [.host (.outRead 0)]).outLen.toNat) ∧
    (finished [.host (.outRead 1)]).moves = .host (.outRead 1) :: [] ∧
    ¬ ((finished [.host (.outRead 1)]).run = .done ∧ 1 < (finished [.host (.outRead 1)]).outLen.toNat) ∧
    (finished [.host (.outWrite 0 1)]).moves = .host (.outWrite 0 1) :: [] :=
  ⟨finished_inv _, finished_inv _, by decide, rfl, by decide, rfl, by decide, rfl⟩

theorem witness_LoadGivesACommandItsInput :
    (idle (HostLine.load [0x41, 0x42]).moves).run ≠ .busy ∧ [0x41#8, 0x42#8].length ≤ (idle []).cfg.inMemBytes ∧
    (idle (HostLine.load [0x41, 0x42]).moves).moves = (HostLine.load [0x41, 0x42]).moves ++ [] := by decide

theorem witness_HostRunSeesTheOutcomeOfItsCommand :
    (idle (hostRun [0x41] 4 4 1 2)).run ≠ .busy ∧ [0x41#8].length ≤ (idle []).cfg.inMemBytes ∧
    (idle (hostRun [0x41] 4 4 1 2)).moves = hostRun [0x41] 4 4 1 2 ++ [] := by decide

theorem witness_EngineTurnRunsTheFetchedInstruction :
    (busy 1 [] 4 4).run = .busy ∧ (busy 1 [] 4 4).work.stage = .command ∧
    (decoding 2 4 4 [] { src := [0x20, 0x80], pos := 0 }).work.stage = .lzssBody ∧
    decode (.token (clog2 4) (clog2 4)) { src := [0x20, 0x80], pos := 0 } =
      .ok (.lit 0x41, { src := [0x20, 0x80], pos := 9 }) ∧
    (State.reset.withFetchWord 8 1).work.stage = .header 1 ∧ (State.reset.withFetchWord 8 1).run = .busy ∧
    decode (.container 1) (State.reset.withFetchWord 8 1).work.reader =
      .ok (.lzssContainer 0 0 0, { src := 1 :: List.replicate 12 0, pos := 104 }) := by decide

theorem witness_OneEngineTurnEndsTheCommand :
    (busy 1 [] 4 4).run = .busy ∧ (busy 1 [] 4 4).work.stage = .command ∧ (busy 1 [] 4 4).moves = [] ∧
    (idle [.engine]).run ≠ .busy ∧ (idle [.engine]).moves = .engine :: [] := by decide

theorem witness_OnlyUndefinedHostAccessesStop :
    (∀ t, step (idle [.host (.regRead 32 0x20)]) ≠ .next t) ∧ (∀ t, step (idle [.host (.inRead 1048576)]) ≠ .next t) :=
  have h1 : step (idle [.host (.regRead 32 0x20)]) = .refused .registerAccess := rfl
  have h2 : step (idle [.host (.inRead 1048576)]) = .refused .bufferAccess := rfl
  ⟨fun t => by simp [h1], fun t => by simp [h2]⟩

theorem witness_OutcomePersistsUntilTheNextStart :
    ∃ t, (finished [.host (.regWrite 32 8 5)]).run = .done ∧ step (finished [.host (.regWrite 32 8 5)]) = .next t ∧
      (∀ v rest, (finished [.host (.regWrite 32 8 5)]).moves ≠ .host (.regWrite 32 0x00 v) :: rest) ∧
      (∀ rest, (finished [.host (.regWrite 32 8 5)]).moves ≠ .reset :: rest) :=
  ⟨_, rfl, rfl, by simp [finished], by simp [finished]⟩

/-- Vectors C2, C4 and C6: the words 0x0, 0x13 and 0x7, and a word with every ignored bit set. -/
theorem witness_CommandIsSelectedByTheLowFourBits :
    (0x00000000#32).toNat % 16 = 0 ∧ (0x00000013#32).toNat % 16 = 3 ∧ 7 ≤ (0x00000007#32).toNat % 16 ∧
    (0xFFFFFFF6#32).toNat % 16 = 6 ∧ (0x00000001#32).toNat % 16 = 1 ∧ (0x00000002#32).toNat % 16 = 2 ∧
    (0x00000004#32).toNat % 16 = 4 ∧ (0x00000005#32).toNat % 16 = 5 ∧ 7 ≤ (0x0000000F#32).toNat % 16 := by decide

theorem witness_DecodeOfEncodeGivesTheInstruction :
    wellFormed .command (.reservedCommand 15) = true ∧ wellFormed (.token 0 0) (.lit 0xFF) = true ∧
    wellFormed (.token 0 0) (.matchTok 1 1) = true ∧ wellFormed (.token 32 32) (.matchTok (2 ^ 32) (2 ^ 32)) = true := by
  decide +kernel

theorem witness_DecodeOfEncodeGivesTheContainer :
    wellFormed (.container 1) (.lzssContainer 0 0xFFFFFFFF 1) = true ∧
    wellFormed (.container 2) (.huffmanContainer 3 (table 0x7A [1])) = true ∧
    wellFormed (.container 3) (.hsContainer 3 (table 0x7A [255])) = true := by decide +kernel

theorem witness_FieldsReadBackAsWritten :
    (∀ f ∈ [(0, 1), (0x41, 8), (0, 0)], f.1 < 2 ^ f.2) ∧
    writeFields .out 2 [(0, 1), (0x41, 8), (0, 0)] = .ok [0x20, 0x80] := by decide

/-- In kind, vectors B11 to B13: a source that ends right after its padding, and one with a padding bit set. -/
theorem witness_CheckEndAcceptsExactlyZeroPadding :
    checkEnd ⟨[0x20, 0x80], 9⟩ = .ok () ∧ checkEnd ⟨[0x20, 0x81], 9⟩ ≠ .ok () ∧ checkEnd ⟨[0x20, 0x80], 8⟩ ≠ .ok () := by
  decide

/-- Vectors M3 and M7. -/
theorem witness_FindMatchIsTheNearestLongestMatch :
    findMatch [0x61, 0x61, 0x61, 0x61, 0x61, 0x61] 1 4 8 = some (1, 5) ∧
    isMatchLength [0x61, 0x61, 0x61, 0x61, 0x61, 0x61] 1 1 5 5 ∧
    findMatch [0x61, 0x61, 0x61, 0x61, 0x61, 0x61] 1 4 2 = none := by decide

/-- Vector E3's configuration, D = L = 1. -/
theorem witness_LzssCompressWritesTheContainer :
    (busy 1 [0x41, 0x41] 1 1).cfg.Valid ∧ (busy 1 [0x41, 0x41] 1 1).inLen.toNat ≤ (busy 1 [0x41, 0x41] 1 1).cfg.inMemBytes ∧
    (busy 1 [0x41, 0x41] 1 1).legalConfig := by decide

/-- Vector E5. -/
theorem witness_LzssContainerSize :
    lzssEncode .out 15 [0x41] 4 4 = .ok [1, 0, 0, 0, 1, 0, 0, 0, 4, 0, 0, 0, 4, 0x20, 0x80] := by decide +kernel

/-- Vector E2 as a token sequence. -/
theorem witness_LzssDecompressExpandsTheTokens :
    (busy 2 [1, 0, 0, 0, 8, 0, 0, 0, 4, 0, 0, 0, 8, 0x20, 0x90, 0xAD] 0 0).hasInput
      (packBits (lzssBits 8 4 8 [.literal 0x41, .literal 0x42, .copy 2 6])) ∧
    expandTokens 8 4 8 [.literal 0x41, .literal 0x42, .copy 2 6] [] =
      some [0x41, 0x42, 0x41, 0x42, 0x41, 0x42, 0x41, 0x42] ∧
    8 ≤ (busy 2 [] 0 0).cfg.outMemBytes ∧ 16 ≤ (busy 2 [] 0 0).cfg.inMemBytes := by decide +kernel

/-- The bits after the last legal token in vectors L11 (padding), L12 (trailing byte), L16 (illegal match) and L20 (a match
flag and 6 bits where 12 are needed). -/
def restL11 : List Bool := [true, false, false, false, false, false, false]
def restL12 : List Bool := List.replicate 15 false
def restL16 : List Bool := [true, false, false, false, true, false, false]
def restL20 : List Bool := restL11

theorem witness_LzssDecompressExpandsTheTokens_malformed :
    (expandTokens 1 4 4 [.literal 0x41] [] = some [0x41] ∧
      packBits (lzssBits 1 4 4 [.literal 0x41] ++ restL11) = [1, 0, 0, 0, 1, 0, 0, 0, 4, 0, 0, 0, 4, 0x20, 0xC0] ∧
      (lzssBits 1 4 4 [.literal 0x41] ++ restL11).length % 8 = 0 ∧
      tokenDefect 1 4 4 [0x41] restL11 = some .corruptStream) ∧
    (packBits (lzssBits 1 4 4 [.literal 0x41] ++ restL12) = [1, 0, 0, 0, 1, 0, 0, 0, 4, 0, 0, 0, 4, 0x20, 0x80, 0] ∧
      tokenDefect 1 4 4 [0x41] restL12 = some .corruptStream) ∧
    (packBits (lzssBits 4 4 4 [.literal 0x41] ++ restL16) = [1, 0, 0, 0, 4, 0, 0, 0, 4, 0, 0, 0, 4, 0x20, 0xC4] ∧
      tokenDefect 4 4 4 [0x41] restL16 = some .corruptStream) ∧
    (packBits (lzssBits 5 1024 4 [.literal 0x41] ++ restL20) = [1, 0, 0, 0, 5, 0, 0, 4, 0, 0, 0, 0, 4, 0x20, 0xC0] ∧
      tokenDefect 5 1024 4 [0x41] restL20 = some .unexpectedEndOfInput) ∧
    (busy 2 [1, 0, 0, 0, 1, 0, 0, 0, 4, 0, 0, 0, 4, 0x20, 0xC0] 0 0).hasInput
      [1, 0, 0, 0, 1, 0, 0, 0, 4, 0, 0, 0, 4, 0x20, 0xC0] :=
  ⟨by decide +kernel, by decide +kernel, by decide +kernel, by decide +kernel, busy_hasInput 2 _ 0 0 (by decide)⟩

theorem witness_LzssRoundTrip :
    Params.informative.Valid ∧ [0x41#8].length ≤ Params.informative.inMemBytes ∧
    65536 ≤ Params.informative.maxDictSize ∧ 1 ≤ Params.informative.maxLookaheadSize := by decide

theorem witness_LzssHeaderChecksInOrder :
    byteAt [2] 0 ≠ 0x01 ∧ byteAt [1] 0 = 0x01 ∧
    be32 [1, 0, 0, 0, 1, 0, 0, 0, 0, 0, 0, 0, 4] 5 = 0 ∧ be32 [1, 0, 0, 0, 1, 0, 0, 0, 4, 0, 0, 0, 0] 9 = 0 ∧
    (be32 [1, 0, 0, 0, 5, 0, 0, 0, 4, 0, 0, 0, 4] 5 ≠ 0 ∧ be32 [1, 0, 0, 0, 5, 0, 0, 0, 4, 0, 0, 0, 4] 9 ≠ 0 ∧
      be32 [1, 0, 0, 0, 5, 0, 0, 0, 4, 0, 0, 0, 4] 1 = 5) := by decide

theorem witness_MatchCopiesByteByByte :
    1 ≤ 2 ∧ 2 ≤ (decoding 7 2 5 [1, 2] ⟨[], 0⟩).work.lzss.d ∧ 2 ≤ (decoding 7 2 5 [1, 2] ⟨[], 0⟩).work.lzss.out.length ∧
    3 ≤ 5 ∧ 5 ≤ (decoding 7 2 5 [1, 2] ⟨[], 0⟩).work.lzss.l ∧
    (decoding 7 2 5 [1, 2] ⟨[], 0⟩).work.lzss.out.length + 5 ≤ (decoding 7 2 5 [1, 2] ⟨[], 0⟩).work.lzss.n := by decide

theorem witness_IllegalMatchIsCorruptStream :
    (decoding 9 2 5 [1, 2, 3] ⟨[], 0⟩).work.lzss.d < 3 ∧ (decoding 9 4 5 [1] ⟨[], 0⟩).work.lzss.out.length < 2 ∧
    (decoding 9 2 5 [1] ⟨[], 0⟩).work.lzss.l < 6 ∧
    (decoding 5 2 5 [1] ⟨[], 0⟩).work.lzss.n < (decoding 5 2 5 [1] ⟨[], 0⟩).work.lzss.out.length + 5 := by decide

theorem witness_LzssContainerStartsTheTokenDecoder :
    (1442066#32).toNat ≤ (busy 2 [] 0 0).cfg.outMemBytes ∧ (busy 2 [] 0 0).cfg.outMemBytes < (1442067#32).toNat := by decide

/-- Vector F2: one present symbol, 0x7A, and an absent one. -/
theorem witness_CodeLengthsOfPresentSymbols :
    (∃ b ∈ [0x7A#8, 0x7A#8], b.toNat = 0x7A) ∧ (∀ b ∈ [0x7A#8, 0x7A#8], b.toNat ≠ 255) := by decide

/-- Vectors F7 (three present symbols), F2 (one) and F1 (none). -/
theorem witness_BuiltLengthsMeetKraft :
    2 ≤ presentCount (freqTable [0x61, 0x61, 0x62, 0x62, 0x63]) ∧ presentCount (freqTable [0x7A, 0x7A]) = 1 ∧
    presentCount (freqTable []) = 0 := by decide +kernel

/-- Vectors K3 and K4. -/
theorem witness_CanonicalCodesArePrefixFree :
    ((∀ l ∈ [255, 255, 1], l ≤ 255) ∧ kraft [255, 255, 1] = true) ∧ kraft [1, 2, 3, 4, 4] = true := by decide +kernel

theorem witness_HuffmanCompressWritesTheContainer :
    (busy 3 [0x41] 0 0).inLen.toNat ≤ (busy 3 [0x41] 0 0).cfg.inMemBytes ∧
    261 + ((codeBits (lensOfBytes (lensFor (inputBytes (busy 3 [0x41] 0 0)))) (inputBytes (busy 3 [0x41] 0 0))).length + 7) / 8
      ≤ (busy 3 [0x41] 0 0).cfg.outMemBytes ∧
    261 < 261 + ((codeBits (lensOfBytes (lensFor [0x41])) [0x41]).length + 7) / 8 := by decide +kernel

/-- Vector D7. -/
theorem witness_HuffmanDecompressReadsTheCodes :
    (table 0x7A [1]).length = 256 ∧ kraft (lensOfBytes (table 0x7A [1])) = true ∧
    (∀ b ∈ [0x7A#8, 0x7A#8, 0x7A#8], byteAt (table 0x7A [1]) b.toNat ≠ 0) ∧
    packBits (huffmanBits 3 (table 0x7A [1]) [0x7A, 0x7A, 0x7A]) = [2, 0, 0, 0, 3] ++ table 0x7A [1] ++ [0] ∧
    (busy 4 ([2, 0, 0, 0, 3] ++ table 0x7A [1] ++ [0]) 0 0).hasInput ([2, 0, 0, 0, 3] ++ table 0x7A [1] ++ [0]) :=
  ⟨by decide +kernel, by decide +kernel, by decide +kernel, by decide +kernel,
    busy_hasInput 4 _ 0 0 (by decide +kernel)⟩

/-- The input of vector D8: three codes 0 of the symbol 0x7A and the padding 00001. -/
def bitsD8 : List Bool := huffmanBits 3 (table 0x7A [1]) [0x7A, 0x7A, 0x7A] ++ [false, false, false, false, true]

/-- Vectors D6 (no code matches), D8 (padding), D9 (trailing byte) and D10 (8 bits for 9 symbols). -/
theorem witness_HuffmanDecompressReadsTheCodes_malformed :
    (codeDefect 1 (lensOfBytes (table 0x7A [1])) [] [true, false, false, false, false, false, false, false] =
        some .corruptStream ∧
      codeDefect 3 (lensOfBytes (table 0x7A [1])) [0x7A, 0x7A, 0x7A] [false, false, false, false, true] =
        some .corruptStream ∧
      codeDefect 3 (lensOfBytes (table 0x7A [1])) [0x7A, 0x7A, 0x7A] (List.replicate 13 false) = some .corruptStream ∧
      codeDefect 9 (lensOfBytes (table 0x7A [1])) (List.replicate 8 0x7A) [] = some .unexpectedEndOfInput) ∧
    (∃ l ∈ table 0x7A [1], l ≠ 0) ∧
    packBits bitsD8 = [2, 0, 0, 0, 3] ++ table 0x7A [1] ++ [1] ∧ bitsD8.length % 8 = 0 ∧
    (busy 4 (packBits bitsD8) 0 0).hasInput (packBits bitsD8) :=
  ⟨by decide +kernel, by decide +kernel, by decide +kernel, by decide +kernel, busy_hasInput 4 _ 0 0 (by decide +kernel)⟩

theorem witness_HuffmanRoundTrip :
    hufEncode .out 300 0x02 [0x41, 0x42] = .ok (okBytes (hufEncode .out 300 0x02 [0x41, 0x42])) ∧
    (okBytes (hufEncode .out 300 0x02 [0x41, 0x42])).length = 262 := by decide +kernel

/-- Vectors D12, D13, D11, D2, D3, D15 and D5. -/
theorem witness_HuffmanHeaderChecksInOrder :
    byteAt (3 :: table 0 []) 0 ≠ 0x02 ∧ byteAt [2] 0 = 0x02 ∧
    2 ^ 255 < kraftSum (lensOfBytes (headerLens ([2, 0, 0, 0, 1] ++ table 0x61 [1, 1, 1]))) ∧
    (0 < be32 ([2, 0, 0, 0, 1] ++ table 0 []) 1 ∧ ∀ l ∈ headerLens ([2, 0, 0, 0, 1] ++ table 0 []), l = 0) ∧
    (kraftSum (lensOfBytes (headerLens ([2, 0, 0, 0, 1] ++ table 0x7A [1]))) ≤ 2 ^ 255 ∧
      (∃ l ∈ headerLens ([2, 0, 0, 0, 1] ++ table 0x7A [1]), l ≠ 0) ∧ be32 ([2, 0, 0, 0, 1] ++ table 0x7A [1]) 1 = 1) ∧
    be32 ([2, 0, 0, 0, 0] ++ table 0x7A [1]) 1 = 0 := by decide +kernel

theorem witness_HuffmanContainersStartTheSymbolDecoder :
    kraftSum (lensOfBytes (table 0x7A [1])) ≤ 2 ^ 255 ∧ (∃ l ∈ table 0x7A [1], l ≠ 0) ∧
    (1442066#32).toNat ≤ (busy 4 [] 0 0).cfg.outMemBytes ∧ (busy 6 [] 0 0).cfg.innerMemBytes < (1441806#32).toNat ∧
    2 ^ 255 < kraftSum (lensOfBytes (table 0x61 [1, 1, 1])) ∧ (∀ l ∈ table 0 [], l = 0) := by
  decide +kernel

/-- Vector S1. -/
theorem witness_HsCompressWritesTheNestedContainer :
    (busy 5 [] 4 4).cfg.Valid ∧ (busy 5 [] 4 4).legalConfig ∧
    (busy 5 [] 4 4).inLen.toNat ≤ (busy 5 [] 4 4).cfg.inMemBytes ∧ tokens (inputBytes (busy 5 [] 4 4)) 4 4 = [] := by
  decide +kernel

theorem witness_HsDecompressGivesTheInputBack :
    hsEncode Params.informative [] 4 4 = .ok vectorS1 ∧ (busy 6 vectorS1 0 0).hasInput vectorS1 ∧
    (busy 6 vectorS1 0 0).inLen.toNat ≤ (busy 6 vectorS1 0 0).cfg.inMemBytes :=
  ⟨by decide +kernel, busy_hasInput 6 _ 0 0 (by decide +kernel), by decide +kernel⟩

/-- A code-length table other than the one HSCompress builds: every symbol has length 8. -/
def flat8 : List Byte := List.replicate 256 8

/-- The inner container of vector L10 under the table flat8. -/
theorem witness_HsDecompressGivesTheInputBack_anyTable :
    flat8.length = 256 ∧ kraft (lensOfBytes flat8) = true ∧
    packBits (lzssBits 1 4 4 [.literal 0x41]) = [1, 0, 0, 0, 1, 0, 0, 0, 4, 0, 0, 0, 4, 0x20, 0x80] ∧
    (∀ b ∈ packBits (lzssBits 1 4 4 [.literal 0x41]), byteAt flat8 b.toNat ≠ 0) ∧
    expandTokens 1 4 4 [.literal 0x41] [] = some [0x41] ∧
    (busy 6 (packBits (hsBits 15 flat8 (packBits (lzssBits 1 4 4 [.literal 0x41])))) 0 0).hasInput
      (packBits (hsBits 15 flat8 (packBits (lzssBits 1 4 4 [.literal 0x41])))) :=
  ⟨by decide +kernel, by decide +kernel, by decide +kernel, by decide +kernel, by decide,
    busy_hasInput 6 _ 0 0 (by decide +kernel)⟩

/-- An outer body with the padding of vector D8, and the inner containers of vectors L11 and L20. -/
theorem witness_HsDecompressRejectsMalformedBodies :
    (codeDefect 3 (lensOfBytes (table 0x7A [1])) [0x7A, 0x7A, 0x7A] [false, false, false, false, true] =
        some .corruptStream ∧
      (hsBits 3 (table 0x7A [1]) [0x7A, 0x7A, 0x7A] ++ [false, false, false, false, true]).length % 8 = 0) ∧
    (packBits (lzssBits 1 4 4 [.literal 0x41] ++ restL11)).length = (15#32).toNat ∧
    tokenDefect 1 4 4 [0x41] restL11 = some .corruptStream ∧
    tokenDefect 5 1024 4 [0x41] restL20 = some .unexpectedEndOfInput ∧
    (busy 6 (packBits (hsBits 15 flat8 (packBits (lzssBits 1 4 4 [.literal 0x41] ++ restL11)))) 0 0).hasInput
      (packBits (hsBits 15 flat8 (packBits (lzssBits 1 4 4 [.literal 0x41] ++ restL11)))) :=
  ⟨by decide +kernel, by decide, by decide, by decide, busy_hasInput 6 _ 0 0 (by decide +kernel)⟩

theorem witness_HsRoundTrip :
    Params.informative.Valid ∧ [0x41#8].length ≤ Params.informative.inMemBytes ∧
    1 ≤ Params.informative.maxDictSize ∧ 65536 ≤ Params.informative.maxLookaheadSize := by decide

/-- Vectors S7 and S11. -/
theorem witness_HsDecompressReportsTheFailingStage :
    (busy 6 [2] 0 0).hasInput [2] ∧ hufDecode 0x03 1441805 [2] = .error .corruptHeader ∧
    hufDecode 0x03 1441805 ([3, 0, 0, 0, 13] ++ table 2 [1] ++ [0, 0]) = .ok (List.replicate 13 2) ∧
    lzssDecode 1442066 (List.replicate 13 2) = .error .corruptStream := by decide +kernel

/-- Vectors C3, C5 and C7. -/
theorem witness_StartChecksComeFirst :
    reservedOp 0 = true ∧ reservedOp 7 = true ∧ reservedOp 15 = true ∧
    ({ busy 1 [] 0 0 with inLen := 1048577 } : State).cfg.inMemBytes <
      ({ busy 1 [] 0 0 with inLen := 1048577 } : State).inLen.toNat := by decide

/-- Vectors E8 to E10. -/
theorem witness_IllegalConfigurationIsRejected :
    ¬ (busy 1 [0x61] 0 4).legalConfig ∧ ¬ (busy 1 [0x61] 4 0).legalConfig ∧ ¬ (busy 1 [0x61] 65537 4).legalConfig ∧
    ¬ (busy 5 [0x61] 4 65537).legalConfig ∧ (busy 5 [0x61] 65536 1).legalConfig ∧
    (busy 1 [0x61] 0 4).inLen.toNat ≤ (busy 1 [0x61] 0 4).cfg.inMemBytes := by decide

theorem witness_WrongContainerIdentifierIsRejected :
    (1 ≤ (busy 2 [2] 0 0).inLen.toNat ∧ Memory.read (busy 2 [2] 0 0).inMem 0 = some 2) ∧
    (busy 6 ([3, 0, 0, 0, 13] ++ table 2 [1] ++ [0, 0]) 0 0).hasInput
      ([3, 0, 0, 0, 13] ++ table 2 [1] ++ [0, 0]) ∧
    hufDecode 0x03 (busy 6 [] 0 0).cfg.innerMemBytes ([3, 0, 0, 0, 13] ++ table 2 [1] ++ [0, 0]) =
      .ok (List.replicate 13 2) ∧
    byteAt (List.replicate 13 2) 0 ≠ 0x01 :=
  ⟨by decide, busy_hasInput 6 _ 0 0 (by decide +kernel), by decide +kernel, by decide⟩

theorem witness_CommandsEndInOneOutcomeAndKeepTheirOperands :
    commandOp .hsDecompress ≠ none ∧ commandOp (.reservedCommand 0) ≠ none := by decide

/-- Two states that agree on the operands and differ in OUT, INNER, the hidden state and the draws. -/
theorem witness_OutcomeDependsOnTheOperandsAlone :
    commandOp .lzssCompress ≠ none ∧ (busy 1 [0x41] 4 4).hasInput [0x41] ∧
    ({ busy 1 [0x41] 4 4 with
        outMem := [(0, 1)], innerMem := [(0, 1)], draws := 9, work := (decoding 5 4 4 [1] ⟨[], 0⟩).work } : State).hasInput
      [0x41] := by decide

theorem witness_CompressionNeverFails :
    (busy 5 [0x41] 4 4).cfg.Valid ∧ (busy 5 [0x41] 4 4).legalConfig ∧
    (busy 5 [0x41] 4 4).inLen.toNat ≤ (busy 5 [0x41] 4 4).cfg.inMemBytes := by decide

theorem witness_EveryStepKeepsTheInvariant :
    ∃ t, (finished [.host (.regWrite 32 0 3)]).Inv ∧ step (finished [.host (.regWrite 32 0 3)]) = .next t :=
  ⟨_, finished_inv _, rfl⟩

theorem witness_NoStepChangesTheParameters : ∃ t, step (finished [.reset]) = .next t := ⟨_, rfl⟩

theorem witness_StagedDecoderRefinesTheCompletionStep :
    (State.reset.withFetchWord 8 1).run = .busy ∧ (State.reset.withFetchWord 8 1).work.stage = .header 1 ∧
    (State.reset.withFetchWord 8 3).run = .busy ∧ (State.reset.withFetchWord 8 3).work.stage = .header 3 := by decide +kernel

end Sys2Proof.Tests
end

section
/-! PROOFS. What a command's outcome depends on (00_scope.md R16) and what no step changes (R6). -/

namespace Sys2Proof.Machine

/-! ## Exec of 60_exceptions.md R140 -/

/-- The value of Exec for the command `i` in the state `s` (60_exceptions.md R140). An instruction that is none of the six
commands gets the value of a reserved OP (R139). -/
def commandValue (i : Instr) (s : State) : Except ErrKind (List Byte) :=
  match i with
  | .lzssCompress => withConfiguredInput 1 s (lzssEncode .out s.cfg.outMemBytes)
  | .lzssDecompress => withInput 2 s (lzssDecode s.cfg.outMemBytes)
  | .huffmanCompress => withInput 3 s (hufEncode .out s.cfg.outMemBytes Config.identHuffman)
  | .huffmanDecompress => withInput 4 s (hufDecode Config.identHuffman s.cfg.outMemBytes)
  | .hsCompress => withConfiguredInput 5 s (hsEncode s.cfg)
  | .hsDecompress => withInput 6 s (hsDecode s.cfg)
  | _ => .error .invalidCommand

/-- Every command row of the opcode table is the completion step for the value of Exec (10_state.md R31). -/
theorem exec_command (i : Instr) (s : State) (h : commandOp i ≠ none) :
    exec i s = .next (complete (commandValue i s) s) := by
  cases i with
  | lzssCompress | lzssDecompress | huffmanCompress | huffmanDecompress | hsCompress | hsDecompress
  | reservedCommand => rfl
  | lit | matchTok | lzssContainer | huffmanContainer | hsContainer => exact absurd rfl h

/-- What a command latches (00_scope.md R16), and the OPEN parameters, are the same in both states. -/
structure SameOperands (s s' : State) : Prop where
  input : inputBytes s = inputBytes s'
  inLen : s.inLen = s'.inLen
  dictSize : s.dictSize = s'.dictSize
  lookaheadSize : s.lookaheadSize = s'.lookaheadSize
  cfg : s.cfg = s'.cfg

/-- Two states whose hosts have written the same input, with the same sizes and parameters, give the same operands. -/
theorem SameOperands.of_hasInput {s s' : State} {input : List Byte} (h : s.hasInput input) (h' : s'.hasInput input)
    (hd : s.dictSize = s'.dictSize) (hl : s.lookaheadSize = s'.lookaheadSize) (hc : s.cfg = s'.cfg) :
    SameOperands s s' where
  input := by rw [inputBytes_of_hasInput s input h, inputBytes_of_hasInput s' input h']
  inLen := BitVec.eq_of_toNat_eq (h.1.trans h'.1.symm)
  dictSize := hd
  lookaheadSize := hl
  cfg := hc

theorem withInput_congr {s s' : State} (h : SameOperands s s') (op : BitVec 4)
    (stages : List Byte → Except ErrKind (List Byte)) : withInput op s stages = withInput op s' stages := by
  rw [withInput, withInput, h.input, h.inLen, h.cfg]

theorem withConfiguredInput_congr {s s' : State} (h : SameOperands s s') (op : BitVec 4)
    (stages : List Byte → Nat → Nat → Except ErrKind (List Byte)) :
    withConfiguredInput op s stages = withConfiguredInput op s' stages := by
  rw [withConfiguredInput, withConfiguredInput, withInput_congr h, h.dictSize, h.lookaheadSize, h.cfg]

/-- Exec is a function of the opcode and the latched operands alone (00_scope.md R16). -/
theorem commandValue_congr {s s' : State} (h : SameOperands s s') (i : Instr) :
    commandValue i s = commandValue i s' := by
  cases i with
  | lzssCompress | hsCompress => simp only [commandValue, withConfiguredInput_congr h, h.cfg]
  | lzssDecompress | huffmanCompress | huffmanDecompress | hsDecompress =>
    simp only [commandValue, withInput_congr h, h.cfg]
  | reservedCommand | lit | matchTok | lzssContainer | huffmanContainer | hsContainer => rfl

/-- What the host sees of a completion step does not depend on the state it is taken in. -/
theorem complete_visible (r : Except ErrKind (List Byte)) (s s' : State) :
    (complete r s).run = (complete r s').run ∧ (complete r s).err = (complete r s').err ∧
    (complete r s).outLen = (complete r s').outLen ∧ (complete r s).outMem = (complete r s').outMem := by
  cases r <;> exact ⟨rfl, rfl, rfl, rfl⟩

/-- Settles O54: both commands are the completion step for the same value of Exec. -/
theorem outcomeDependsOnTheOperandsAlone : Obligations.OutcomeDependsOnTheOperandsAlone := by
  intro i s s' t t' input hi hs hs' hd hl hc ht ht'
  have hv : commandValue i s = commandValue i s' := commandValue_congr (.of_hasInput hs hs' hd hl hc) i
  rw [exec_command i s hi] at ht
  rw [exec_command i s' hi, ← hv] at ht'
  cases ht
  cases ht'
  obtain ⟨hrun, herr, hlen, hout⟩ := complete_visible (commandValue i s) s s'
  exact ⟨hrun, herr, hlen, fun a => by rw [hout]⟩

/-! ## What the engine never changes -/

theorem complete_keepsOperands (r : Except ErrKind (List Byte)) (s : State) : s.keepsOperands (complete r s) := by
  cases r with
  | ok out => exact completeDone_keepsOperands out s
  | error k => exact raiseError_keepsOperands k s

/-- A change of the hidden state and of INNER alone keeps the operands. -/
theorem keepsOperands_of_work (s : State) (w : Work) (m : Memory) :
    s.keepsOperands { s with work := w, innerMem := m } :=
  ⟨rfl, rfl, rfl, rfl, fun _ => rfl, rfl, rfl, rfl⟩

theorem startHuffBody_keepsOperands (ident : Byte) (cap : Nat) (n : Word) (lens : List Byte) (s : State) :
    s.keepsOperands (startHuffBody ident cap n lens s) := by
  unfold startHuffBody
  split
  · exact raiseError_keepsOperands _ s
  · exact keepsOperands_of_work s _ _

/-- No instruction changes an operand, a byte of IN or the parameters (10_state.md R26, R27; 60_exceptions.md R143). -/
theorem exec_keepsOperands (i : Instr) (s t : State) (h : exec i s = .next t) : s.keepsOperands t := by
  by_cases hi : commandOp i = none
  case neg =>
    rw [exec_command i s hi] at h
    cases h
    exact complete_keepsOperands _ s
  case pos =>
    cases i with
    | lzssCompress | lzssDecompress | huffmanCompress | huffmanDecompress | hsCompress | hsDecompress
    | reservedCommand => cases hi
    | lit b =>
      cases h
      exact keepsOperands_of_work s _ _
    | matchTok d len =>
      simp only [exec, execMatchTok] at h
      split at h <;> cases h
      · exact raiseError_keepsOperands _ s
      · exact keepsOperands_of_work s _ _
    | lzssContainer n d l =>
      simp only [exec, execLzssContainer] at h
      split at h <;> cases h
      · exact raiseError_keepsOperands _ s
      · exact keepsOperands_of_work s _ _
    | huffmanContainer n lens | hsContainer n lens =>
      cases h
      exact startHuffBody_keepsOperands _ _ n lens s

theorem endBody_keepsOperands (out : List Byte) (s : State) : s.keepsOperands (endBody out s) := by
  unfold endBody
  split
  · exact raiseError_keepsOperands _ s
  · exact completeDone_keepsOperands out s

theorem endOuterBody_keepsOperands (inner : List Byte) (s : State) : s.keepsOperands (endOuterBody inner s) := by
  unfold endOuterBody
  split
  · exact raiseError_keepsOperands _ s
  · exact keepsOperands_of_work s _ _

theorem huffTurn_keepsOperands (ident : Byte) (s : State) : s.keepsOperands (huffTurn ident s) := by
  unfold huffTurn
  split
  · split
    · exact raiseError_keepsOperands _ s
    · exact keepsOperands_of_work s _ _
  · split
    · exact endOuterBody_keepsOperands _ s
    · exact endBody_keepsOperands _ s

/-- No turn of the engine changes an operand, a byte of IN or the parameters. -/
theorem engineTurn_keepsOperands (s t : State) (h : engineTurn s = .next t) : s.keepsOperands t := by
  rcases engineTurn_cases s with ⟨-, he⟩ | ⟨ident, -, ⟨i, rd, -, he⟩ | ⟨e, he⟩⟩ |
    ⟨-, ⟨-, i, rd, -, he⟩ | ⟨-, he⟩ | ⟨-, he⟩⟩ | ⟨ident, -, he⟩ <;> rw [he] at h
  · exact exec_keepsOperands _ s t h
  · exact exec_keepsOperands i (setReader rd s) t h
  · cases h; exact raiseError_keepsOperands _ s
  · exact exec_keepsOperands i (setReader rd s) t h
  · cases h; exact raiseError_keepsOperands _ s
  · cases h; exact endBody_keepsOperands _ s
  · cases h; exact huffTurn_keepsOperands ident s

/-! ## The parameters -/

theorem hostStep_cfg (a : HostAccess) (s t : State) (h : hostStep a s = .next t) : t.cfg = s.cfg := by
  rcases hostStep_cases a s t h with rfl | ⟨-, v, -, rfl⟩ | ⟨-, v, rfl | rfl | rfl⟩ | ⟨-, x, b, -, -, rfl⟩ | ⟨r, rfl⟩ | rfl <;>
    rfl

theorem engineTurn_cfg (s t : State) (h : engineTurn s = .next t) : t.cfg = s.cfg := by
  obtain ⟨-, -, -, -, -, hcfg, -, -⟩ := engineTurn_keepsOperands s t h
  exact hcfg

/-- Settles O58, by whose move the step is. -/
theorem noStepChangesTheParameters : Obligations.NoStepChangesTheParameters := by
  intro s t h
  rcases step_cases s t h with ⟨-, -, rfl⟩ | ⟨rest, -, -, rfl⟩ | ⟨-, -, he⟩ | ⟨a, rest, -, hh⟩ | ⟨rest, -, rfl⟩
  · rfl
  · rfl
  · exact engineTurn_cfg { s with moves := s.moves.tail } t he
  · exact hostStep_cfg a { s with moves := rest } t hh
  · rfl

end Sys2Proof.Machine
end

section
/-! PROOFS. One equation for each kind of move a step can take, and one for each access and each register (10_state.md
R18 to R31). -/

namespace Sys2Proof.Machine

/-! ## A step, by the move it takes -/

theorem step_of_host {s : State} {a : HostAccess} {rest : List Move} (hm : s.moves = .host a :: rest) :
    step s = hostStep a { s with moves := rest } := by
  simp only [step, hm]

/-- The engine's turn is enabled while STATE = BUSY (10_state.md R31). -/
theorem step_of_engine_of_busy {s : State} {rest : List Move} (hb : s.run = .busy) (hm : s.moves = .engine :: rest) :
    step s = engineTurn { s with moves := rest } := by
  simp only [step, hm, engineStep, if_pos hb]

theorem step_of_engine_of_not_busy {s : State} {rest : List Move} (hb : s.run ≠ .busy)
    (hm : s.moves = .engine :: rest) : step s = .next { s with moves := rest } := by
  simp only [step, hm, engineStep, if_neg hb]

/-- With no move to come the engine completes a running command (70_reset_and_hazards.md R160). -/
theorem step_of_no_move_of_busy {s : State} (hb : s.run = .busy) (hm : s.moves = []) : step s = engineTurn s := by
  simp only [step, hm, engineStep, if_pos hb]

/-- A turn of the engine that the next move names, or that no move comes before (log entry 6). -/
theorem step_of_turn {s : State} (hb : s.run = .busy) (hm : s.moves = [] ∨ ∃ rest, s.moves = .engine :: rest) :
    step s = engineTurn { s with moves := s.moves.tail } := by
  rcases hm with hm | ⟨rest, hm⟩
  · have htail : s.moves.tail = s.moves := by rw [hm]; rfl
    rw [htail]
    exact step_of_no_move_of_busy hb hm
  · rw [step_of_engine_of_busy hb hm, hm]; rfl

/-- A run takes one step and goes on. -/
theorem core_run_succ {s t : State} (h : step s = .next t) (k : Nat) : core.run (k + 1) s = core.run k t := by
  have hcore : core.step s = .next t := h
  simp only [Host.Core.run, hcore]

/-! ## Register accesses -/

/-- Every register is reached by a 32-bit access at its offset (10_state.md R18, 20_memory.md R43). -/
theorem regOfAccess_offset (r : Reg) : regOfAccess 32 r.offset = some r := by cases r <;> rfl

theorem step_of_regRead {s : State} {r : Reg} {rest : List Move} (hm : s.moves = .host (.regRead 32 r.offset) :: rest) :
    step s = .next (respond (.word (readReg r { s with moves := rest })) { s with moves := rest }) := by
  simp only [step_of_host hm, hostStep, regOfAccess_offset]

/-- A step that writes the register `r`, given by its offset. -/
theorem step_of_regWrite (r : Reg) {s : State} {v : Word} {rest : List Move}
    (hm : s.moves = .host (.regWrite 32 r.offset v) :: rest) :
    step s = .next (writeReg r v { s with moves := rest }) := by
  simp only [step_of_host hm, hostStep, regOfAccess_offset]

/-- While STATE = BUSY a register write changes nothing (10_state.md R26). -/
theorem step_of_regWrite_of_busy (r : Reg) {s : State} {v : Word} {rest : List Move} (hb : s.run = .busy)
    (hm : s.moves = .host (.regWrite 32 r.offset v) :: rest) : step s = .next { s with moves := rest } := by
  simp only [step_of_regWrite r hm, writeReg, if_pos hb]

theorem step_of_regWrite_of_not_busy (r : Reg) {s : State} {v : Word} {rest : List Move} (hb : s.run ≠ .busy)
    (hm : s.moves = .host (.regWrite 32 r.offset v) :: rest) :
    step s = .next (writeRegIdle r v { s with moves := rest }) := by
  simp only [step_of_regWrite r hm, writeReg, if_neg hb]

/-- The read-only registers and the reserved offsets take no write, in any state (10_state.md R25). -/
theorem writeReg_read_only (r : Reg) (v : Word) (s : State)
    (hr : r = .status ∨ r = .outLen ∨ r = .reserved18 ∨ r = .reserved1C) : writeReg r v s = s := by
  unfold writeReg
  split
  · rfl
  · rcases hr with rfl | rfl | rfl | rfl <;> rfl

/-- The register at 0x00 reads as CMD.OP (10_state.md R19). -/
theorem cmdWord_toNat (s : State) : (cmdWord s).toNat = s.cmdOp.toNat := by
  rw [cmdWord, BitVec.toNat_setWidth]
  exact Nat.mod_eq_of_lt (by omega)

/-- STATUS holds ERR in bits [7:4] and STATE in bits [1:0] (10_state.md R20). -/
theorem statusWord_toNat (s : State) : (statusWord s).toNat = s.err.toNat * 16 + s.run.code.toNat := by
  have herr : s.err.toNat < 2 ^ 4 := s.err.isLt
  have hrun : s.run.code.toNat < 2 ^ 2 := s.run.code.isLt
  have hor : s.err.toNat <<< 4 ||| s.run.code.toNat = s.err.toNat <<< 4 + s.run.code.toNat :=
    (Nat.shiftLeft_add_eq_or_of_lt (by omega) s.err.toNat).symm
  have hshift : s.err.toNat <<< 4 = s.err.toNat * 16 := Nat.shiftLeft_eq _ _
  rw [statusWord, BitVec.toNat_or, BitVec.toNat_shiftLeft, BitVec.toNat_setWidth, BitVec.toNat_setWidth,
    Nat.mod_eq_of_lt (show s.err.toNat < 2 ^ 32 by omega), Nat.mod_eq_of_lt (show s.run.code.toNat < 2 ^ 32 by omega),
    Nat.mod_eq_of_lt (show s.err.toNat <<< 4 < 2 ^ 32 by omega), hor, hshift]

/-- A CMD write takes the low four bits of the word (10_state.md R19). -/
theorem opBits_toNat (v : Word) : (v.extractLsb' 0 4).toNat = v.toNat % 16 := by
  simp [BitVec.extractLsb'_toNat]

/-! ## Buffer accesses -/

section
variable {s : State} {a : Nat} {b : Byte} {rest : List Move}

theorem step_of_inWrite (ha : a < s.cfg.inMemBytes) (hm : s.moves = .host (.inWrite a b) :: rest) :
    step s = .next (writeIn a b { s with moves := rest }) := by
  simp only [step_of_host hm, hostStep, if_pos ha]

theorem step_of_inRead (ha : a < s.cfg.inMemBytes) (hm : s.moves = .host (.inRead a) :: rest) :
    step s = .next (respondByte (Memory.read s.inMem a) { s with moves := rest }) := by
  simp only [step_of_host hm, hostStep, if_pos ha, readIn]

/-- A host write to OUT changes nothing (10_state.md R28). -/
theorem step_of_outWrite (ha : a < s.cfg.outMemBytes) (hm : s.moves = .host (.outWrite a b) :: rest) :
    step s = .next { s with moves := rest } := by
  simp only [step_of_host hm, hostStep, if_pos ha]

theorem step_of_outRead (ha : a < s.cfg.outMemBytes) (hm : s.moves = .host (.outRead a) :: rest) :
    step s = .next (respondByte (readOut a s) { s with moves := rest }) := by
  simp only [step_of_host hm, hostStep, if_pos ha, readOut]

end

/-! ## A turn of the engine, by the decoder stage in progress -/

theorem engineTurn_command {s : State} (hs : s.work.stage = .command) :
    engineTurn s = exec (decodeCommand (cmdWord s)) s := by
  simp only [engineTurn, fetch, hs]

theorem engineTurn_header {s : State} {ident : Byte} {i : Instr} {rd : Reader} (hs : s.work.stage = .header ident)
    (hd : decode (.container ident) s.work.reader = .ok (i, rd)) : engineTurn s = exec i (setReader rd s) := by
  simp only [engineTurn, fetch, hs, fetchContainer, hd]

theorem engineTurn_header_error {s : State} {ident : Byte} {e : DecodeError} (hs : s.work.stage = .header ident)
    (hd : decode (.container ident) s.work.reader = .error e) :
    engineTurn s = .next (raiseError (headerError ident e) s) := by
  simp only [engineTurn, fetch, hs, fetchContainer, hd]

theorem engineTurn_token {s : State} {i : Instr} {rd : Reader} (hs : s.work.stage = .lzssBody)
    (hlt : s.work.lzss.out.length < s.work.lzss.n)
    (hd : decode (.token (clog2 s.work.lzss.d) (clog2 s.work.lzss.l)) s.work.reader = .ok (i, rd)) :
    engineTurn s = exec i (setReader rd s) := by
  simp only [engineTurn, fetch, hs, fetchToken, if_pos hlt, hd]

theorem engineTurn_token_error {s : State} {e : DecodeError} (hs : s.work.stage = .lzssBody)
    (hlt : s.work.lzss.out.length < s.work.lzss.n)
    (hd : decode (.token (clog2 s.work.lzss.d) (clog2 s.work.lzss.l)) s.work.reader = .error e) :
    engineTurn s = .next (raiseError .unexpectedEndOfInput s) := by
  simp only [engineTurn, fetch, hs, fetchToken, if_pos hlt, hd]

theorem engineTurn_lzss_end {s : State} (hs : s.work.stage = .lzssBody)
    (hge : s.work.lzss.n ≤ s.work.lzss.out.length) : engineTurn s = .next (endBody s.work.lzss.out s) := by
  simp only [engineTurn, fetch, hs, fetchToken, if_neg (Nat.not_lt.2 hge)]

theorem engineTurn_huff {s : State} {ident : Byte} (hs : s.work.stage = .huffBody ident) :
    engineTurn s = .next (huffTurn ident s) := by
  simp only [engineTurn, fetch, hs]

/-- Every command word selects a command row of the opcode table (30_encoding.md R55, R67). -/
theorem commandOp_decodeCommand (w : Word) : commandOp (decodeCommand w) ≠ none := by
  unfold decodeCommand
  split <;> simp [commandOp]

end Sys2Proof.Machine
end

section
/-! PROOFS. The invariant of the machine: at reset, and kept by every step. -/

namespace Sys2Proof.Machine

/-! ## What the invariant does not read -/

/-- The invariant reads neither CMD and the operand registers nor the model's own record of draws, moves and answers. -/
theorem State.Inv.withOperands {s : State} (h : s.Inv) (op : BitVec 4) (inLen dictSize lookaheadSize : Word)
    (draws : Nat) (moves : List Move) (responses : List Response) :
    ({ s with
        cmdOp := op, inLen := inLen, dictSize := dictSize, lookaheadSize := lookaheadSize, draws := draws
        moves := moves, responses := responses } : State).Inv :=
  { h with }

theorem State.Inv.withMoves {s : State} (h : s.Inv) (moves : List Move) : ({ s with moves := moves } : State).Inv :=
  h.withOperands _ _ _ _ _ _ _

/-! ## States in which no command runs -/

theorem resetOf_inv (c : Params) : (State.resetOf c).Inv where
  inCanonical := rfl
  inWithin := rfl
  innerCanonical := rfl
  innerWithin := rfl
  errInError := by simp [State.resetOf]
  errKnown := Nat.zero_le 6
  noOutput := fun _ => ⟨rfl, rfl⟩
  output := fun h => nomatch h
  quiet := fun _ => rfl
  lzssProgress := fun h => nomatch h
  huffProgress := fun _ h => nomatch h

/-- Settles O56. -/
theorem invariantHoldsAtReset : Obligations.InvariantHoldsAtReset := resetOf_inv

theorem resetEvent_inv (s : State) : (resetEvent s).Inv := (resetOf_inv s.cfg).withOperands _ _ _ _ _ _ _

theorem writeIn_inv {s : State} (h : s.Inv) {a : Nat} (b : Byte) (ha : a < s.cfg.inMemBytes) :
    ({ s with inMem := s.inMem.write a b } : State).Inv :=
  { h with
    inCanonical := Memory.write_wf _ a b h.inCanonical
    inWithin := Memory.write_below _ a _ b ha h.inWithin }

/-- ERR names a kind exactly in ERROR (60_exceptions.md R138). -/
theorem ErrKind.code_ne_zero (k : ErrKind) : k.code ≠ 0 := by cases k <;> decide

theorem raiseError_inv {s : State} (h : s.Inv) (k : ErrKind) : (raiseError k s).Inv where
  inCanonical := h.inCanonical
  inWithin := h.inWithin
  innerCanonical := rfl
  innerWithin := rfl
  errInError := iff_of_true k.code_ne_zero rfl
  errKnown := k.code_range.2
  noOutput := fun _ => ⟨rfl, rfl⟩
  output := fun hd => nomatch hd
  quiet := fun _ => rfl
  lzssProgress := fun hs => nomatch hs
  huffProgress := fun _ hs => nomatch hs

theorem completeDone_inv {s : State} (h : s.Inv) {out : List Byte} (hfit : out.length ≤ s.cfg.outMemBytes) :
    (completeDone out s).Inv where
  inCanonical := h.inCanonical
  inWithin := h.inWithin
  innerCanonical := rfl
  innerWithin := rfl
  errInError := by simp
  errKnown := Nat.zero_le 6
  noOutput := fun hd => absurd rfl hd
  output := fun _ => ⟨out, hfit, rfl, rfl⟩
  quiet := fun _ => rfl
  lzssProgress := fun hs => nomatch hs
  huffProgress := fun _ hs => nomatch hs

theorem complete_inv {s : State} (h : s.Inv) (r : Except ErrKind (List Byte))
    (hfit : ∀ out, r = .ok out → out.length ≤ s.cfg.outMemBytes) : (complete r s).Inv := by
  cases r with
  | ok out => exact completeDone_inv h (hfit out rfl)
  | error k => exact raiseError_inv h k

/-! ## States in which a command runs -/

theorem startCommand_inv {s : State} (h : s.Inv) (op : BitVec 4) : (startCommand op s).Inv where
  inCanonical := h.inCanonical
  inWithin := h.inWithin
  innerCanonical := rfl
  innerWithin := rfl
  errInError := by simp
  errKnown := Nat.zero_le 6
  noOutput := fun _ => ⟨rfl, rfl⟩
  output := fun hd => nomatch hd
  quiet := fun hq => absurd rfl hq
  lzssProgress := fun hs => nomatch hs
  huffProgress := fun _ hs => nomatch hs

/-- While a command runs, new contents of INNER and of the hidden state keep the invariant when INNER is canonical and
within its capacity and no decoder is past its declared length. -/
theorem State.Inv.withWork {s : State} (h : s.Inv) (hb : s.run = .busy) {w : Work} {m : Memory}
    (hwf : m.wf = true) (hbelow : m.below s.cfg.innerMemBytes = true)
    (hl : w.stage = .lzssBody → w.lzss.out.length ≤ w.lzss.n ∧ w.lzss.n ≤ s.cfg.outMemBytes)
    (hh : ∀ ident, w.stage = .huffBody ident → w.huff.out.length ≤ w.huff.n ∧
      w.huff.n ≤ (if ident = Config.identHs then s.cfg.innerMemBytes else s.cfg.outMemBytes)) :
    ({ s with work := w, innerMem := m } : State).Inv :=
  { h with
    innerCanonical := hwf
    innerWithin := hbelow
    quiet := fun hq => absurd hb hq
    lzssProgress := hl
    huffProgress := hh }

theorem setReader_inv {s : State} (h : s.Inv) (hb : s.run = .busy) (rd : Reader) : (setReader rd s).Inv :=
  h.withWork hb h.innerCanonical h.innerWithin h.lzssProgress h.huffProgress

/-! ## The commands -/

theorem withInput_ok {op : BitVec 4} {s : State} {stages : List Byte → Except ErrKind (List Byte)} {out : List Byte}
    (h : withInput op s stages = .ok out) : stages (inputBytes s) = .ok out := by
  unfold withInput at h
  split at h
  · cases h
  · exact h

theorem withConfiguredInput_ok {op : BitVec 4} {s : State} {stages : List Byte → Nat → Nat → Except ErrKind (List Byte)}
    {out : List Byte} (h : withConfiguredInput op s stages = .ok out) :
    stages (inputBytes s) s.dictSize.toNat s.lookaheadSize.toNat = .ok out := by
  have hs := withInput_ok h
  split at hs
  · cases hs
  · exact hs

theorem hsEncode_fits (c : Params) (input : List Byte) (d l : Nat) (out : List Byte)
    (h : hsEncode c input d l = .ok out) : out.length ≤ c.outMemBytes := by
  unfold hsEncode at h
  split at h
  · cases h
  · exact hufEncode_fits _ _ _ _ _ h

theorem hsDecode_fits (c : Params) (src out : List Byte) (h : hsDecode c src = .ok out) :
    out.length ≤ c.outMemBytes := by
  unfold hsDecode at h
  split at h
  · cases h
  · exact (lzssDecode_length _ _ _ h).2

/-- The output of every command fits OUT (60_exceptions.md R141). -/
theorem commandValue_fits (i : Instr) (s : State) (out : List Byte) (h : commandValue i s = .ok out) :
    out.length ≤ s.cfg.outMemBytes := by
  cases i with
  | lzssCompress => exact lzssEncode_fits _ _ _ _ _ _ (withConfiguredInput_ok h)
  | lzssDecompress => exact (lzssDecode_length _ _ _ (withInput_ok h)).2
  | huffmanCompress => exact hufEncode_fits _ _ _ _ _ (withInput_ok h)
  | huffmanDecompress => exact (hufDecode_length _ _ _ _ (withInput_ok h)).2
  | hsCompress => exact hsEncode_fits _ _ _ _ _ (withConfiguredInput_ok h)
  | hsDecompress => exact hsDecode_fits _ _ _ (withInput_ok h)
  | reservedCommand | lit | matchTok | lzssContainer | huffmanContainer | hsContainer => cases h

/-! ## The instructions -/

/-- A token run in an LZSS body with room left: the decoder's next state, or the error that ends the command (42_lzss.md
R104, R106). -/
theorem exec_instrOfToken (t : Token) (s : State) :
    (∃ k, performToken t s.work.lzss = .error k ∧ exec (instrOfToken t) s = .next (raiseError k s)) ∨
    (∃ w, performToken t s.work.lzss = .ok w ∧
      exec (instrOfToken t) s = .next { s with work := { s.work with lzss := w } }) := by
  cases t with
  | literal b => exact .inr ⟨_, rfl, rfl⟩
  | copy d len =>
    simp only [instrOfToken, exec, execMatchTok, performToken]
    cases performMatch d len s.work.lzss with
    | error k => exact .inl ⟨k, rfl, rfl⟩
    | ok w => exact .inr ⟨w, rfl, rfl⟩

theorem execToken_inv (tok : Token) {s t : State} (h : s.Inv) (hb : s.run = .busy)
    (hroom : s.work.stage = .lzssBody → s.work.lzss.out.length < s.work.lzss.n)
    (ht : exec (instrOfToken tok) s = .next t) : t.Inv := by
  rcases exec_instrOfToken tok s with ⟨k, -, he⟩ | ⟨w, hw, he⟩ <;> rw [he] at ht <;> cases ht
  · exact raiseError_inv h k
  · refine h.withWork hb h.innerCanonical h.innerWithin (fun hs => ?_) h.huffProgress
    obtain ⟨hn, -, -, -, hle⟩ := performToken_ok tok _ w hw (hroom hs)
    rw [hn]
    exact ⟨hle, (h.lzssProgress hs).2⟩

theorem startHuffBody_inv (ident : Byte) (cap : Nat) (n : Word) (lens : List Byte) {s : State} (h : s.Inv)
    (hb : s.run = .busy) (hcap : cap = if ident = Config.identHs then s.cfg.innerMemBytes else s.cfg.outMemBytes) :
    (startHuffBody ident cap n lens s).Inv := by
  unfold startHuffBody
  split
  · exact raiseError_inv h _
  · rename_i w hw
    obtain ⟨hn, hle, hout, -⟩ := hufStart_ok _ _ _ _ hw
    refine h.withWork hb h.innerCanonical h.innerWithin (fun hs => nomatch hs) fun ident' hs => ?_
    cases hs
    rw [← hcap, hn, hout]
    exact ⟨Nat.zero_le _, hle⟩

theorem execLzssContainer_inv (n d l : Word) {s t : State} (h : s.Inv) (hb : s.run = .busy)
    (ht : execLzssContainer n d l s = .next t) : t.Inv := by
  unfold execLzssContainer at ht
  split at ht <;> cases ht
  · exact raiseError_inv h _
  · rename_i w hw
    obtain ⟨rfl, hle, -⟩ := lzssStart_ok _ _ _ _ _ hw
    exact h.withWork hb h.innerCanonical h.innerWithin (fun _ => ⟨Nat.zero_le _, hle⟩) fun _ hs => nomatch hs

/-- Every instruction that a running command fetches keeps the invariant, a token in an LZSS body with room left. -/
theorem exec_inv (i : Instr) {s t : State} (h : s.Inv) (hb : s.run = .busy)
    (hroom : s.work.stage = .lzssBody → s.work.lzss.out.length < s.work.lzss.n) (ht : exec i s = .next t) : t.Inv := by
  by_cases hi : commandOp i = none
  case neg =>
    rw [exec_command i s hi] at ht
    cases ht
    exact complete_inv h _ (commandValue_fits i s)
  case pos =>
    cases i with
    | lzssCompress | lzssDecompress | huffmanCompress | huffmanDecompress | hsCompress | hsDecompress
    | reservedCommand => cases hi
    | lit b => exact execToken_inv (.literal b) h hb hroom ht
    | matchTok d len => exact execToken_inv (.copy d len) h hb hroom ht
    | lzssContainer n d l => exact execLzssContainer_inv n d l h hb ht
    | huffmanContainer n lens => cases ht; exact startHuffBody_inv _ _ n lens h hb rfl
    | hsContainer n lens => cases ht; exact startHuffBody_inv _ _ n lens h hb rfl

/-! ## The turns that run no instruction -/

theorem endBody_inv {out : List Byte} {s : State} (h : s.Inv) (hfit : out.length ≤ s.cfg.outMemBytes) :
    (endBody out s).Inv := by
  unfold endBody
  split
  · exact raiseError_inv h _
  · exact completeDone_inv h hfit

theorem endOuterBody_inv {inner : List Byte} {s : State} (h : s.Inv) (hb : s.run = .busy)
    (hfit : inner.length ≤ s.cfg.innerMemBytes) : (endOuterBody inner s).Inv := by
  unfold endOuterBody
  split
  · exact raiseError_inv h _
  · exact h.withWork hb (Memory.ofBytes_wf inner) (Memory.ofBytes_below inner _ hfit) (fun hs => nomatch hs)
      fun _ hs => nomatch hs

theorem huffTurn_inv {ident : Byte} {s : State} (h : s.Inv) (hb : s.run = .busy)
    (hs : s.work.stage = .huffBody ident) : (huffTurn ident s).Inv := by
  obtain ⟨hout, hn⟩ := h.huffProgress ident hs
  unfold huffTurn
  split
  case isTrue hlt =>
    split
    · exact raiseError_inv h _
    · rename_i rd w hw
      obtain ⟨hwn, -, -, hlen⟩ := hufSymbol_ok _ _ _ _ hw
      refine h.withWork hb h.innerCanonical h.innerWithin h.lzssProgress fun ident' hs' => ?_
      rw [hwn, hlen]
      exact ⟨hlt, (h.huffProgress ident' hs').2⟩
  case isFalse =>
    split
    case isTrue hid =>
      rw [if_pos hid] at hn
      exact endOuterBody_inv h hb (hout.trans hn)
    case isFalse hid =>
      rw [if_neg hid] at hn
      exact endBody_inv h (hout.trans hn)

/-! ## Every step -/

theorem engineTurn_inv {s t : State} (h : s.Inv) (hb : s.run = .busy) (ht : engineTurn s = .next t) : t.Inv := by
  rcases engineTurn_cases s with ⟨hs, he⟩ | ⟨ident, hs, ⟨i, rd, -, he⟩ | ⟨e, he⟩⟩ |
    ⟨hs, ⟨hlt, i, rd, -, he⟩ | ⟨-, he⟩ | ⟨-, he⟩⟩ | ⟨ident, hs, he⟩ <;> rw [he] at ht
  · exact exec_inv _ h hb (fun hl => by rw [hs] at hl; cases hl) ht
  · exact exec_inv i (setReader_inv h hb rd) hb (fun hl => by rw [setReader_work, hs] at hl; cases hl) ht
  · cases ht; exact raiseError_inv h _
  · exact exec_inv i (setReader_inv h hb rd) hb (fun _ => hlt) ht
  · cases ht; exact raiseError_inv h _
  · cases ht
    obtain ⟨hout, hn⟩ := h.lzssProgress hs
    exact endBody_inv h (hout.trans hn)
  · cases ht; exact huffTurn_inv h hb hs

theorem hostStep_inv {a : HostAccess} {s t : State} (h : s.Inv) (ht : hostStep a s = .next t) : t.Inv := by
  rcases hostStep_cases a s t ht with rfl | ⟨-, v, -, rfl⟩ | ⟨-, v, rfl | rfl | rfl⟩ | ⟨-, x, b, hx, -, rfl⟩ |
    ⟨r, rfl⟩ | rfl
  · exact h
  · exact startCommand_inv h _
  · exact h.withOperands _ _ _ _ _ _ _
  · exact h.withOperands _ _ _ _ _ _ _
  · exact h.withOperands _ _ _ _ _ _ _
  · exact writeIn_inv h b hx
  · exact h.withOperands _ _ _ _ _ _ _
  · exact h.withOperands _ _ _ _ _ _ _

/-- Settles O57, by whose move the step is. -/
theorem everyStepKeepsTheInvariant : Obligations.EveryStepKeepsTheInvariant := by
  intro s t h ht
  rcases step_cases s t ht with ⟨-, -, rfl⟩ | ⟨rest, -, -, rfl⟩ | ⟨hb, -, he⟩ | ⟨a, rest, -, hh⟩ | ⟨rest, -, rfl⟩
  · exact h
  · exact h.withMoves rest
  · exact engineTurn_inv (h.withMoves s.moves.tail) hb he
  · exact hostStep_inv (h.withMoves rest) hh
  · exact resetEvent_inv _

end Sys2Proof.Machine
end

section
/-! PROOFS. The register window, the buffers and the engine's turn (10_state.md). -/

namespace Sys2Proof.Machine

/-! ## IN and OUT -/

/-- The host's accesses other than a write to IN leave IN as it is (10_state.md R27). -/
theorem hostStep_inMem {a : HostAccess} {s t : State} (hw : ∀ x b, a ≠ .inWrite x b) (h : hostStep a s = .next t) :
    t.inMem = s.inMem := by
  rcases hostStep_cases a s t h with rfl | ⟨-, v, -, rfl⟩ | ⟨-, v, rfl | rfl | rfl⟩ | ⟨-, x, b, -, ha, -⟩ | ⟨r, rfl⟩ | rfl
  · rfl
  · rfl
  · rfl
  · rfl
  · rfl
  · exact absurd ha (hw x b)
  · rfl
  · rfl

/-- No step but a host write to IN and a reset changes a byte of IN (10_state.md R27). -/
theorem step_keeps_inMem {s t : State} (hw : ∀ x b r, s.moves ≠ .host (.inWrite x b) :: r)
    (hr : ∀ r, s.moves ≠ .reset :: r) (h : step s = .next t) (x : Nat) :
    Memory.read t.inMem x = Memory.read s.inMem x := by
  rcases step_cases s t h with ⟨-, -, rfl⟩ | ⟨rest, -, -, rfl⟩ | ⟨-, -, he⟩ | ⟨a, rest, hm, hh⟩ | ⟨rest, hm, -⟩
  · rfl
  · rfl
  · obtain ⟨-, -, -, -, hin, -⟩ := engineTurn_keepsOperands _ t he
    exact hin x
  · rw [hostStep_inMem (fun x b ha => hw x b rest (ha ▸ hm)) hh]
  · exact absurd hm (hr rest)

/-- What IN reads as after a host write to it (10_state.md R26, R27). -/
theorem read_writeIn (a x : Nat) (b : Byte) (s : State) :
    Memory.read (writeIn a b s).inMem x = if s.run ≠ .busy ∧ x = a then some b else Memory.read s.inMem x := by
  unfold writeIn
  split
  case isTrue hb => rw [if_neg fun h => h.1 hb]
  case isFalse hb => simp only [Memory.read_write, ne_eq, hb, not_false_eq_true, true_and]

theorem writeIn_moves (a : Nat) (b : Byte) (s : State) : (writeIn a b s).moves = s.moves := by
  unfold writeIn
  split <;> rfl

/-- Settles O10: a write, a read and any other step. -/
theorem inHoldsTheLastHostWrite : Obligations.InHoldsTheLastHostWrite := by
  intro s a rest ha
  refine ⟨fun b hm => ?_, fun b hread hm => ?_, fun t hw hr h => step_keeps_inMem hw hr h⟩
  · refine ⟨_, step_of_inWrite ha hm, writeIn_moves _ _ _, fun x => ?_⟩
    exact read_writeIn a x b { s with moves := rest }
  · rw [step_of_inRead ha hm, hread]
    rfl

/-- A host read of a byte of IN that no write has given takes the next free draw (10_state.md R37). -/
theorem step_inRead_unwritten {s : State} {a : Nat} {rest : List Move} (ha : a < s.cfg.inMemBytes)
    (hread : Memory.read s.inMem a = none) (hm : s.moves = .host (.inRead a) :: rest) :
    step s = .next { s with
      moves := rest, draws := s.draws + 1, responses := s.responses ++ [.byte (Config.freeByte s.draws)] } := by
  rw [step_of_inRead ha hm, hread]
  rfl

/-- Settles O11: the second read takes the draw after the first one's. -/
theorem unwrittenInReadIsAFreshDraw : Obligations.UnwrittenInReadIsAFreshDraw := by
  intro s a a' rest ha ha' hread hread' hm
  refine ⟨s.draws, s.draws + 1, by omega, ?_⟩
  have hfirst := step_inRead_unwritten ha hread hm
  have hsecond := step_inRead_unwritten (a := a') (rest := rest)
    (s := { s with
      moves := .host (.inRead a') :: rest, draws := s.draws + 1
      responses := s.responses ++ [.byte (Config.freeByte s.draws)] }) ha' hread' rfl
  rw [core_run_succ hfirst, core_run_succ hsecond, List.append_assoc]
  rfl

/-- A length within what OUT_LEN shows is within the output, also where 32 bits do not hold the output's length. -/
theorem lt_length_of_lt_lengthWord {a n : Nat} (h : a < (lengthWord n).toNat) : a < n := by
  have hlt := (lengthWord n).isLt
  by_cases hn : n < 2 ^ 32
  · rw [lengthWord, if_pos hn, BitVec.toNat_ofNat, Nat.mod_eq_of_lt hn] at h
    exact h
  · omega

/-- While STATE = DONE every byte of OUT below OUT_LEN is a byte of the output (10_state.md R28, R31). -/
theorem State.Inv.outMem_known {s : State} (h : s.Inv) (hrun : s.run = .done) {a : Nat} (ha : a < s.outLen.toNat) :
    ∃ b, Memory.read s.outMem a = some b := by
  obtain ⟨out, -, hmem, hlen⟩ := h.output hrun
  rw [hlen] at ha
  have hlt : a < out.length := lt_length_of_lt_lengthWord ha
  exact ⟨out[a], by rw [hmem, Memory.read_ofBytes, List.getElem?_eq_getElem hlt]⟩

/-- Settles O12. -/
theorem outReadsReturnTheOutputOrAFreeDraw : Obligations.OutReadsReturnTheOutputOrAFreeDraw := by
  intro s a rest hinv ha
  refine ⟨fun b hm => step_of_outWrite ha hm, fun hm => ?_⟩
  rw [step_of_outRead ha hm]
  refine ⟨fun hout => ?_, fun hout => ?_⟩
  · obtain ⟨b, hb⟩ := hinv.outMem_known hout.1 hout.2
    refine ⟨b, hb, ?_⟩
    rw [readOut, if_pos hout, hb]
    rfl
  · rw [readOut, if_neg hout]
    rfl

/-! ## The registers -/

/-- Settles O1. -/
theorem resetGivesEveryRegisterItsValue : Obligations.ResetGivesEveryRegisterItsValue := by
  refine ⟨fun c r => ?_, fun c => ⟨rfl, rfl, rfl⟩⟩
  cases r with
  | status => exact BitVec.eq_of_toNat_eq (statusWord_toNat (State.resetOf c))
  | cmd | inLen | dictSize | lookaheadSize | outLen | reserved18 | reserved1C => rfl

/-- Settles O3. -/
theorem commandWriteStartsACommand : Obligations.CommandWriteStartsACommand := by
  intro s v rest hb hm
  refine ⟨_, step_of_regWrite_of_not_busy .cmd hb hm, opBits_toNat v,
    rfl, rfl, rfl, fun _ => rfl, rfl, rfl, rfl, fun _ => rfl, rfl, rfl, rfl, rfl⟩

/-- Settles O4. -/
theorem writesWhileBusyAreIgnored : Obligations.WritesWhileBusyAreIgnored := by
  intro s rest hb
  refine ⟨fun r v hm => step_of_regWrite_of_busy r hb hm, fun a b ha hm => ?_⟩
  rw [step_of_inWrite ha hm, writeIn, if_pos hb]

/-- Settles O5. -/
theorem operandRegistersTakeAnyWord : Obligations.OperandRegistersTakeAnyWord := by
  intro s v rest hb
  exact ⟨fun hm => step_of_regWrite_of_not_busy .inLen hb hm, fun hm => step_of_regWrite_of_not_busy .dictSize hb hm,
    fun hm => step_of_regWrite_of_not_busy .lookaheadSize hb hm⟩

/-- A CMD write depends on the low four bits of its word alone (10_state.md R19, R25). -/
theorem writeReg_cmd_congr {v v' : Word} (h : v.toNat % 16 = v'.toNat % 16) (s : State) :
    writeReg .cmd v s = writeReg .cmd v' s := by
  have hop : v.extractLsb' 0 4 = v'.extractLsb' 0 4 :=
    BitVec.eq_of_toNat_eq (by rw [opBits_toNat, opBits_toNat, h])
  simp only [writeReg, writeRegIdle, hop]

/-- Settles O6. -/
theorem reservedAndReadOnlyRegisters : Obligations.ReservedAndReadOnlyRegisters := by
  intro s
  have hcmd : (readReg .cmd s).toNat = s.cmdOp.toNat := cmdWord_toNat s
  have hstatus : (readReg .status s).toNat = s.err.toNat * 16 + s.run.code.toNat := statusWord_toNat s
  have hop := s.cmdOp.isLt
  have herr := s.err.isLt
  have hrun := s.run.code.isLt
  refine ⟨by omega, by omega, by omega, rfl, rfl, fun v v' rest h => ?_, fun off v rest hoff hm => ?_⟩
  · rw [step_of_regWrite .cmd rfl, step_of_regWrite .cmd rfl, writeReg_cmd_congr h]
  · have hignored : ∀ r : Reg, r = .status ∨ r = .outLen ∨ r = .reserved18 ∨ r = .reserved1C → off = r.offset →
        step s = .next { s with moves := rest } := by
      rintro r hr rfl
      rw [step_of_regWrite r hm, writeReg_read_only r v _ hr]
    rcases hoff with h | h | h | h
    · exact hignored .status (by simp) h
    · exact hignored .outLen (by simp) h
    · exact hignored .reserved18 (by simp) h
    · exact hignored .reserved1C (by simp) h

/-- Settles O7. -/
theorem registerReadsAnswerAndChangeNothing : Obligations.RegisterReadsAnswerAndChangeNothing := by
  intro s r rest hm
  refine ⟨?_, cmdWord_toNat s, statusWord_toNat s, rfl, rfl, rfl, rfl⟩
  rw [step_of_regRead hm]
  cases r <;> rfl

/-! ## The engine's turn -/

/-- Settles O15, by the decoder stage in progress. -/
theorem engineTurnRunsTheFetchedInstruction : Obligations.EngineTurnRunsTheFetchedInstruction := by
  intro s rest hb hm
  rw [step_of_engine_of_busy hb hm]
  exact ⟨fun hs => engineTurn_command hs, fun ident i rd hs hd => engineTurn_header hs hd,
    fun i rd hs hlt hd => engineTurn_token hs hlt hd⟩

theorem complete_moves (r : Except ErrKind (List Byte)) (s : State) : (complete r s).moves = s.moves := by
  cases r <;> rfl

theorem complete_ends (r : Except ErrKind (List Byte)) (s : State) :
    (complete r s).run = .done ∨ (complete r s).run = .error := by
  cases r
  · exact .inr rfl
  · exact .inl rfl

/-- One turn of the engine ends the command of CMD.OP (10_state.md R31). -/
theorem engineTurn_ends_command {s : State} (hs : s.work.stage = .command) :
    engineTurn s = .next (complete (commandValue (decodeCommand (cmdWord s)) s) s) :=
  (engineTurn_command hs).trans (exec_command _ s (commandOp_decodeCommand _))

/-- Settles O16. -/
theorem oneEngineTurnEndsTheCommand : Obligations.OneEngineTurnEndsTheCommand := by
  intro s
  refine ⟨fun hb hs hm => ?_, fun hb rest hm => step_of_engine_of_not_busy hb hm⟩
  exact ⟨_, (step_of_turn hb hm).trans (engineTurn_ends_command hs), complete_ends _ _, complete_moves _ _⟩

/-- Settles O53: every command is the completion step for its value of Exec. -/
theorem commandsEndInOneOutcomeAndKeepTheirOperands : Obligations.CommandsEndInOneOutcomeAndKeepTheirOperands := by
  intro i s hi
  refine ⟨_, exec_command i s hi, complete_keepsOperands _ s, ?_⟩
  cases commandValue i s with
  | ok out => exact .inl ⟨out, completeDone_outputIs out s⟩
  | error k => exact .inr ⟨k, raiseError_failsWith k s⟩

end Sys2Proof.Machine
end

section
/-! PROOFS. A decoder run part by part ends in the state of the one completion step (10_state.md R31, R34; log entry 4). -/

namespace Sys2Proof.Machine

open Relation (ReflTransGen)

/-! ## Engine turns in a row -/

/-- One turn of the engine of a running command leads from `s` to `t`. -/
def Turn (s t : State) : Prop := s.run = .busy ∧ engineTurn s = .next t

theorem engineTurns_of_turns {s t : State} (h : ReflTransGen Turn s t) : ∃ k, engineTurns k s = t := by
  induction h using ReflTransGen.head_induction_on with
  | refl => exact ⟨0, rfl⟩
  | head hturn _ ih =>
    obtain ⟨hb, ht⟩ := hturn
    obtain ⟨k, hk⟩ := ih
    exact ⟨k + 1, by simp only [engineTurns, if_pos hb, ht, hk]⟩

/-! ## The outcome does not depend on the hidden state -/

/-- A completion step discards the hidden state and INNER (10_state.md R29, R34). -/
theorem complete_of_work (r : Except ErrKind (List Byte)) (s : State) (w : Work) (m : Memory) :
    complete r { s with work := w, innerMem := m } = complete r s := by
  cases r <;> rfl

/-- What a decoder gives once its body is complete: CheckEnd, then the output (40_bitstream.md R83). -/
def bodyResult (rd : Reader) (out : List Byte) : Except ErrKind (List Byte) :=
  match checkEnd rd with
  | .error k => .error k
  | .ok _ => .ok out

theorem endBody_eq_complete (out : List Byte) (s : State) :
    endBody out s = complete (bodyResult s.work.reader out) s := by
  unfold endBody bodyResult
  cases checkEnd s.work.reader <;> rfl

/-! ## Container headers -/

/-- A header that decodes is the instruction of its identifier, and the reader is at the body (30_encoding.md R71). -/
theorem decodeContainer_ok {ident : Byte} {src : List Byte} {i : Instr} {rd : Reader}
    (h : decodeContainer ident src = .ok (i, rd)) : containerInstr ident src = some i := by
  unfold decodeContainer at h
  split at h
  · cases h
  · split at h
    · cases h
    · split at h
      · cases h
      · split at h
        · cases h; assumption
        · cases h

theorem toNat_ofNat_be32 (src : List Byte) (i : Nat) : (BitVec.ofNat 32 (be32 src i)).toNat = be32 src i := by
  rw [BitVec.toNat_ofNat]
  refine Nat.mod_eq_of_lt ?_
  have h0 := (byteAt src i).isLt
  have h1 := (byteAt src (i + 1)).isLt
  have h2 := (byteAt src (i + 2)).isLt
  have h3 := (byteAt src (i + 3)).isLt
  unfold be32
  omega

/-! ## The LZSS decoder -/

/-- The state `s` with an LZSS body in progress: the reader at `rd`, the decoder's working state `w`. -/
def lzssBodyAt (rd : Reader) (w : LzssWork) (s : State) : State :=
  { s with work := { s.work with stage := .lzssBody, reader := rd, lzss := w } }

/-- Where the token loop leaves the engine: its error ends the command, or the body is complete. -/
def afterTokens (s : State) : Except ErrKind (Reader × LzssWork) → State
  | .error k => raiseError k s
  | .ok (rd, w) => lzssBodyAt rd w s

/-- A token read in an LZSS body is performed in one turn of the engine (42_lzss.md R103 to R106). -/
theorem engineTurn_lzssBodyAt {rd rd' : Reader} {w : LzssWork} {tok : Token} (s : State)
    (hlt : w.out.length < w.n) (hr : readToken rd (clog2 w.d) (clog2 w.l) = some (tok, rd')) :
    engineTurn (lzssBodyAt rd w s) = .next (afterTokens s ((performToken tok w).map (rd', ·))) := by
  have hdec : decode (.token (clog2 w.d) (clog2 w.l)) rd = .ok (instrOfToken tok, rd') := by
    simp only [decode, hr]
  rw [engineTurn_token (s := lzssBodyAt rd w s) rfl hlt hdec]
  rcases exec_instrOfToken tok (setReader rd' (lzssBodyAt rd w s)) with ⟨k, hp, he⟩ | ⟨w', hp, he⟩
  · rw [he, show performToken tok w = .error k from hp]; rfl
  · rw [he, show performToken tok w = .ok w' from hp]; rfl

/-- A token cut off by the end of the source ends the command (42_lzss.md R103). -/
theorem engineTurn_lzssBodyAt_cut {rd : Reader} {w : LzssWork} (s : State) (hlt : w.out.length < w.n)
    (hr : readToken rd (clog2 w.d) (clog2 w.l) = none) :
    engineTurn (lzssBodyAt rd w s) = .next (raiseError .unexpectedEndOfInput s) :=
  engineTurn_token_error (s := lzssBodyAt rd w s) (e := .endOfBits) rfl hlt (by simp only [lzssBodyAt, decode, hr])

/-- The end of a complete LZSS body (42_lzss.md R106). -/
theorem engineTurn_lzssBodyAt_end {rd : Reader} {w : LzssWork} (s : State) (hge : w.n ≤ w.out.length) :
    engineTurn (lzssBodyAt rd w s) = .next (complete (bodyResult rd w.out) s) := by
  rw [engineTurn_lzss_end (s := lzssBodyAt rd w s) rfl hge, endBody_eq_complete]
  exact congrArg _ (complete_of_work (bodyResult rd w.out) s _ _)

/-- The token loop, one token in each turn of the engine (42_lzss.md R106). -/
theorem turns_lzssBody (fuel : Nat) (rd : Reader) (w : LzssWork) (s : State) (hb : s.run = .busy) :
    ReflTransGen Turn (lzssBodyAt rd w s) (afterTokens s (lzssBody fuel rd w)) := by
  induction fuel generalizing rd w with
  | zero => exact .refl
  | succ fuel ih =>
    rw [lzssBody]
    split
    case isFalse => exact .refl
    case isTrue hlt =>
      cases hr : readToken rd (clog2 w.d) (clog2 w.l) with
      | none => exact .single ⟨hb, engineTurn_lzssBodyAt_cut s hlt hr⟩
      | some p =>
        obtain ⟨tok, rd'⟩ := p
        have hturn := engineTurn_lzssBodyAt s hlt hr
        cases hp : performToken tok w with
        | error k =>
          rw [hp] at hturn
          simp only [hp]
          exact .single ⟨hb, hturn⟩
        | ok w' =>
          rw [hp] at hturn
          simp only [hp]
          exact .head ⟨hb, hturn⟩ (ih rd' w')

/-- An LZSS body, from its first token to its outcome (42_lzss.md R106). -/
theorem turns_lzssFinish (rd : Reader) (w : LzssWork) (s : State) (hb : s.run = .busy) (hout : w.out = []) :
    ReflTransGen Turn (lzssBodyAt rd w s) (complete (lzssFinish rd w) s) := by
  have hloop := turns_lzssBody w.n rd w s hb
  unfold lzssFinish
  cases hbody : lzssBody w.n rd w with
  | error k => rw [hbody] at hloop; exact hloop
  | ok p =>
    obtain ⟨rd', w'⟩ := p
    rw [hbody] at hloop
    obtain ⟨hlen, hn⟩ := lzssBody_ok _ _ _ _ _ (by simp [hout]) (by simp [hout]) hbody
    exact hloop.tail ⟨hb, engineTurn_lzssBodyAt_end s (hn.trans hlen.symm).le⟩

/-- The LZSS decoder, from its header to its outcome (42_lzss.md R102, R106). -/
theorem turns_lzssDecode (s : State) (hb : s.run = .busy) (hs : s.work.stage = .header Config.identLzss) :
    ReflTransGen Turn s (complete (lzssDecode s.cfg.outMemBytes s.work.reader.src) s) := by
  unfold lzssDecode
  cases hd : decodeContainer Config.identLzss s.work.reader.src with
  | error e => exact .single ⟨hb, engineTurn_header_error hs hd⟩
  | ok p =>
    obtain ⟨i, rd⟩ := p
    have hturn := engineTurn_header hs hd
    cases decodeContainer_ok hd
    simp only [exec, execLzssContainer, toNat_ofNat_be32, setReader_cfg] at hturn
    cases hstart : lzssStart s.cfg.outMemBytes (be32 s.work.reader.src 1) (be32 s.work.reader.src 5)
      (be32 s.work.reader.src 9) with
    | error k => rw [hstart] at hturn; exact .single ⟨hb, hturn⟩
    | ok w =>
      rw [hstart] at hturn
      obtain ⟨hw, -⟩ := lzssStart_ok _ _ _ _ _ hstart
      exact .head ⟨hb, hturn⟩ (turns_lzssFinish rd w s hb (by rw [hw]))

/-! ## The Huffman decoder -/

/-- The state `s` with a Huffman body in progress: the reader at `rd`, the decoder's working state `w`. -/
def huffBodyAt (ident : Byte) (rd : Reader) (w : HuffWork) (s : State) : State :=
  { s with work := { s.work with stage := .huffBody ident, reader := rd, huff := w } }

/-- Where the symbol loop leaves the engine: its error ends the command, or the body is complete. -/
def afterSymbols (ident : Byte) (s : State) : Except ErrKind (Reader × HuffWork) → State
  | .error k => raiseError k s
  | .ok (rd, w) => huffBodyAt ident rd w s

/-- A symbol of a Huffman body takes one turn of the engine (43_huffman.md R125). -/
theorem engineTurn_huffBodyAt (ident : Byte) (rd : Reader) {w : HuffWork} (s : State) (hlt : w.out.length < w.n) :
    engineTurn (huffBodyAt ident rd w s) = .next (afterSymbols ident s (hufSymbol rd w)) := by
  rw [engineTurn_huff (s := huffBodyAt ident rd w s) rfl]
  refine congrArg _ ((if_pos hlt).trans ?_)
  simp only [huffBodyAt]
  cases hufSymbol rd w <;> rfl

/-- The end of a complete Huffman body whose output goes to OUT (43_huffman.md R125). -/
theorem engineTurn_huffBodyAt_end {ident : Byte} (hid : ident ≠ Config.identHs) (rd : Reader) {w : HuffWork} (s : State)
    (hge : w.n ≤ w.out.length) :
    engineTurn (huffBodyAt ident rd w s) = .next (complete (bodyResult rd w.out) s) := by
  rw [engineTurn_huff (s := huffBodyAt ident rd w s) rfl]
  simp only [huffTurn, huffBodyAt, if_neg (Nat.not_lt.2 hge), if_neg hid, endBody_eq_complete]
  exact congrArg _ (complete_of_work (bodyResult rd w.out) s _ _)

/-- The end of a complete outer body of an HS container (44_hybrid.md R133). -/
theorem engineTurn_huffBodyAt_outer_end (rd : Reader) {w : HuffWork} (s : State) (hge : w.n ≤ w.out.length) :
    engineTurn (huffBodyAt Config.identHs rd w s) = .next (endOuterBody w.out (huffBodyAt Config.identHs rd w s)) := by
  rw [engineTurn_huff (s := huffBodyAt Config.identHs rd w s) rfl]
  simp only [huffTurn, huffBodyAt, if_neg (Nat.not_lt.2 hge), if_true]

/-- The symbol loop, one symbol in each turn of the engine (43_huffman.md R125). -/
theorem turns_hufBody (fuel : Nat) (ident : Byte) (rd : Reader) (w : HuffWork) (s : State) (hb : s.run = .busy) :
    ReflTransGen Turn (huffBodyAt ident rd w s) (afterSymbols ident s (hufBody fuel rd w)) := by
  induction fuel generalizing rd w with
  | zero => exact .refl
  | succ fuel ih =>
    rw [hufBody]
    split
    case isFalse => exact .refl
    case isTrue hlt =>
      have hturn := engineTurn_huffBodyAt ident rd s hlt
      cases hsym : hufSymbol rd w with
      | error k => rw [hsym] at hturn; exact .single ⟨hb, hturn⟩
      | ok p => rw [hsym] at hturn; exact .head ⟨hb, hturn⟩ (ih p.1 p.2)

/-- The Huffman decoder up to the end of its body (43_huffman.md R122, R125): it ends in the error of its header or of a
symbol, or the body is complete and only CheckEnd is left. `hexec` says what the container of `ident` means. -/
theorem turns_hufDecode (ident : Byte) (cap : Nat) (s : State) (hb : s.run = .busy)
    (hs : s.work.stage = .header ident)
    (hexec : ∀ i rd, containerInstr ident s.work.reader.src = some i →
      exec i (setReader rd s) = .next (startHuffBody ident cap (BitVec.ofNat 32 (be32 s.work.reader.src 1))
        (headerLens s.work.reader.src) (setReader rd s))) :
    (∃ k, hufDecode ident cap s.work.reader.src = .error k ∧ ReflTransGen Turn s (raiseError k s)) ∨
    (∃ rd w, hufDecode ident cap s.work.reader.src = bodyResult rd w.out ∧ w.n ≤ w.out.length ∧
      ReflTransGen Turn s (huffBodyAt ident rd w s)) := by
  unfold hufDecode
  cases hd : decodeContainer ident s.work.reader.src with
  | error e => exact .inl ⟨_, rfl, .single ⟨hb, engineTurn_header_error hs hd⟩⟩
  | ok p =>
    obtain ⟨i, rd⟩ := p
    have hturn := (engineTurn_header hs hd).trans (hexec i rd (decodeContainer_ok hd))
    simp only [startHuffBody, toNat_ofNat_be32] at hturn
    cases hstart : hufStart cap (be32 s.work.reader.src 1) (lensOfBytes (headerLens s.work.reader.src)) with
    | error k => rw [hstart] at hturn; exact .inl ⟨k, rfl, .single ⟨hb, hturn⟩⟩
    | ok w =>
      rw [hstart] at hturn
      obtain ⟨-, -, hout, -⟩ := hufStart_ok _ _ _ _ hstart
      have hloop : ReflTransGen Turn s (afterSymbols ident s (hufBody w.n rd w)) :=
        .head ⟨hb, hturn⟩ (turns_hufBody w.n ident rd w s hb)
      simp only [hufFinish]
      cases hbody : hufBody w.n rd w with
      | error k => rw [hbody] at hloop; exact .inl ⟨k, rfl, hloop⟩
      | ok q =>
        rw [hbody] at hloop
        obtain ⟨hlen, hn⟩ := hufBody_ok _ _ _ _ _ (by simp [hout]) (by simp [hout]) hbody
        exact .inr ⟨q.1, q.2, rfl, (hn.trans hlen.symm).le, hloop⟩

/-- HuffmanDecompress, from its header to its outcome (43_huffman.md R129). -/
theorem turns_huffmanDecode (s : State) (hb : s.run = .busy) (hs : s.work.stage = .header Config.identHuffman) :
    ReflTransGen Turn s
      (complete (hufDecode Config.identHuffman s.cfg.outMemBytes s.work.reader.src) s) := by
  rcases turns_hufDecode Config.identHuffman s.cfg.outMemBytes s hb hs (fun i rd hi => by cases hi; rfl) with
    ⟨k, hk, hturns⟩ | ⟨rd, w, hres, hge, hturns⟩
  · rw [hk]; exact hturns
  · rw [hres]
    exact hturns.tail ⟨hb, engineTurn_huffBodyAt_end (by decide) rd s hge⟩

/-! ## The HS decoder -/

/-- The bytes of a memory made of `bs` are `bs`, whatever the free values are. -/
theorem Memory.bytes_ofBytes (bs : List Byte) (k : Nat) : (Memory.ofBytes bs).bytes k 0 bs.length = bs :=
  Memory.bytes_known _ k 0 _ bs rfl fun i hi => by
    rw [Nat.zero_add, Memory.read_ofBytes, byteAt, List.getElem?_eq_getElem hi, List.getD_eq_getElem _ _ hi]

/-- HSDecompress, from its outer header to its outcome (44_hybrid.md R133, R137). -/
theorem turns_hsDecode (s : State) (hb : s.run = .busy) (hs : s.work.stage = .header Config.identHs) :
    ReflTransGen Turn s (complete (hsDecode s.cfg s.work.reader.src) s) := by
  unfold hsDecode
  rcases turns_hufDecode Config.identHs s.cfg.innerMemBytes s hb hs (fun i rd hi => by cases hi; rfl) with
    ⟨k, hk, hturns⟩ | ⟨rd, w, hres, hge, hturns⟩
  · rw [hk]; exact hturns
  · have houter := hturns.tail ⟨hb, engineTurn_huffBodyAt_outer_end rd s hge⟩
    rw [hres, bodyResult]
    unfold endOuterBody at houter
    cases hend : checkEnd rd with
    | error k =>
      simp only [huffBodyAt, hend] at houter
      exact houter
    | ok u =>
      simp only [huffBodyAt, hend, Memory.bytes_ofBytes] at houter
      refine houter.trans ?_
      have hinner := turns_lzssDecode { s with
        innerMem := Memory.ofBytes w.out
        work := { s.work with
          stage := .header Config.identLzss, reader := { src := w.out, pos := 0 }, huff := w
          nInner := w.out.length } } hb rfl
      rw [complete_of_work] at hinner
      exact hinner

/-- Settles O59, by the decoder that the identifier selects. -/
theorem stagedDecoderRefinesTheCompletionStep : Obligations.StagedDecoderRefinesTheCompletionStep := by
  intro s ident hident hb hs
  apply engineTurns_of_turns
  rcases hident with rfl | rfl | rfl
  · exact turns_lzssDecode s hb hs
  · exact turns_huffmanDecode s hb hs
  · exact turns_hsDecode s hb hs

end Sys2Proof.Machine
end

section
/-! PROOFS. Which host accesses a step refuses (20_memory.md R43, R44). -/

namespace Sys2Proof.Machine

/-! ## Register accesses -/

/-- Every multiple of 4 within 0x00..0x1C is the offset of a register (10_state.md R18). -/
theorem exists_reg_offset_eq {off : Nat} (halign : off % 4 = 0) (hle : off ≤ 0x1C) : ∃ r : Reg, r.offset = off := by
  have hoff : off = 0x00 ∨ off = 0x04 ∨ off = 0x08 ∨ off = 0x0C ∨ off = 0x10 ∨ off = 0x14 ∨ off = 0x18 ∨ off = 0x1C := by
    omega
  rcases hoff with rfl | rfl | rfl | rfl | rfl | rfl | rfl | rfl
  · exact ⟨.cmd, rfl⟩
  · exact ⟨.status, rfl⟩
  · exact ⟨.inLen, rfl⟩
  · exact ⟨.dictSize, rfl⟩
  · exact ⟨.lookaheadSize, rfl⟩
  · exact ⟨.outLen, rfl⟩
  · exact ⟨.reserved18, rfl⟩
  · exact ⟨.reserved1C, rfl⟩

/-- An access that reaches a register is a 32-bit access at a multiple of 4 within the window (20_memory.md R43). -/
theorem window_of_regOfAccess_eq_some {bits off : Nat} {r : Reg} (h : regOfAccess bits off = some r) :
    bits = 32 ∧ off % 4 = 0 ∧ off ≤ 0x1C := by
  unfold regOfAccess at h
  split at h
  case isTrue hbits =>
    refine ⟨hbits, ?_⟩
    split at h
    case h_9 => cases h
    all_goals decide
  case isFalse => cases h

/-- An access reaches no register exactly when it is outside the window (20_memory.md R43). -/
theorem regOfAccess_eq_none_iff (bits off : Nat) :
    regOfAccess bits off = none ↔ ¬ (bits = 32 ∧ off % 4 = 0 ∧ off ≤ 0x1C) := by
  constructor
  · rintro hnone ⟨rfl, halign, hle⟩
    obtain ⟨r, rfl⟩ := exists_reg_offset_eq halign hle
    rw [regOfAccess_offset] at hnone
    cases hnone
  · intro hout
    cases hr : regOfAccess bits off with
    | none => rfl
    | some r => exact absurd (window_of_regOfAccess_eq_some hr) hout

theorem hostStep_regWrite_refused_iff (bits off : Nat) (v : Word) (s : State) :
    hostStep (.regWrite bits off v) s = .refused .registerAccess ↔ regOfAccess bits off = none := by
  cases hr : regOfAccess bits off <;> simp [hostStep, hr]

theorem hostStep_regRead_refused_iff (bits off : Nat) (s : State) :
    hostStep (.regRead bits off) s = .refused .registerAccess ↔ regOfAccess bits off = none := by
  cases hr : regOfAccess bits off <;> simp [hostStep, hr]

/-- Settles O8: a register access is refused exactly when it reaches no register. -/
theorem accessOutsideTheRegisterWindowIsRefused : Obligations.AccessOutsideTheRegisterWindowIsRefused := by
  intro s bits off v rest
  refine ⟨fun hm => ?_, fun hm => ?_⟩
  · rw [step_of_host hm, hostStep_regWrite_refused_iff, regOfAccess_eq_none_iff]
  · rw [step_of_host hm, hostStep_regRead_refused_iff, regOfAccess_eq_none_iff]

/-! ## Buffer accesses -/

/-- An access guarded by a capacity is refused exactly at or beyond it (20_memory.md R44). -/
theorem capacityGuard_refused_iff (a capacity : Nat) (t : State) :
    (if a < capacity then .next t else .refused .bufferAccess : Result) = .refused .bufferAccess ↔ capacity ≤ a := by
  by_cases ha : a < capacity
  · simp [ha]
  · simp [ha, Nat.not_lt.1 ha]

/-- Settles O9: each of the four byte accesses is guarded by its buffer's capacity. -/
theorem bufferAccessBeyondCapacityIsRefused : Obligations.BufferAccessBeyondCapacityIsRefused := by
  intro s a b rest
  refine ⟨fun hm => ?_, fun hm => ?_, fun hm => ?_, fun hm => ?_⟩
  · rw [step_of_host hm, hostStep]
    exact capacityGuard_refused_iff a s.cfg.inMemBytes _
  · rw [step_of_host hm, hostStep]
    exact capacityGuard_refused_iff a s.cfg.inMemBytes _
  · rw [step_of_host hm, hostStep]
    exact capacityGuard_refused_iff a s.cfg.outMemBytes _
  · rw [step_of_host hm, hostStep]
    exact capacityGuard_refused_iff a s.cfg.outMemBytes _

end Sys2Proof.Machine
end

section
/-! PROOFS. Decoding what `encode` writes: command words and tokens (30_encoding.md R54, R62 to R64). -/

namespace Sys2Proof

/-! ## The command a word selects -/

theorem reservedOp_iff (op : BitVec 4) : reservedOp op = true ↔ op.toNat = 0 ∨ 7 ≤ op.toNat := by
  simp [reservedOp, BitVec.toNat_eq]

/-- A word selects its command by its low four bits (30_encoding.md R55). -/
theorem decodeCommand_congr {v w : Word} (h : v.toNat % 16 = w.toNat % 16) : decodeCommand v = decodeCommand w := by
  have hop : v.extractLsb' 0 4 = w.extractLsb' 0 4 :=
    BitVec.eq_of_toNat_eq (by rw [Machine.opBits_toNat, Machine.opBits_toNat, h])
  simp only [decodeCommand, hop]

/-- The OP values 0x0 and 0x7..0xF select no command (30_encoding.md R67). -/
theorem decodeCommand_reserved {w : Word} (h : w.toNat % 16 = 0 ∨ 7 ≤ w.toNat % 16) :
    decodeCommand w = .reservedCommand (w.extractLsb' 0 4) := by
  rw [← Machine.opBits_toNat] at h
  unfold decodeCommand
  split
  case h_7 => rfl
  all_goals omega

/-- Settles O19: a word that agrees with an OP value in its low four bits selects the same command. -/
theorem commandIsSelectedByTheLowFourBits : Obligations.CommandIsSelectedByTheLowFourBits := by
  intro w
  refine ⟨fun h => decodeCommand_congr (w := 1) h, fun h => decodeCommand_congr (w := 2) h,
    fun h => decodeCommand_congr (w := 3) h, fun h => decodeCommand_congr (w := 4) h,
    fun h => decodeCommand_congr (w := 5) h, fun h => decodeCommand_congr (w := 6) h, fun h => ?_⟩
  have hop : (w.extractLsb' 0 4).toNat = w.toNat % 16 := Machine.opBits_toNat w
  exact ⟨_, decodeCommand_reserved h, hop, (reservedOp_iff _).2 (hop ▸ h)⟩

/-- The word that holds a command's OP value selects that command. -/
theorem decodeCommand_commandOp {i : Instr} {op : BitVec 4} (hwf : wellFormed .command i = true)
    (hop : commandOp i = some op) : decodeCommand (BitVec.ofNat 32 op.toNat) = i := by
  cases i with
  | lzssCompress | lzssDecompress | huffmanCompress | huffmanDecompress | hsCompress | hsDecompress =>
    cases hop
    rfl
  | reservedCommand r =>
    cases hop
    have hlow : (BitVec.ofNat 32 op.toNat).toNat % 16 = op.toNat := by
      rw [BitVec.toNat_ofNat]; omega
    have hbits : (BitVec.ofNat 32 op.toNat).extractLsb' 0 4 = op :=
      BitVec.eq_of_toNat_eq ((Machine.opBits_toNat _).trans hlow)
    rw [decodeCommand_reserved (by rw [hlow]; exact (reservedOp_iff op).1 hwf), hbits]
  | lit | matchTok | lzssContainer | huffmanContainer | hsContainer => cases hop

/-! ## Fields read back from packed bits -/

section
variable {bits as bs : List Bool} {q : Nat}

/-- GetBit at a position whose bit is known. -/
theorem getBit_of_bits_eq {b : Bool} (hbits : bits = as ++ b :: bs) (hq : q = as.length) :
    getBit { src := packBits bits, pos := q } = some (b, { src := packBits bits, pos := q + 1 }) := by
  subst hbits hq
  exact getBit_packBits as bs b

/-- GetBits at a position where the `w` bits of a value `v` stand gives `v` back (40_bitstream.md R82). -/
theorem getBits_of_bits_eq {v w : Nat} (hv : v < 2 ^ w) (hbits : bits = as ++ valueBits v w ++ bs)
    (hq : q = as.length) :
    getBits { src := packBits bits, pos := q } w = some (v, { src := packBits bits, pos := q + w }) := by
  subst hbits hq
  rw [getBits_packBits as _ bs w (length_valueBits v w), bitsValue_valueBits, Nat.mod_eq_of_lt hv]

end

/-! ## Tokens -/

section
variable {wD wL : Nat} {bits as bs : List Bool}

/-- ReadToken gives a literal back (30_encoding.md R62). -/
theorem readToken_literal {b : Byte} (hbits : bits = as ++ encode (.token wD wL) (.lit b) ++ bs) :
    readToken { src := packBits bits, pos := as.length } wD wL =
      some (.literal b, { src := packBits bits, pos := as.length + 1 + 8 }) := by
  have henc : encode (.token wD wL) (.lit b) = false :: valueBits b.toNat 8 := rfl
  rw [henc] at hbits
  have hflag := getBit_of_bits_eq (bits := bits) (as := as) (bs := valueBits b.toNat 8 ++ bs) (b := false)
    (by simp [hbits]) rfl
  have hbyte := getBits_of_bits_eq (bits := bits) (as := as ++ [false]) (bs := bs) (q := as.length + 1) b.isLt
    (by simp [hbits]) (by simp)
  simp [readToken, hflag, hbyte]

/-- ReadToken gives a match back whose operands fit their fields (30_encoding.md R63, R64). -/
theorem readToken_copy {d len : Nat} (hfits : matchEncodable wD wL d len = true)
    (hbits : bits = as ++ encode (.token wD wL) (.matchTok d len) ++ bs) :
    readToken { src := packBits bits, pos := as.length } wD wL =
      some (.copy d len, { src := packBits bits, pos := as.length + 1 + wD + wL }) := by
  simp only [matchEncodable, Bool.and_eq_true, decide_eq_true_eq] at hfits
  obtain ⟨⟨⟨⟨-, hd1⟩, hd⟩, hlen1⟩, hlen⟩ := hfits
  have henc : encode (.token wD wL) (.matchTok d len) = true :: (valueBits (d - 1) wD ++ valueBits (len - 1) wL) := rfl
  rw [henc] at hbits
  have hflag := getBit_of_bits_eq (bits := bits) (as := as) (bs := valueBits (d - 1) wD ++ valueBits (len - 1) wL ++ bs)
    (b := true) (by simp [hbits]) rfl
  have hdist := getBits_of_bits_eq (bits := bits) (as := as ++ [true]) (bs := valueBits (len - 1) wL ++ bs)
    (q := as.length + 1) (show d - 1 < 2 ^ wD by omega) (by simp [hbits]) (by simp)
  have hcopy := getBits_of_bits_eq (bits := bits) (as := as ++ [true] ++ valueBits (d - 1) wD) (bs := bs)
    (q := as.length + 1 + wD) (show len - 1 < 2 ^ wL by omega) (by simp [hbits]) (by simp; omega)
  simp [readToken, hflag, hdist, hcopy, Nat.sub_add_cancel hd1, Nat.sub_add_cancel hlen1]

/-- ReadToken gives back any token that its field widths can encode, wherever its bits stand (42_lzss.md R103). -/
theorem readToken_encode {t : Token} (hwf : wellFormed (.token wD wL) (instrOfToken t) = true)
    (hbits : bits = as ++ encode (.token wD wL) (instrOfToken t) ++ bs) :
    readToken { src := packBits bits, pos := as.length } wD wL =
      some (t, { src := packBits bits, pos := as.length + (encode (.token wD wL) (instrOfToken t)).length }) := by
  cases t with
  | literal b =>
    have hlen : (encode (.token wD wL) (instrOfToken (.literal b))).length = 9 := Laws.EncodedLength.lit b _ hwf
    rw [hlen]
    exact readToken_literal hbits
  | copy d len =>
    have hlen : (encode (.token wD wL) (instrOfToken (.copy d len))).length = 1 + wD + wL :=
      Laws.EncodedLength.matchTok d len _ hwf
    rw [hlen, readToken_copy hwf hbits, Nat.add_assoc, Nat.add_assoc, Nat.add_assoc]

end

theorem exists_token_of_wellFormed {wD wL : Nat} {i : Instr} (hwf : wellFormed (.token wD wL) i = true) :
    ∃ t, i = instrOfToken t := by
  cases i with
  | lit b => exact ⟨.literal b, rfl⟩
  | matchTok d len => exact ⟨.copy d len, rfl⟩
  | _ => cases hwf

theorem exists_commandOp_of_wellFormed {i : Instr} (hwf : wellFormed .command i = true) :
    ∃ op, commandOp i = some op := by
  cases i with
  | lit | matchTok | lzssContainer | huffmanContainer | hsContainer => cases hwf
  | _ => exact ⟨_, rfl⟩

/-- Settles O21, by the encoding: a command word is one field of 32 bits, a token is read by ReadToken. -/
theorem decodeOfEncodeGivesTheInstruction : Obligations.DecodeOfEncodeGivesTheInstruction := by
  intro f i before after hwf hf
  cases f with
  | command =>
    obtain ⟨op, hop⟩ := exists_commandOp_of_wellFormed hwf
    have henc : encode .command i = valueBits op.toNat 32 := by simp only [encode, hop]
    have hread := getBits_of_bits_eq (bits := before ++ valueBits op.toNat 32 ++ after)
      (show op.toNat < 2 ^ 32 by omega) rfl rfl
    simp only [decode, henc, hread, decodeCommand_commandOp hwf hop, length_valueBits]
  | token wD wL =>
    obtain ⟨t, rfl⟩ := exists_token_of_wellFormed hwf
    simp only [decode, readToken_encode hwf (as := before) (bs := after) rfl]
  | container ident => exact absurd rfl (hf ident)

end Sys2Proof
end

section
/-! PROOFS. Decoding what `encode` writes: container headers (30_encoding.md R58 to R60, R71). -/

namespace Sys2Proof

/-! ## Whole bytes in packed bits -/

/-- The bits of a value in a field of `m + k` bits: its high bits, then its low `k` (20_memory.md R41). -/
theorem valueBits_add (v m k : Nat) : valueBits v (m + k) = valueBits (v / 2 ^ k) m ++ valueBits v k := by
  induction m with
  | zero => simp [valueBits]
  | succ m ih => rw [Nat.succ_add, valueBits, valueBits, Nat.testBit_div_two_pow, ih, Nat.add_comm, List.cons_append]

/-- A field holds the low bits of its value (40_bitstream.md R77). -/
theorem valueBits_mod (v w : Nat) : ∀ k ≤ w, valueBits (v % 2 ^ w) k = valueBits v k
  | 0, _ => rfl
  | k + 1, hk => by
    rw [valueBits, valueBits, valueBits_mod v w k (by omega), Nat.testBit_mod_two_pow, decide_eq_true (by omega),
      Bool.true_and]

theorem byteBits_ofNat (v : Nat) : byteBits (BitVec.ofNat 8 v) = valueBits v 8 := by
  rw [byteBits, BitVec.toNat_ofNat, valueBits_mod v 8 8 le_rfl]

/-- A 32-bit field is its four bytes, most significant first (20_memory.md R40). -/
theorem flatMap_byteBits_u32be (v : Nat) : (u32be v).flatMap byteBits = valueBits v 32 := by
  rw [valueBits_add v 8 24, valueBits_add v 8 16, valueBits_add v 8 8]
  simp [u32be, byteBits_ofNat]

theorem packBits_byteBits (b : Byte) : packBits (byteBits b) = [b] := by
  rw [packBits_short _ (by simp [byteBits, valueBits]) (by simp [byteBits]), packByte, byteBits, length_valueBits,
    bitsValue_valueBits]
  simp [Nat.mod_eq_of_lt b.isLt]

/-- Bytes packed whole are those bytes, and the bits after them are packed on their own (30_encoding.md R66). -/
theorem packBits_flatMap_byteBits (bytes : List Byte) (bits : List Bool) :
    packBits (bytes.flatMap byteBits ++ bits) = bytes ++ packBits bits := by
  induction bytes with
  | nil => rfl
  | cons b bytes ih =>
    rw [List.flatMap_cons, List.append_assoc, packBits_append _ _ (by simp [byteBits]), packBits_byteBits, ih]
    rfl

/-! ## Fields of a header -/

/-- The bytes of a container header that carries the identifier `ident` (30_encoding.md R58, R59, R60). -/
def headerBytes (ident : Byte) : Instr → List Byte
  | .lzssContainer n d l => ident :: (u32be n.toNat ++ u32be d.toNat ++ u32be l.toNat)
  | .huffmanContainer n lens => ident :: (u32be n.toNat ++ lens)
  | .hsContainer n lens => ident :: (u32be n.toNat ++ lens)
  | _ => []

/-- The encoding of a container header is the bits of its bytes. -/
theorem encode_container (ident : Byte) (i : Instr) :
    encode (.container ident) i = (headerBytes ident i).flatMap byteBits := by
  cases i with
  | lzssContainer n d l =>
    simp only [encode, headerBytes, List.flatMap_cons, List.flatMap_append, flatMap_byteBits_u32be, List.append_assoc]
  | huffmanContainer n lens | hsContainer n lens =>
    simp only [encode, headerBytes, List.flatMap_cons, List.flatMap_append, flatMap_byteBits_u32be, List.append_assoc,
      lensBits]
  | _ => rfl

/-- A header has the length of its identifier (30_encoding.md R71). -/
theorem length_headerBytes {ident : Byte} {i : Instr} (hwf : wellFormed (.container ident) i = true) :
    (headerBytes ident i).length = headerLength ident := by
  cases i with
  | lzssContainer n d l =>
    simp only [wellFormed, beq_iff_eq] at hwf
    subst hwf
    rfl
  | huffmanContainer n lens | hsContainer n lens =>
    simp only [wellFormed, Bool.and_eq_true, beq_iff_eq] at hwf
    obtain ⟨rfl, hlens⟩ := hwf
    simp [headerBytes, hlens, u32be, headerLength]
  | _ => cases hwf

theorem byteAt_append_right (as bs : List Byte) (k : Nat) : byteAt (as ++ bs) (as.length + k) = byteAt bs k := by
  rw [byteAt, byteAt, List.getD_append_right _ _ _ _ (Nat.le_add_right _ _), Nat.add_sub_cancel_left]

/-- The four bytes of a word read as that word, whatever stands before and after them (20_memory.md R40). -/
theorem be32_u32be {src : List Byte} {q : Nat} {w : Word} (as bs : List Byte) (hsrc : src = as ++ (u32be w.toNat ++ bs))
    (hq : q = as.length) : BitVec.ofNat 32 (be32 src q) = w := by
  subst hsrc hq
  have hlt := w.isLt
  have hfirst := byteAt_append_right as (u32be w.toNat ++ bs) 0
  rw [Nat.add_zero] at hfirst
  apply BitVec.eq_of_toNat_eq
  rw [Machine.toNat_ofNat_be32, be32, hfirst, byteAt_append_right, byteAt_append_right, byteAt_append_right]
  simp only [u32be, byteAt, List.cons_append, List.getD_cons_zero, List.getD_cons_succ, BitVec.toNat_ofNat]
  omega

/-- A source that starts with a header's bytes reads as that header (30_encoding.md R58, R59, R60). -/
theorem containerInstr_headerBytes {ident : Byte} {i : Instr} (hwf : wellFormed (.container ident) i = true)
    (body : List Byte) : containerInstr ident (headerBytes ident i ++ body) = some i := by
  generalize hsrc : headerBytes ident i ++ body = src
  cases i with
  | lzssContainer n d l =>
    simp only [wellFormed, beq_iff_eq] at hwf
    have hn : BitVec.ofNat 32 (be32 src 1) = n :=
      be32_u32be [ident] (u32be d.toNat ++ u32be l.toNat ++ body) (by simp [← hsrc, headerBytes]) rfl
    have hd : BitVec.ofNat 32 (be32 src 5) = d :=
      be32_u32be (ident :: u32be n.toNat) (u32be l.toNat ++ body) (by simp [← hsrc, headerBytes]) rfl
    have hl : BitVec.ofNat 32 (be32 src 9) = l :=
      be32_u32be (ident :: (u32be n.toNat ++ u32be d.toNat)) body (by simp [← hsrc, headerBytes]) rfl
    rw [containerInstr, if_pos hwf, hn, hd, hl]
  | huffmanContainer n lens | hsContainer n lens =>
    simp only [wellFormed, Bool.and_eq_true, beq_iff_eq] at hwf
    obtain ⟨hident, hlens⟩ := hwf
    have hn : BitVec.ofNat 32 (be32 src 1) = n :=
      be32_u32be [ident] (lens ++ body) (by simp [← hsrc, headerBytes]) rfl
    have htable : (src.drop 5).take 256 = lens := by
      simp [← hsrc, headerBytes, u32be, ← hlens]
    simp [containerInstr, hident, hn, htable]
  | _ => cases hwf

/-- The three checks of a header passed (42_lzss.md R102, 43_huffman.md R122): the reader is at the body. -/
theorem decodeContainer_of_instr {ident : Byte} {src : List Byte} {i : Instr} (hid : byteAt src 0 = ident)
    (hlen : headerLength ident ≤ src.length) (hi : containerInstr ident src = some i) :
    decodeContainer ident src = .ok (i, { src := src, pos := 8 * headerLength ident }) := by
  have hpos : 1 ≤ headerLength ident := by unfold headerLength; split <;> omega
  simp only [decodeContainer, if_neg (show ¬ src.length < 1 by omega), hid, if_neg (Nat.not_lt.2 hlen), hi]
  simp

theorem byteAt_headerBytes {ident : Byte} {i : Instr} (hwf : wellFormed (.container ident) i = true)
    (body : List Byte) : byteAt (headerBytes ident i ++ body) 0 = ident := by
  cases i with
  | lzssContainer | huffmanContainer | hsContainer => rfl
  | _ => cases hwf

/-- Settles O22: the header's bytes stand whole in the packed bits, and each field is read by its byte index. -/
theorem decodeOfEncodeGivesTheContainer : Obligations.DecodeOfEncodeGivesTheContainer := by
  intro ident i body hwf
  have hlen := length_headerBytes hwf
  constructor
  · rw [encode_container, List.length_flatMap]
    simp [byteBits, hlen, Nat.mul_comm]
  · rw [encode_container, packBits_flatMap_byteBits]
    exact decodeContainer_of_instr (byteAt_headerBytes hwf _) (by rw [List.length_append, hlen]; omega)
      (containerInstr_headerBytes hwf _)

/-- Settles O20: the model's decoder run on each word. -/
theorem sampleWordsDecode : Obligations.SampleWordsDecode := ⟨rfl, rfl, rfl, rfl⟩

end Sys2Proof
end

section
/-! PROOFS. The host line `load` (30_encoding.md R73, 70_reset_and_hazards.md R155). -/

namespace Sys2Proof.Machine

/-! ## A run of byte writes to IN -/

/-- The memory after the byte writes of `bs` from address `a` on, in ascending order (20_memory.md R44). -/
def Memory.writeBytes (m : Memory) (a : Nat) : List Byte → Memory
  | [] => m
  | b :: bs => Memory.writeBytes (m.write a b) (a + 1) bs

/-- What a memory holds after the writes: the bytes written where they stand, and elsewhere what it held. -/
theorem Memory.read_writeBytes (m : Memory) (a : Nat) (bs : List Byte) (x : Nat) :
    Memory.read (m.writeBytes a bs) x =
      if a ≤ x ∧ x < a + bs.length then bs[x - a]? else Memory.read m x := by
  induction bs generalizing m a with
  | nil => rw [if_neg (by simp)]; rfl
  | cons b bs ih =>
    rw [Memory.writeBytes, ih, Memory.read_write, List.length_cons]
    by_cases hx : x = a
    · subst hx
      rw [if_neg (by omega), if_pos rfl, if_pos (by omega), Nat.sub_self]
      rfl
    · rw [if_neg hx]
      by_cases hin : a + 1 ≤ x ∧ x < a + 1 + bs.length
      · obtain ⟨k, rfl⟩ := Nat.exists_eq_add_of_le hin.1
        rw [if_pos hin, if_pos (by omega), Nat.add_sub_cancel_left, Nat.add_assoc, Nat.add_sub_cancel_left,
          Nat.add_comm 1 k, List.getElem?_cons_succ]
      · rw [if_neg hin, if_neg (by omega)]

theorem step_of_inWrite_of_not_busy {s : State} {a : Nat} {b : Byte} {rest : List Move} (hb : s.run ≠ .busy)
    (ha : a < s.cfg.inMemBytes) (hm : s.moves = .host (.inWrite a b) :: rest) :
    step s = .next { s with inMem := s.inMem.write a b, moves := rest } := by
  rw [step_of_inWrite ha hm]
  exact congrArg _ (if_neg hb)

/-- The byte writes of `wrb IN[a], bs` take one step each (30_encoding.md R72). -/
theorem core_run_inWrites (bs : List Byte) (a k : Nat) {s : State} {rest : List Move} (hb : s.run ≠ .busy)
    (hfit : a + bs.length ≤ s.cfg.inMemBytes) (hm : s.moves = inWrites a bs ++ rest) :
    core.run (bs.length + k) s = core.run k { s with inMem := s.inMem.writeBytes a bs, moves := rest } := by
  induction bs generalizing a s with
  | nil =>
    have hmoves : s.moves = rest := hm
    rw [← hmoves, List.length_nil, Nat.zero_add]
    rfl
  | cons b bs ih =>
    rw [List.length_cons] at hfit
    have hwrite := step_of_inWrite_of_not_busy (rest := inWrites (a + 1) bs ++ rest) hb (by omega) hm
    have hrest := ih (a + 1) (s := { s with inMem := s.inMem.write a b, moves := inWrites (a + 1) bs ++ rest }) hb
      (show a + 1 + bs.length ≤ s.cfg.inMemBytes by omega) rfl
    rw [List.length_cons, Nat.add_right_comm, core_run_succ hwrite, hrest]
    rfl

/-! ## load -/

/-- The state after `load bs`: the bytes in IN from address 0 on and their number in IN_LEN (30_encoding.md R73). -/
def loaded (bs : List Byte) (s : State) : State :=
  { s with inMem := s.inMem.writeBytes 0 bs, inLen := BitVec.ofNat 32 bs.length }

theorem loaded_hasInput {bs : List Byte} (hlen : bs.length < 2 ^ 32) (s : State) : (loaded bs s).hasInput bs := by
  refine ⟨Nat.mod_eq_of_lt hlen, fun i hi => ?_⟩
  rw [loaded, Memory.read_writeBytes, if_pos (by omega), Nat.sub_zero, byteAt, List.getElem?_eq_getElem hi,
    List.getD_eq_getElem _ _ hi]

theorem loaded_read_beyond (bs : List Byte) (s : State) {a : Nat} (ha : bs.length ≤ a) :
    Memory.read (loaded bs s).inMem a = Memory.read s.inMem a := by
  rw [loaded, Memory.read_writeBytes, if_neg (by omega)]

/-- `load bs` takes a step for each byte and one for IN_LEN. -/
theorem core_run_load (bs : List Byte) (k : Nat) {s : State} {rest : List Move} (hb : s.run ≠ .busy)
    (hfit : bs.length ≤ s.cfg.inMemBytes) (hm : s.moves = (HostLine.load bs).moves ++ rest) :
    core.run (bs.length + 1 + k) s = core.run k { loaded bs s with moves := rest } := by
  have hmoves : s.moves = inWrites 0 bs ++ (wrMove .inLen (BitVec.ofNat 32 bs.length) :: rest) := by
    rw [hm, HostLine.moves, List.append_assoc]
    rfl
  rw [Nat.add_assoc, core_run_inWrites bs 0 (1 + k) hb (by omega) hmoves, Nat.add_comm 1 k]
  refine core_run_succ (step_of_regWrite_of_not_busy .inLen (rest := rest) ?_ rfl) k
  exact hb

/-- Settles O13. -/
theorem loadGivesACommandItsInput : Obligations.LoadGivesACommandItsInput := by
  intro s bs rest hb hfit hlen hm
  exact ⟨{ loaded bs s with moves := rest }, core_run_load bs 0 hb hfit hm, loaded_hasInput hlen s, rfl,
    fun a ha => loaded_read_beyond bs s ha, rfl, rfl, rfl, rfl⟩

end Sys2Proof.Machine
end

section
/-! PROOFS. A container with an identifier that its decoder does not expect (30_encoding.md R68). -/

namespace Sys2Proof.Machine

/-- A nonempty source that does not start with the expected identifier has no header (30_encoding.md R68). -/
theorem decodeContainer_of_wrong_ident {ident : Byte} {src : List Byte} (hne : 1 ≤ src.length)
    (hid : byteAt src 0 ≠ ident) : decodeContainer ident src = .error .wrongIdent := by
  rw [decodeContainer, if_neg (by omega), if_pos hid]

/-- The LZSS decoder rejects a wrong identifier as CorruptStream (42_lzss.md R102). -/
theorem lzssDecode_of_wrong_ident (cap : Nat) {src : List Byte} (hne : 1 ≤ src.length)
    (hid : byteAt src 0 ≠ Config.identLzss) : lzssDecode cap src = .error .corruptStream := by
  rw [lzssDecode, decodeContainer_of_wrong_ident hne hid]
  rfl

/-- The Huffman and HS decoders reject a wrong identifier as CorruptHeader (43_huffman.md R122). -/
theorem hufDecode_of_wrong_ident {ident : Byte} (cap : Nat) {src : List Byte} (hident : ident ≠ Config.identLzss)
    (hne : 1 ≤ src.length) (hid : byteAt src 0 ≠ ident) : hufDecode ident cap src = .error .corruptHeader := by
  rw [hufDecode, decodeContainer_of_wrong_ident hne hid]
  exact congrArg _ (if_neg hident)

/-- The first byte of a command's input, where the host has written it. -/
theorem byteAt_inputBytes_zero {s : State} {b : Byte} (hne : 1 ≤ s.inLen.toNat)
    (hread : Memory.read s.inMem 0 = some b) : byteAt (inputBytes s) 0 = b := by
  obtain ⟨n, hn⟩ := Nat.exists_eq_add_of_le' hne
  rw [inputBytes, hn, Memory.bytes, hread]
  rfl

/-- A command whose value is an error ends in it and keeps its operands (60_exceptions.md R143). -/
theorem exec_fails {i : Instr} {s : State} {k : ErrKind} (hi : commandOp i ≠ none) (hv : commandValue i s = .error k) :
    ∃ t, exec i s = .next t ∧ t.failsWith k ∧ s.keepsOperands t :=
  ⟨raiseError k s, by rw [exec_command i s hi, hv, complete_error], raiseError_failsWith k s,
    raiseError_keepsOperands k s⟩

/-- Settles O52, by the command and, for HSDecompress, by the stage that meets the wrong identifier. -/
theorem wrongContainerIdentifierIsRejected : Obligations.WrongContainerIdentifierIsRejected := by
  intro s b hne hfit hread
  have hfirst : byteAt (inputBytes s) 0 = b := byteAt_inputBytes_zero hne hread
  have hlen : 1 ≤ (inputBytes s).length := by rwa [inputBytes_length]
  refine ⟨fun hb => exec_fails (by decide) ?_, fun hb => exec_fails (by decide) ?_,
    fun hb => exec_fails (by decide) ?_, fun src inner hsrc houter hinner hid => exec_fails (by decide) ?_⟩
  · rw [commandValue, withInput_of_fits _ _ _ rfl hfit]
    exact lzssDecode_of_wrong_ident _ hlen (hfirst ▸ hb)
  · rw [commandValue, withInput_of_fits _ _ _ rfl hfit]
    exact hufDecode_of_wrong_ident _ (by decide) hlen (hfirst ▸ hb)
  · rw [commandValue, withInput_of_fits _ _ _ rfl hfit, hsDecode,
      hufDecode_of_wrong_ident _ (by decide) hlen (hfirst ▸ hb)]
  · rw [commandValue, withInput_of_fits _ _ _ rfl hfit, inputBytes_of_hasInput s src hsrc, hsDecode, Config.identHs,
      houter]
    exact lzssDecode_of_wrong_ident _ hinner hid

end Sys2Proof.Machine
end

section
/-! PROOFS. Fields put and flushed, read back, and the end of the stream checked (40_bitstream.md R77 to R84). -/

namespace Sys2Proof.Machine

/-! ## The end of a stream -/

/-- The two conditions under which CheckEnd succeeds (40_bitstream.md R83). -/
theorem checkEnd_ok_iff (rd : Reader) :
    checkEnd rd = .ok () ↔
      rd.src.length = (rd.pos + 7) / 8 ∧ ∀ q, rd.pos ≤ q → q < 8 * ((rd.pos + 7) / 8) → bitAt rd.src q = false := by
  by_cases hlen : (rd.pos + 7) / 8 = rd.src.length
  · have hpad : (List.range (8 * rd.src.length - rd.pos)).any (fun i => bitAt rd.src (rd.pos + i)) = false ↔
        ∀ q, rd.pos ≤ q → q < 8 * rd.src.length → bitAt rd.src q = false := by
      rw [List.any_eq_false]
      constructor
      · intro h q hq hlt
        have hq' := h (q - rd.pos) (List.mem_range.2 (by omega))
        rw [Nat.add_sub_cancel' hq] at hq'
        exact Bool.eq_false_iff.2 hq'
      · intro h i hi
        rw [List.mem_range] at hi
        exact Bool.eq_false_iff.1 (h _ (Nat.le_add_right _ _) (by omega))
    simp [checkEnd, hlen, ← hpad]
  · simp [checkEnd, hlen, Ne.symm hlen]

/-- CheckEnd raises no error but CorruptStream (40_bitstream.md R83). -/
theorem checkEnd_cases (rd : Reader) : checkEnd rd = .ok () ∨ checkEnd rd = .error .corruptStream := by
  simp only [checkEnd]
  split
  · exact .inr rfl
  · split
    · exact .inr rfl
    · exact .inl rfl

/-- Settles O25. -/
theorem checkEndAcceptsExactlyZeroPadding : Obligations.CheckEndAcceptsExactlyZeroPadding :=
  fun rd => ⟨checkEnd_ok_iff rd, (checkEnd_cases rd).resolve_left⟩

/-- Packed bits end with the byte of the last one and pad it with 0 bits (30_encoding.md R66). -/
theorem checkEnd_packBits (bits : List Bool) : checkEnd { src := packBits bits, pos := bits.length } = .ok () := by
  refine (checkEnd_ok_iff _).2 ⟨length_packBits bits, fun q hq _ => ?_⟩
  rw [bitAt_packBits, List.getD_eq_default _ _ hq]

/-! ## Fields put -/

/-- The bits of a sequence of fields, each a value and a width (40_bitstream.md R77). -/
def fieldsBits (fs : List (Nat × Nat)) : List Bool := fs.flatMap fun f => valueBits f.1 f.2

theorem fieldsBits_cons (f : Nat × Nat) (fs : List (Nat × Nat)) :
    fieldsBits (f :: fs) = valueBits f.1 f.2 ++ fieldsBits fs := List.flatMap_cons

theorem length_fieldsBits (fs : List (Nat × Nat)) : (fieldsBits fs).length = (fs.map Prod.snd).sum := by
  simp [fieldsBits, List.length_flatMap]

theorem puts_putFields (fs : List (Nat × Nat)) (w : Writer) (bits : List Bool) (h : w.Holds bits) :
    Puts w bits (fieldsBits fs) (putFields w fs) := by
  induction fs generalizing w bits with
  | nil => exact .inl ⟨w, rfl, by simpa [fieldsBits] using h, rfl⟩
  | cons f fs ih =>
    rw [fieldsBits_cons]
    exact (puts_putBits w bits f.1 f.2 h).bind fun w' h' => ih w' _ h'

/-- Everything a sequence of PutBits calls and Flush can do (40_bitstream.md R79). -/
theorem writeFields_eq (dest : Dest) (cap : Nat) (fs : List (Nat × Nat)) :
    writeFields dest cap fs =
      if ((fs.map Prod.snd).sum + 7) / 8 ≤ cap then .ok (packBits (fieldsBits fs)) else .error .capacityExceeded := by
  have h := (puts_putFields fs _ [] (Writer.holds_new dest cap)).flush
  rw [length_fieldsBits] at h
  exact h

/-- Settles O23. -/
theorem flushedFieldsArePackedMostSignificantFirst : Obligations.FlushedFieldsArePackedMostSignificantFirst :=
  writeFields_eq

/-! ## Fields read back -/

/-- GetBits calls with the widths of fields that stand in packed bits give the fields' values and move past them
(40_bitstream.md R84). -/
theorem getFields_packBits {bits : List Bool} (fs : List (Nat × Nat)) (as bs : List Bool)
    (hfits : ∀ f ∈ fs, f.1 < 2 ^ f.2) (hbits : bits = as ++ fieldsBits fs ++ bs) :
    getFields { src := packBits bits, pos := as.length } (fs.map Prod.snd) =
      some (fs.map Prod.fst, { src := packBits bits, pos := as.length + (fieldsBits fs).length }) := by
  induction fs generalizing as with
  | nil => rfl
  | cons f fs ih =>
    obtain ⟨hf, hfs⟩ := List.forall_mem_cons.1 hfits
    rw [fieldsBits_cons] at hbits
    have hfirst := getBits_of_bits_eq (bits := bits) (as := as) (bs := fieldsBits fs ++ bs) hf (by simp [hbits]) rfl
    have hrest := ih (as ++ valueBits f.1 f.2) hfs (by simp [hbits])
    rw [List.length_append, length_valueBits] at hrest
    simp only [List.map_cons, getFields, hfirst, hrest, fieldsBits_cons, List.length_append, length_valueBits,
      Nat.add_assoc]

/-- Settles O24: the stream is the fields' bits packed, and the reader stands after the last of them. -/
theorem fieldsReadBackAsWritten : Obligations.FieldsReadBackAsWritten := by
  intro dest cap fs bs hfits hwrite
  rw [writeFields_eq] at hwrite
  split at hwrite
  · cases hwrite
    have hread := getFields_packBits (bits := fieldsBits fs) fs [] [] hfits (by simp)
    rw [List.length_nil, Nat.zero_add] at hread
    exact ⟨_, hread, checkEnd_packBits _⟩
  · cases hwrite

end Sys2Proof.Machine
end

section
/-! PROOFS. FindMatch: the longest match in the window, the nearest one on ties (41_matcher.md R88 to R92). -/

namespace Sys2Proof.Machine

/-! ## The match length of one candidate -/

theorem byteAt_drop (xs : List Byte) (n i : Nat) : byteAt (xs.drop n) i = byteAt xs (n + i) := by
  simp [byteAt, List.getD_eq_getElem?_getD]

theorem commonLength_le (cap : Nat) (xs ys : List Byte) : commonLength cap xs ys ≤ cap := by
  fun_induction commonLength cap xs ys with
  | case1 cap x xs ys ih => exact Nat.succ_le_succ ih
  | case2 => exact Nat.zero_le _
  | case3 => exact Nat.zero_le _

theorem byteAt_eq_of_lt_commonLength {cap : Nat} {xs ys : List Byte} {i : Nat} (hi : i < commonLength cap xs ys) :
    byteAt xs i = byteAt ys i := by
  fun_induction commonLength cap xs ys generalizing i with
  | case1 cap x xs ys ih =>
    cases i with
    | zero => rfl
    | succ i => exact ih (Nat.lt_of_succ_lt_succ hi)
  | case2 => exact absurd hi (Nat.not_lt_zero _)
  | case3 => exact absurd hi (Nat.not_lt_zero _)

/-- The common part ends below `cap` only at a difference, in sequences that have `cap` elements. -/
theorem byteAt_ne_at_commonLength {cap : Nat} {xs ys : List Byte} (hx : cap ≤ xs.length) (hy : cap ≤ ys.length)
    (hlt : commonLength cap xs ys < cap) :
    byteAt xs (commonLength cap xs ys) ≠ byteAt ys (commonLength cap xs ys) := by
  fun_induction commonLength cap xs ys with
  | case1 cap x xs ys ih =>
    exact ih (Nat.le_of_succ_le_succ hx) (Nat.le_of_succ_le_succ hy) (Nat.lt_of_succ_lt_succ hlt)
  | case2 cap x xs y ys hne => exact hne
  | case3 cap xs ys hcons =>
    match cap, xs, ys with
    | cap + 1, x :: xs, y :: ys => exact absurd rfl (hcons cap x xs y ys rfl rfl)

theorem matchLength_le (input : List Byte) (p d cap : Nat) : matchLength input p d cap ≤ cap := commonLength_le ..

/-- The model's match length is R88's, wherever the cap stays inside the input. -/
theorem isMatchLength_matchLength {input : List Byte} {p cap : Nat} (d : Nat) (hcap : cap ≤ input.length - p) :
    isMatchLength input p d cap (matchLength input p d cap) := by
  refine ⟨matchLength_le .., fun i hi => ?_, fun hlt => ?_⟩
  · simpa only [byteAt_drop] using byteAt_eq_of_lt_commonLength hi
  · have hsource : cap ≤ (input.drop (p - d)).length := by rw [List.length_drop]; omega
    simpa only [matchLength, byteAt_drop] using byteAt_ne_at_commonLength (by rwa [List.length_drop]) hsource hlt

/-- At most one number is the match length of a candidate: the lesser of two would have to differ from itself. -/
theorem isMatchLength_unique {input : List Byte} {p d cap k k' : Nat} (h : isMatchLength input p d cap k)
    (h' : isMatchLength input p d cap k') : k = k' := by
  obtain ⟨hle, heq, hne⟩ := h
  obtain ⟨hle', heq', hne'⟩ := h'
  rcases Nat.lt_trichotomy k k' with hlt | rfl | hlt
  · exact absurd (heq' k hlt) (hne (Nat.lt_of_lt_of_le hlt hle'))
  · rfl
  · exact absurd (heq k' hlt) (hne' (Nat.lt_of_lt_of_le hlt hle))

theorem isMatchLength_iff {input : List Byte} {p d cap k : Nat} (hcap : cap ≤ input.length - p) :
    isMatchLength input p d cap k ↔ k = matchLength input p d cap := by
  refine ⟨fun h => isMatchLength_unique h (isMatchLength_matchLength d hcap), ?_⟩
  rintro rfl
  exact isMatchLength_matchLength d hcap

/-! ## The best of the candidates -/

/-- (best_d, best_len) after FindMatch's loop has examined the distances 1 to `n` (41_matcher.md R91). -/
def bestMatch (input : List Byte) (p cap n : Nat) : Nat × Nat :=
  ((List.range n).map (· + 1)).foldl (betterMatch input p cap) (0, 0)

theorem bestMatch_succ (input : List Byte) (p cap n : Nat) :
    bestMatch input p cap (n + 1) = betterMatch input p cap (bestMatch input p cap n) (n + 1) := by
  simp [bestMatch, List.range_succ]

/-- What FindMatch's loop keeps (41_matcher.md R89): no distance from 1 to `n` has a longer match than `best` or a nearer
one of its length, and `best` is one of them unless its length is still 0. -/
structure NearestLongest (input : List Byte) (p cap n : Nat) (best : Nat × Nat) : Prop where
  le_bound : best.1 ≤ n
  attained : 0 < best.2 → 1 ≤ best.1 ∧ matchLength input p best.1 cap = best.2
  least : ∀ d, 1 ≤ d → d ≤ n →
    matchLength input p d cap ≤ best.2 ∧ (matchLength input p d cap = best.2 → best.1 ≤ d)

/-- One round of the loop: a strictly longer candidate beats all the distances before it, and any other one is the
farthest so far. -/
theorem NearestLongest.betterMatch {input : List Byte} {p cap n : Nat} {best : Nat × Nat}
    (h : NearestLongest input p cap n best) :
    NearestLongest input p cap (n + 1) (betterMatch input p cap best (n + 1)) := by
  obtain ⟨hbound, hattained, hleast⟩ := h
  unfold Machine.betterMatch
  split
  next hlonger =>
    refine ⟨le_rfl, fun _ => ⟨Nat.le_add_left 1 n, rfl⟩, fun d h1 hn => ?_⟩
    rcases Nat.le_succ_iff.1 hn with hn | rfl
    · have hlt := (hleast d h1 hn).1.trans_lt hlonger
      exact ⟨hlt.le, fun heq => absurd heq hlt.ne⟩
    · exact ⟨le_rfl, fun _ => le_rfl⟩
  next hnot =>
    refine ⟨Nat.le_succ_of_le hbound, hattained, fun d h1 hn => ?_⟩
    rcases Nat.le_succ_iff.1 hn with hn | rfl
    · exact hleast d h1 hn
    · exact ⟨Nat.le_of_not_lt hnot, fun _ => Nat.le_succ_of_le hbound⟩

theorem nearestLongest_bestMatch (input : List Byte) (p cap n : Nat) :
    NearestLongest input p cap n (bestMatch input p cap n) := by
  induction n with
  | zero =>
    exact ⟨le_rfl, fun h => absurd h (Nat.lt_irrefl 0), fun d h1 h0 => absurd (h1.trans h0) (Nat.not_succ_le_zero 0)⟩
  | succ n ih =>
    rw [bestMatch_succ]
    exact ih.betterMatch

theorem bestMatch_length_le (input : List Byte) (p cap n : Nat) : (bestMatch input p cap n).2 ≤ cap := by
  rcases Nat.eq_zero_or_pos (bestMatch input p cap n).2 with h0 | hpos
  · omega
  · obtain ⟨-, heq⟩ := (nearestLongest_bestMatch input p cap n).attained hpos
    exact heq ▸ matchLength_le ..

/-- FindMatch by the best candidate alone: the test of the cap before the loop decides nothing of its own. -/
theorem findMatch_eq (input : List Byte) (p d l : Nat) :
    findMatch input p d l =
      if 3 ≤ (bestMatch input p (min l (input.length - p)) (min d p)).2 then
        some (bestMatch input p (min l (input.length - p)) (min d p)) else none := by
  have hle := bestMatch_length_le input p (min l (input.length - p)) (min d p)
  by_cases hcap : min l (input.length - p) < 3
  · exact (if_pos hcap).trans (if_neg (by omega)).symm
  · exact if_neg hcap

theorem findMatch_eq_some_iff {input : List Byte} {p d l : Nat} {best : Nat × Nat} :
    findMatch input p d l = some best ↔
      bestMatch input p (min l (input.length - p)) (min d p) = best ∧ 3 ≤ best.2 := by
  rw [findMatch_eq]
  constructor
  · intro h
    split at h
    next hlen => cases h; exact ⟨rfl, hlen⟩
    next => cases h
  · rintro ⟨rfl, hlen⟩
    exact if_pos hlen

theorem findMatch_eq_none_iff {input : List Byte} {p d l : Nat} :
    findMatch input p d l = none ↔ (bestMatch input p (min l (input.length - p)) (min d p)).2 < 3 := by
  rw [findMatch_eq]; simp

/-- Settles O26: both parts are read off the loop's invariant, with the model's match length as R88's. -/
theorem findMatchIsTheNearestLongestMatch : Obligations.FindMatchIsTheNearestLongestMatch := by
  intro input p d l _
  simp only [isMatchLength_iff (Nat.min_le_right l (input.length - p)), findMatch_eq_some_iff, findMatch_eq_none_iff]
  obtain ⟨hbound, hattained, hleast⟩ := nearestLongest_bestMatch input p (min l (input.length - p)) (min d p)
  constructor
  · rintro dist len ⟨hbest, hlen⟩
    rw [hbest] at hbound hattained hleast
    obtain ⟨h1, heq⟩ := hattained (Nat.zero_lt_of_lt hlen)
    refine ⟨h1, hbound, hlen, heq.symm, ?_⟩
    rintro d' _ h1' hn' rfl
    exact hleast d' h1' hn'
  · constructor
    · rintro hshort d' _ h1' hn' rfl
      exact (hleast d' h1' hn').1.trans_lt hshort
    · intro hall
      by_contra hlong
      obtain ⟨h1, heq⟩ := hattained (by omega)
      exact hlong (hall _ _ h1 hbound heq.symm)

end Sys2Proof.Machine
end

section
/-! PROOFS. The parts of the LZSS token decoder: its header checks, a literal and a match (42_lzss.md R102 to R106). -/

namespace Sys2Proof.Machine

/-! ## The header -/

/-- An empty source has no header (42_lzss.md R102). -/
theorem decodeContainer_of_empty {ident : Byte} {src : List Byte} (hlen : src.length = 0) :
    decodeContainer ident src = .error .endOfBits := by
  rw [decodeContainer, if_pos (by omega)]

/-- A source with the expected identifier that ends inside its header (42_lzss.md R102). -/
theorem decodeContainer_of_short {ident : Byte} {src : List Byte} (hne : 1 ≤ src.length) (hid : byteAt src 0 = ident)
    (hshort : src.length < headerLength ident) : decodeContainer ident src = .error .endOfBits := by
  rw [decodeContainer, if_neg (by omega), if_neg (not_not.2 hid), if_pos hshort]

theorem lzssStart_of_zero {d l : Nat} (cap n : Nat) (hzero : d = 0 ∨ l = 0) :
    lzssStart cap n d l = .error .corruptStream := if_pos hzero

section
variable {cap n d l : Nat} (hd : d ≠ 0) (hl : l ≠ 0)
include hd hl

theorem lzssStart_of_too_long (hlong : cap < n) : lzssStart cap n d l = .error .capacityExceeded := by
  rw [lzssStart, if_neg (by tauto), if_pos hlong]

theorem lzssStart_of_fits (hfits : n ≤ cap) : lzssStart cap n d l = .ok { n := n, d := d, l := l, out := [] } := by
  rw [lzssStart, if_neg (by tauto), if_neg (Nat.not_lt.2 hfits)]

end

/-- A source without a complete LZSS header ends the decoder in the error of its header (42_lzss.md R102). -/
theorem lzssDecode_of_header_error {cap : Nat} {src : List Byte} {e : DecodeError}
    (h : decodeContainer Config.identLzss src = .error e) :
    lzssDecode cap src = .error (headerError Config.identLzss e) := by
  rw [lzssDecode, h]

/-- Past a complete header the decoder's outcome is that of the value checks and then of the body from byte 13 on
(42_lzss.md R102, R106). -/
theorem lzssDecode_of_header {cap : Nat} {src : List Byte} (hlen : 13 ≤ src.length)
    (hid : byteAt src 0 = Config.identLzss) :
    lzssDecode cap src =
      lzssStart cap (be32 src 1) (be32 src 5) (be32 src 9) >>= lzssFinish { src := src, pos := 104 } := by
  rw [lzssDecode, decodeContainer_of_instr hid hlen rfl]
  cases lzssStart cap (be32 src 1) (be32 src 5) (be32 src 9) <;> rfl

/-- Settles O32, by the first check that fails. -/
theorem lzssHeaderChecksInOrder : Obligations.LzssHeaderChecksInOrder := by
  intro cap src
  refine ⟨fun hempty => lzssDecode_of_header_error (decodeContainer_of_empty hempty),
    fun hne hid => lzssDecode_of_wrong_ident cap hne hid,
    fun hne hid hshort => lzssDecode_of_header_error (decodeContainer_of_short hne hid hshort),
    fun hlen hid hzero => ?_, fun hlen hid hd hl hlong => ?_, fun hlen hid hd hl hfits => ?_⟩ <;>
    rw [lzssDecode_of_header hlen hid]
  · rw [lzssStart_of_zero _ _ hzero]; rfl
  · rw [lzssStart_of_too_long hd hl hlong]; rfl
  · rw [lzssStart_of_fits hd hl hfits]; rfl

/-- The header instruction whose value checks fail ends the command in their error. -/
theorem exec_lzssContainer_of_error {s : State} {n d l : Word} {k : ErrKind}
    (h : lzssStart s.cfg.outMemBytes n.toNat d.toNat l.toNat = .error k) :
    ∃ t, exec (.lzssContainer n d l) s = .next t ∧ t.failsWith k ∧ s.keepsOperands t :=
  ⟨raiseError k s, by simp only [exec, execLzssContainer, h], raiseError_failsWith k s, raiseError_keepsOperands k s⟩

theorem toNat_ne_zero_of_ne_zero {w : Word} (h : w ≠ 0) : w.toNat ≠ 0 := fun h0 => h (BitVec.eq_of_toNat_eq h0)

/-- Settles O36, by the first value check that fails. -/
theorem lzssContainerStartsTheTokenDecoder : Obligations.LzssContainerStartsTheTokenDecoder := by
  intro s n d l
  refine ⟨fun hd hl hfits => ?_, fun hzero => exec_lzssContainer_of_error (lzssStart_of_zero _ _ ?_),
    fun hd hl hlong => exec_lzssContainer_of_error (lzssStart_of_too_long ?_ ?_ hlong)⟩
  · simp only [exec, execLzssContainer,
      lzssStart_of_fits (toNat_ne_zero_of_ne_zero hd) (toNat_ne_zero_of_ne_zero hl) hfits]
  · exact hzero.imp (congrArg BitVec.toNat) (congrArg BitVec.toNat)
  · exact toNat_ne_zero_of_ne_zero hd
  · exact toNat_ne_zero_of_ne_zero hl

/-! ## Tokens -/

/-- Settles O33. -/
theorem literalAppendsItsByte : Obligations.LiteralAppendsItsByte := fun _ _ => rfl

/-- The checks on a match are R104's. -/
theorem matchLegal_iff (w : LzssWork) (d len : Nat) :
    matchLegal w d len = true ↔ legalMatch w.n w.d w.l w.out.length d len := by
  simp [matchLegal, and_assoc]

theorem performMatch_of_legal {w : LzssWork} {d len : Nat} (h : legalMatch w.n w.d w.l w.out.length d len) :
    performMatch d len w = .ok { w with out := copyBytes d len w.out } :=
  if_pos ((matchLegal_iff w d len).2 h)

theorem performMatch_of_illegal {w : LzssWork} {d len : Nat} (h : ¬ legalMatch w.n w.d w.l w.out.length d len) :
    performMatch d len w = .error .corruptStream :=
  if_neg (mt (matchLegal_iff w d len).1 h)

/-- Settles O35: one of the checks of R104 fails. -/
theorem illegalMatchIsCorruptStream : Obligations.IllegalMatchIsCorruptStream := by
  intro s d len h
  have hillegal : ¬ legalMatch s.work.lzss.n s.work.lzss.d s.work.lzss.l s.work.lzss.out.length d len := by
    rintro ⟨hd, ho, hmin, hl, hn⟩
    have hmin3 : 3 ≤ len := hmin
    omega
  exact ⟨raiseError .corruptStream s, by simp only [exec, execMatchTok, performMatch_of_illegal hillegal],
    raiseError_failsWith _ s, raiseError_keepsOperands _ s⟩

/-! ## The copy of a match -/

theorem byteAt_append_of_lt {xs : List Byte} (ys : List Byte) {i : Nat} (hi : i < xs.length) :
    byteAt (xs ++ ys) i = byteAt xs i := List.getD_append _ _ _ _ hi

/-- The copy leaves the bytes before it as they are (42_lzss.md R105). -/
theorem byteAt_copyBytes_of_lt {out : List Byte} {i : Nat} (d k : Nat) (hi : i < out.length) :
    byteAt (copyBytes d k out) i = byteAt out i := by
  induction k generalizing out with
  | zero => rfl
  | succ k ih => rw [copyBytes, ih (by rw [List.length_append]; omega), byteAt_append_of_lt _ hi]

/-- Each copied byte is the one `d` before it in the growing output, a byte of the same copy when they overlap
(42_lzss.md R105). -/
theorem byteAt_copyBytes_of_le {out : List Byte} {d k i : Nat} (hd : 1 ≤ d) (hdo : d ≤ out.length) (hi : out.length ≤ i)
    (hlt : i < out.length + k) : byteAt (copyBytes d k out) i = byteAt (copyBytes d k out) (i - d) := by
  induction k generalizing out with
  | zero => omega
  | succ k ih =>
    rw [copyBytes]
    have hgrown : (out ++ [byteAt out (out.length - d)]).length = out.length + 1 := by simp
    rcases hi.eq_or_lt with rfl | hi
    · have hnew : byteAt (out ++ [byteAt out (out.length - d)]) out.length = byteAt out (out.length - d) :=
        byteAt_append_right out _ 0
      rw [byteAt_copyBytes_of_lt d k (by omega), byteAt_copyBytes_of_lt d k (by omega), hnew,
        byteAt_append_of_lt _ (by omega)]
    · exact ih (by omega) (by omega) (by omega)

/-- Settles O34, with the copy of R105 as the new output. -/
theorem matchCopiesByteByByte : Obligations.MatchCopiesByteByByte := by
  intro s d len hd hD ho hlen hL hn
  refine ⟨copyBytes d len s.work.lzss.out, ?_, copyBytes_length _ _ _, fun i hi => byteAt_copyBytes_of_lt d len hi,
    fun i hi hlt => byteAt_copyBytes_of_le hd ho hi (by rwa [copyBytes_length] at hlt)⟩
  simp only [exec, execMatchTok, performMatch_of_legal (w := s.work.lzss) ⟨hD, ho, hlen, hL, hn⟩]

end Sys2Proof.Machine
end

section
/-! PROOFS. The tokens of an input: the bytes they stand for and how many they are (42_lzss.md R96). -/

namespace Sys2Proof.Machine

/-! ## The bytes of the encoder's tokens -/

theorem take_append_byteAt {xs : List Byte} {p : Nat} (hp : p < xs.length) :
    xs.take p ++ [byteAt xs p] = xs.take (p + 1) := by
  rw [List.take_add_one, List.getElem?_eq_getElem hp, byteAt, List.getD_eq_getElem _ _ hp]
  rfl

theorem byteAt_take {xs : List Byte} {p i : Nat} (hi : i < p) : byteAt (xs.take p) i = byteAt xs i := by
  simp [byteAt, List.getD_eq_getElem?_getD, List.getElem?_take_of_lt hi]

/-- The byte-at-a-time copy reproduces the overlapping source the matcher compared against (42_lzss.md R108). -/
theorem copyBytes_take {input : List Byte} {p d k : Nat} (hd : 1 ≤ d) (hdp : d ≤ p) (hk : p + k ≤ input.length)
    (heq : ∀ i < k, byteAt input (p + i) = byteAt input (p - d + i)) :
    copyBytes d k (input.take p) = input.take (p + k) := by
  induction k generalizing p with
  | zero => rfl
  | succ k ih =>
    have hlen : (input.take p).length = p := List.length_take_of_le (by omega)
    have hfirst : byteAt input p = byteAt input (p - d) := heq 0 (Nat.succ_pos k)
    rw [copyBytes, hlen, byteAt_take (by omega), ← hfirst, take_append_byteAt (by omega),
      ih (by omega) (by omega) fun i hi => ?_, Nat.add_right_comm, Nat.add_assoc]
    have hnext := heq (i + 1) (Nat.succ_lt_succ hi)
    rwa [Nat.add_right_comm, Nat.add_assoc, show p + 1 - d + i = p - d + (i + 1) by omega]

/-- The tokens from position `p` on continue the input's first `p` bytes to the whole input (42_lzss.md R96). -/
theorem expandTokens_tokensFrom (input : List Byte) (d l fuel p : Nat) (hp : p ≤ input.length)
    (hfuel : input.length ≤ p + fuel) :
    expandTokens input.length d l (tokensFrom input d l fuel p) (input.take p) = some input := by
  induction fuel generalizing p with
  | zero => rw [tokensFrom, expandTokens, List.take_of_length_le (by omega)]
  | succ fuel ih =>
    rw [tokensFrom]
    split
    next hlt =>
      have hlen : (input.take p).length = p := List.length_take_of_le hp
      split
      next => rw [expandTokens, hlen, if_pos hlt, take_append_byteAt hlt, ih (p + 1) hlt (by omega)]
      next dist len hmatch =>
        obtain ⟨hd1, hdist, hlen3, ⟨hcap, heq, -⟩, -⟩ :=
          (findMatchIsTheNearestLongestMatch input p d l hlt).1 dist len hmatch
        have hmin : Config.minMatch ≤ len := hlen3
        rw [expandTokens, hlen, if_pos (by omega), copyBytes_take hd1 (by omega) (by omega) heq,
          ih (p + len) (by omega) (by omega)]
    next hge => rw [expandTokens, List.take_of_length_le (Nat.not_lt.1 hge)]

/-- Settles O27, by the induction over the positions at which tokens start. -/
theorem tokensStandForTheInput : Obligations.TokensStandForTheInput := fun input d l =>
  expandTokens_tokensFrom input d l input.length 0 (Nat.zero_le _) (Nat.le_add_left _ _)

/-! ## Legal tokens -/

section
variable {n d l : Nat} {ts : List Token} {out all : List Byte}

theorem expandTokens_literal_iff {b : Byte} :
    expandTokens n d l (.literal b :: ts) out = some all ↔
      out.length < n ∧ expandTokens n d l ts (out ++ [b]) = some all := by
  rw [expandTokens, Option.ite_none_right_eq_some]

theorem expandTokens_copy_iff {dist len : Nat} :
    expandTokens n d l (.copy dist len :: ts) out = some all ↔
      (1 ≤ dist ∧ legalMatch n d l out.length dist len) ∧
        expandTokens n d l ts (copyBytes dist len out) = some all := by
  rw [expandTokens, Option.ite_none_right_eq_some]

/-- Legal tokens never run past N (42_lzss.md R104, R106). -/
theorem length_le_of_expandTokens (h : expandTokens n d l ts out = some all) (hout : out.length ≤ n) :
    all.length ≤ n := by
  induction ts generalizing out with
  | nil => cases h; exact hout
  | cons t ts ih =>
    cases t with
    | literal b =>
      obtain ⟨hlt, h⟩ := expandTokens_literal_iff.1 h
      exact ih h (by simpa using hlt)
    | copy dist len =>
      obtain ⟨⟨-, -, -, -, -, hn⟩, h⟩ := expandTokens_copy_iff.1 h
      exact ih h (by rwa [copyBytes_length])

end

/-! ## How many tokens there are -/

/-- The token is a literal. -/
def isLiteral : Token → Bool
  | .literal _ => true
  | .copy _ _ => false

/-- The token is a match. -/
def isCopy : Token → Bool
  | .literal _ => false
  | .copy _ _ => true

section
variable (b : Byte) (d len : Nat) (ts : List Token)

theorem countP_isLiteral_literal : (Token.literal b :: ts).countP isLiteral = ts.countP isLiteral + 1 :=
  List.countP_cons_of_pos rfl

theorem countP_isLiteral_copy : (Token.copy d len :: ts).countP isLiteral = ts.countP isLiteral :=
  List.countP_cons_of_neg Bool.false_ne_true

theorem countP_isCopy_literal : (Token.literal b :: ts).countP isCopy = ts.countP isCopy :=
  List.countP_cons_of_neg Bool.false_ne_true

theorem countP_isCopy_copy : (Token.copy d len :: ts).countP isCopy = ts.countP isCopy + 1 :=
  List.countP_cons_of_pos rfl

end

theorem length_eq_countP_tokens (ts : List Token) : ts.length = ts.countP isLiteral + ts.countP isCopy := by
  induction ts with
  | nil => rfl
  | cons t ts ih =>
    rw [List.length_cons, ih]
    cases t with
    | literal b => rw [countP_isLiteral_literal, countP_isCopy_literal, Nat.add_right_comm]
    | copy d len => rw [countP_isLiteral_copy, countP_isCopy_copy, Nat.add_assoc]

/-- A literal stands for one byte and a legal match for three or more (42_lzss.md R104). -/
theorem countP_tokens_le {n d l : Nat} {ts : List Token} {out all : List Byte}
    (h : expandTokens n d l ts out = some all) :
    out.length + ts.countP isLiteral + 3 * ts.countP isCopy ≤ all.length := by
  induction ts generalizing out with
  | nil => cases h; simp
  | cons t ts ih =>
    cases t with
    | literal b =>
      have hrest := ih (expandTokens_literal_iff.1 h).2
      rw [List.length_append, List.length_singleton] at hrest
      rw [countP_isLiteral_literal, countP_isCopy_literal]
      omega
    | copy dist len =>
      obtain ⟨⟨-, -, -, hmin, -, -⟩, h⟩ := expandTokens_copy_iff.1 h
      have hmin3 : 3 ≤ len := hmin
      have hrest := ih h
      rw [copyBytes_length] at hrest
      rw [countP_isLiteral_copy, countP_isCopy_copy]
      omega

/-- The bits of a token sequence with the field widths `wD` and `wL` (30_encoding.md R62, R63). -/
def tokenBits (wD wL : Nat) (ts : List Token) : List Bool :=
  ts.flatMap fun t => encode (.token wD wL) (instrOfToken t)

theorem tokenBits_cons (wD wL : Nat) (t : Token) (ts : List Token) :
    tokenBits wD wL (t :: ts) = encode (.token wD wL) (instrOfToken t) ++ tokenBits wD wL ts := List.flatMap_cons

theorem lzssBits_eq (n d l : Word) (ts : List Token) :
    lzssBits n d l ts =
      encode (.container Config.identLzss) (.lzssContainer n d l) ++ tokenBits (clog2 d.toNat) (clog2 l.toNat) ts := rfl

theorem length_tokenBits (wD wL : Nat) (ts : List Token) :
    (tokenBits wD wL ts).length = 9 * ts.countP isLiteral + (1 + wD + wL) * ts.countP isCopy := by
  induction ts with
  | nil => rfl
  | cons t ts ih =>
    rw [tokenBits_cons, List.length_append, ih]
    cases t with
    | literal b =>
      have hlen : (encode (.token wD wL) (instrOfToken (.literal b))).length = 9 := by
        simp [instrOfToken, encode, byteBits]
      rw [hlen, countP_isLiteral_literal, countP_isCopy_literal]
      ring
    | copy d len =>
      have hlen : (encode (.token wD wL) (instrOfToken (.copy d len))).length = 1 + wD + wL := by
        simp only [instrOfToken, encode, List.length_cons, List.length_append, length_valueBits]
        omega
      rw [hlen, countP_isLiteral_copy, countP_isCopy_copy]
      ring

end Sys2Proof.Machine
end

section
/-! PROOFS. The LZSS encoder: its container, the size of it, and LZSSCompress (42_lzss.md R95 to R101, R109). -/

namespace Sys2Proof

/-! ## The width of a field -/

/-- `clog2 x` is the smallest width whose fields take `x` values (00_scope.md R14). -/
theorem clog2_le_iff {x w : Nat} : clog2 x ≤ w ↔ x ≤ 2 ^ w := by
  unfold clog2
  split
  next hx => exact iff_of_true (Nat.zero_le w) (hx.trans Nat.one_le_two_pow)
  next hx => rw [Nat.succ_le_iff, Nat.log2_lt (by omega)]; omega

theorem le_two_pow_clog2 (x : Nat) : x ≤ 2 ^ clog2 x := clog2_le_iff.1 le_rfl

theorem clog2_mono {x y : Nat} (h : x ≤ y) : clog2 x ≤ clog2 y := clog2_le_iff.2 (h.trans (le_two_pow_clog2 y))

end Sys2Proof

namespace Sys2Proof.Machine

/-! ## The container -/

theorem length_lzssBits (n d l : Word) (ts : List Token) :
    (lzssBits n d l ts).length =
      8 * 13 + (9 * ts.countP isLiteral + (1 + clog2 d.toNat + clog2 l.toNat) * ts.countP isCopy) := by
  rw [lzssBits_eq, List.length_append, Laws.EncodedLength.lzssContainer n d l _ rfl, length_tokenBits]
  rfl

/-- LzssEncode writes the header and the tokens of its input, or they do not fit the destination (42_lzss.md R100). -/
theorem lzssEncode_eq_lzssBits (dest : Dest) (cap : Nat) {input : List Byte} {n : Word} (d l : Word)
    (hn : n.toNat = input.length) :
    lzssEncode dest cap input d.toNat l.toNat =
      if ((lzssBits n d l (tokens input d.toNat l.toNat)).length + 7) / 8 ≤ cap then
        .ok (packBits (lzssBits n d l (tokens input d.toNat l.toNat)))
      else .error .capacityExceeded := by
  obtain ⟨bits, hbits, heq⟩ := lzssEncode_eq dest cap input d.toNat l.toNat
  have hcontainer : bits = lzssBits n d l (tokens input d.toNat l.toNat) := by
    rw [hbits, ← hn, lzssBits, encode_container, headerBytes, List.append_assoc]
  rw [heq, hcontainer]

/-- The only error of LzssEncode (42_lzss.md R100). -/
theorem lzssEncode_error {dest : Dest} {cap : Nat} {input : List Byte} {d l : Nat} {k : ErrKind}
    (h : lzssEncode dest cap input d l = .error k) : k = .capacityExceeded := by
  obtain ⟨bits, -, heq⟩ := lzssEncode_eq dest cap input d l
  rw [heq] at h
  split at h <;> cases h
  rfl

/-- Settles O29: the header is 13 whole bytes, and the token bits are counted by kind. -/
theorem lzssContainerSize : Obligations.LzssContainerSize := by
  intro dest cap input d l out h
  obtain ⟨bits, hbits, heq⟩ := lzssEncode_eq dest cap input d l
  have hheader : ((Config.identLzss :: (u32be input.length ++ u32be d ++ u32be l)).flatMap byteBits).length = 104 := by
    simp [u32be, byteBits]
  have hbody : bits.length = 104 + (tokenBits (clog2 d) (clog2 l) (tokens input d l)).length := by
    rw [hbits, List.length_append, hheader]
    rfl
  rw [heq] at h
  split at h
  next =>
    cases h
    have hsize : (packBits bits).length = 13 + (9 * (tokens input d l).countP isLiteral +
        (1 + clog2 d + clog2 l) * (tokens input d l).countP isCopy + 7) / 8 := by
      rw [length_packBits, hbody, length_tokenBits]; omega
    exact hsize
  next => cases h

/-! ## The container fits -/

/-- The bits of a token sequence that stands for at most `n` bytes: `n` literals, and what a match of three bytes costs
more than three literals (00_scope.md R9). -/
theorem token_cost_le {lits copies width n : Nat} (h : lits + 3 * copies ≤ n) :
    9 * lits + width * copies ≤ 9 * n + n / 3 * (width - 27) := by
  have hcopies : copies ≤ n / 3 := by omega
  have hwidth : width * copies ≤ 27 * copies + copies * (width - 27) := by
    rw [Nat.mul_comm 27, ← Nat.mul_add, Nat.mul_comm]
    exact Nat.mul_le_mul_left _ (by omega)
  have hextra : copies * (width - 27) ≤ n / 3 * (width - 27) := Nat.mul_le_mul_right _ hcopies
  omega

/-- No LZSS container of an input that fits IN is larger than LZSS_MAX (00_scope.md R9). -/
theorem lzssBits_le_lzssMax (c : Params) {input : List Byte} {d l : Word} (n : Word) (hin : input.length ≤ c.inMemBytes)
    (hd : d.toNat ≤ c.maxDictSize) (hl : l.toNat ≤ c.maxLookaheadSize) :
    ((lzssBits n d l (tokens input d.toNat l.toNat)).length + 7) / 8 ≤ c.lzssMax := by
  have hcount := countP_tokens_le (tokensStandForTheInput input d.toNat l.toNat)
  rw [List.length_nil, Nat.zero_add] at hcount
  have hcost := token_cost_le (width := 1 + clog2 c.maxDictSize + clog2 c.maxLookaheadSize) (hcount.trans hin)
  have hwidth : (1 + clog2 d.toNat + clog2 l.toNat) * (tokens input d.toNat l.toNat).countP isCopy ≤
      (1 + clog2 c.maxDictSize + clog2 c.maxLookaheadSize) * (tokens input d.toNat l.toNat).countP isCopy :=
    Nat.mul_le_mul_right _ (by have := clog2_mono hd; have := clog2_mono hl; omega)
  rw [length_lzssBits, Params.lzssMax]
  omega

/-- The capacity of a destination memory (40_bitstream.md R75). -/
def Dest.capacity (c : Params) : Dest → Nat
  | .out => c.outMemBytes
  | .inner => c.innerMemBytes

theorem lzssMax_le_capacity {c : Params} (hc : c.Valid) (dest : Dest) : c.lzssMax ≤ dest.capacity c := by
  obtain ⟨-, -, -, -, -, -, -, hinner, -, hout⟩ := hc
  cases dest with
  | out => exact (Nat.le_add_left _ _).trans hout
  | inner => exact hinner

/-- Encoding an input that fits IN under a legal configuration never fails (00_scope.md R9, R10). -/
theorem lzssEncode_succeeds {c : Params} (hc : c.Valid) (dest : Dest) {input : List Byte} {n d l : Word}
    (hn : n.toNat = input.length) (hin : input.length ≤ c.inMemBytes) (hd : d.toNat ≤ c.maxDictSize)
    (hl : l.toNat ≤ c.maxLookaheadSize) :
    lzssEncode dest (dest.capacity c) input d.toNat l.toNat =
      .ok (packBits (lzssBits n d l (tokens input d.toNat l.toNat))) := by
  rw [lzssEncode_eq_lzssBits dest _ d l hn]
  exact if_pos ((lzssBits_le_lzssMax c n hin hd hl).trans (lzssMax_le_capacity hc dest))

/-! ## The commands -/

theorem withConfiguredInput_of_legal {op : BitVec 4} {s : State}
    (stages : List Byte → Nat → Nat → Except ErrKind (List Byte)) (hop : reservedOp op = false)
    (hfit : s.inLen.toNat ≤ s.cfg.inMemBytes) (hlegal : s.legalConfig) :
    withConfiguredInput op s stages = stages (inputBytes s) s.dictSize.toNat s.lookaheadSize.toNat := by
  rw [withConfiguredInput, withInput_of_fits _ _ _ hop hfit, (checkLzssConfig_ok_iff s).2 hlegal]

theorem withConfiguredInput_of_illegal {op : BitVec 4} {s : State}
    (stages : List Byte → Nat → Nat → Except ErrKind (List Byte)) (hop : reservedOp op = false)
    (hfit : s.inLen.toNat ≤ s.cfg.inMemBytes) (hillegal : ¬ s.legalConfig) :
    withConfiguredInput op s stages = .error .invalidConfiguration := by
  rw [withConfiguredInput, withInput_of_fits _ _ _ hop hfit]
  cases hcheck : checkLzssConfig s.cfg s.dictSize.toNat s.lookaheadSize.toNat with
  | ok _ => exact absurd ((checkLzssConfig_ok_iff s).1 hcheck) hillegal
  | error k => rw [checkLzssConfig_error _ _ _ _ hcheck]

/-- A command whose value is an output ends in DONE with it and keeps its operands (10_state.md R31). -/
theorem exec_completes {i : Instr} {s : State} {out : List Byte} (hi : commandOp i ≠ none)
    (hv : commandValue i s = .ok out) : ∃ t, exec i s = .next t ∧ t.outputIs out ∧ s.keepsOperands t :=
  ⟨completeDone out s, by rw [exec_command i s hi, hv, complete_ok], completeDone_outputIs out s,
    completeDone_keepsOperands out s⟩

/-- Settles O28: the encoder's container fits OUT. -/
theorem lzssCompressWritesTheContainer : Obligations.LzssCompressWritesTheContainer := by
  intro s hvalid hfit hlegal
  refine exec_completes (by decide) ?_
  rw [commandValue, withConfiguredInput_of_legal _ rfl hfit hlegal]
  obtain ⟨-, hd, -, hl⟩ := hlegal
  exact lzssEncode_succeeds hvalid .out (inputBytes_length s).symm (by rwa [inputBytes_length]) hd hl

/-! ## The configuration check -/

/-- The only error of HufEncode (43_huffman.md R121). -/
theorem hufEncode_error {dest : Dest} {cap : Nat} {ident : Byte} {x : List Byte} {k : ErrKind}
    (h : hufEncode dest cap ident x = .error k) : k = .capacityExceeded := by
  obtain ⟨bits, lens, -, -, heq⟩ := hufEncode_eq dest cap ident x
  rw [heq] at h
  split at h <;> cases h
  rfl

/-- The only error of HsEncode (44_hybrid.md R131). -/
theorem hsEncode_error {c : Params} {input : List Byte} {d l : Nat} {k : ErrKind}
    (h : hsEncode c input d l = .error k) : k = .capacityExceeded := by
  unfold hsEncode at h
  split at h
  next k' hlzss => cases h; exact lzssEncode_error hlzss
  next => exact hufEncode_error h

/-- A completion step that raises no InvalidConfiguration leaves another code in ERR (60_exceptions.md R138). -/
theorem complete_err_ne_invalidConfiguration {r : Except ErrKind (List Byte)} (s : State)
    (h : ∀ k, r = .error k → k = .capacityExceeded) : (complete r s).err ≠ ErrKind.code .invalidConfiguration := by
  cases r with
  | ok out => rw [complete_ok, completeDone_err]; decide
  | error k => rw [complete_error, raiseError_err, h k rfl]; decide

/-- A command with a configuration check whose stages raise CapacityExceeded alone ends in InvalidConfiguration exactly
when the check fails (42_lzss.md R95). -/
theorem exec_of_configCheck {i : Instr} {op : BitVec 4} {s : State}
    {stages : List Byte → Nat → Nat → Except ErrKind (List Byte)} (hi : commandOp i ≠ none)
    (hv : commandValue i s = withConfiguredInput op s stages) (hop : reservedOp op = false)
    (hfit : s.inLen.toNat ≤ s.cfg.inMemBytes)
    (herr : ∀ {input d l k}, stages input d l = .error k → k = .capacityExceeded) :
    (¬ s.legalConfig → ∃ t, exec i s = .next t ∧ t.failsWith .invalidConfiguration ∧ s.keepsOperands t) ∧
    (s.legalConfig → ∃ t, exec i s = .next t ∧ t.err ≠ ErrKind.code .invalidConfiguration) := by
  constructor
  · intro hillegal
    exact exec_fails hi (hv.trans (withConfiguredInput_of_illegal stages hop hfit hillegal))
  · intro hlegal
    refine ⟨_, exec_command i s hi, complete_err_ne_invalidConfiguration s fun k hk => ?_⟩
    rw [hv, withConfiguredInput_of_legal stages hop hfit hlegal] at hk
    exact herr hk

/-- Settles O51: past the configuration check the two encoders raise CapacityExceeded alone. -/
theorem illegalConfigurationIsRejected : Obligations.IllegalConfigurationIsRejected := by
  rintro s i hfit (rfl | rfl)
  · exact exec_of_configCheck (by decide) rfl rfl hfit lzssEncode_error
  · exact exec_of_configCheck (by decide) rfl rfl hfit hsEncode_error

end Sys2Proof.Machine
end

section
/-! PROOFS. The LZSS decoder on legal tokens, and on what follows them (42_lzss.md R103 to R106, R108, R110). -/

namespace Sys2Proof

/-! ## Reading the bits that follow -/

section
variable {bits as r : List Bool} {q : Nat} (hwhole : bits.length % 8 = 0)
include hwhole

/-- GetBits in whole bytes, whatever bits they are: the next `w` of them, if there are as many (40_bitstream.md R82). -/
theorem getBits_of_whole (w : Nat) (hbits : bits = as ++ r) (hq : q = as.length) :
    getBits { src := packBits bits, pos := q } w =
      if r.length < w then none
      else some (bitsValue (r.take w), { src := packBits bits, pos := q + w }) := by
  subst hbits hq
  split
  next hcut =>
    rw [List.length_append] at hwhole
    refine if_pos ?_
    simp only [length_packBits, List.length_append]
    omega
  next henough =>
    have hread := getBits_packBits as (r.take w) (r.drop w) w (List.length_take_of_le (by omega))
    rwa [List.append_assoc, List.take_append_drop] at hread

/-- ReadToken at the end of whole bytes (42_lzss.md R103). -/
theorem readToken_at_end (wD wL : Nat) :
    readToken { src := packBits bits, pos := bits.length } wD wL = none := by
  have hflag : getBit { src := packBits bits, pos := bits.length } = none :=
    if_pos (by simp only [length_packBits]; omega)
  simp [readToken, hflag]

/-- ReadToken in whole bytes on a literal cut off by their end (42_lzss.md R103). -/
theorem readToken_of_cut_literal (wD wL : Nat) (hbits : bits = as ++ false :: r) (hcut : r.length < 8) :
    readToken { src := packBits bits, pos := as.length } wD wL = none := by
  have hbyte := getBits_of_whole (as := as ++ [false]) (r := r) (q := as.length + 1) hwhole 8 (by simp [hbits])
    (by simp)
  rw [if_pos hcut] at hbyte
  simp [readToken, getBit_of_bits_eq hbits rfl, hbyte]

/-- ReadToken in whole bytes on a match: its two fields, if they are not cut off (42_lzss.md R103). -/
theorem readToken_of_match (wD wL : Nat) (hbits : bits = as ++ true :: r) :
    readToken { src := packBits bits, pos := as.length } wD wL =
      if r.length < wD + wL then none
      else some (.copy (bitsValue (r.take wD) + 1) (bitsValue ((r.drop wD).take wL) + 1),
        { src := packBits bits, pos := as.length + 1 + wD + wL }) := by
  have hdist := getBits_of_whole (as := as ++ [true]) (r := r) (q := as.length + 1) hwhole wD (by simp [hbits])
    (by simp)
  by_cases hcutD : r.length < wD
  · rw [if_pos hcutD] at hdist
    rw [if_pos (by omega)]
    simp [readToken, getBit_of_bits_eq hbits rfl, hdist]
  · rw [if_neg hcutD] at hdist
    have hlen := getBits_of_whole (as := as ++ true :: r.take wD) (r := r.drop wD) (q := as.length + 1 + wD) hwhole wL
      (by simp [hbits]) (by simp; omega)
    rw [List.length_drop] at hlen
    by_cases hcutL : r.length - wD < wL
    · rw [if_pos hcutL] at hlen
      rw [if_pos (by omega)]
      simp [readToken, getBit_of_bits_eq hbits rfl, hdist, hlen]
    · rw [if_neg hcutL] at hlen
      rw [if_neg (by omega)]
      simp [readToken, getBit_of_bits_eq hbits rfl, hdist, hlen]

end

/-- A match within the header's D and L fits the field widths that these give (30_encoding.md R61, R64). -/
theorem matchEncodable_of_le {d l : Word} {dist len : Nat} (hdist : 1 ≤ dist) (hd : dist ≤ d.toNat) (hlen : 1 ≤ len)
    (hl : len ≤ l.toNat) : matchEncodable (clog2 d.toNat) (clog2 l.toNat) dist len = true := by
  have hwD : clog2 d.toNat ≤ 32 := clog2_le_iff.2 d.isLt.le
  have hwL : clog2 l.toNat ≤ 32 := clog2_le_iff.2 l.isLt.le
  have hd' := hd.trans (le_two_pow_clog2 _)
  have hl' := hl.trans (le_two_pow_clog2 _)
  simp only [matchEncodable, Bool.and_eq_true, decide_eq_true_eq]
  exact ⟨⟨⟨⟨⟨hwD, hwL⟩, hdist⟩, hd'⟩, hlen⟩, hl'⟩

end Sys2Proof

namespace Sys2Proof.Machine

/-! ## The decoder's loop -/

section
variable {rd rd' : Reader} {w : LzssWork} (fuel : Nat)

/-- A token read while bytes are missing is performed, and the loop goes on after it (42_lzss.md R106). -/
theorem lzssBody_of_token {t : Token} (hlt : w.out.length < w.n)
    (hread : readToken rd (clog2 w.d) (clog2 w.l) = some (t, rd')) :
    lzssBody (fuel + 1) rd w = performToken t w >>= lzssBody fuel rd' := by
  rw [lzssBody, if_pos hlt]
  simp only [hread]
  cases performToken t w <;> rfl

/-- A token cut off by the end of the source ends the loop (42_lzss.md R103). -/
theorem lzssBody_of_cut (hlt : w.out.length < w.n) (hcut : readToken rd (clog2 w.d) (clog2 w.l) = none) :
    lzssBody (fuel + 1) rd w = .error .unexpectedEndOfInput := by
  rw [lzssBody, if_pos hlt]
  simp only [hcut]

/-- The loop stops once N bytes are out (42_lzss.md R106). -/
theorem lzssBody_of_done (rd : Reader) (hdone : w.out.length = w.n) : lzssBody fuel rd w = .ok (rd, w) := by
  cases fuel with
  | zero => rfl
  | succ fuel => rw [lzssBody, if_neg (by omega)]

end

/-- The loop and then the end of the body (42_lzss.md R106). -/
theorem lzssFinish_eq (rd : Reader) (w : LzssWork) :
    lzssFinish rd w = lzssBody w.n rd w >>= fun p => bodyResult p.1 p.2.out := by
  rw [lzssFinish]
  cases lzssBody w.n rd w <;> rfl

/-! ## Legal tokens -/

/-- The decoder's working state under the header fields N, D and L with the bytes `out` appended (42_lzss.md R106). -/
def lzssWorkAt (n d l : Word) (out : List Byte) : LzssWork := { n := n.toNat, d := d.toNat, l := l.toNat, out := out }

section
variable {n d l : Word} {ts : List Token} {out all : List Byte}

/-- The first of legal tokens fits its fields, is read while bytes are missing and passes its checks; the others are
legal after it (42_lzss.md R104, R106). -/
theorem performToken_of_expandTokens {t : Token} (h : expandTokens n.toNat d.toNat l.toNat (t :: ts) out = some all) :
    wellFormed (.token (clog2 d.toNat) (clog2 l.toNat)) (instrOfToken t) = true ∧ out.length < n.toNat ∧
      ∃ out', performToken t (lzssWorkAt n d l out) = .ok (lzssWorkAt n d l out') ∧
        expandTokens n.toNat d.toNat l.toNat ts out' = some all := by
  cases t with
  | literal b =>
    obtain ⟨hlt, hrest⟩ := expandTokens_literal_iff.1 h
    refine ⟨?_, hlt, _, rfl, hrest⟩
    simpa [instrOfToken, wellFormed] using ⟨clog2_le_iff.2 d.isLt.le, clog2_le_iff.2 l.isLt.le⟩
  | copy dist len =>
    obtain ⟨⟨hdist, hlegal⟩, hrest⟩ := expandTokens_copy_iff.1 h
    obtain ⟨hd, -, hmin, hl, hn⟩ := id hlegal
    have hmin3 : 3 ≤ len := hmin
    exact ⟨matchEncodable_of_le hdist hd (by omega) hl, by omega, _,
      performMatch_of_legal (w := lzssWorkAt n d l out) hlegal, hrest⟩

/-- The decoder's loop reads and performs legal tokens wherever their bits stand (42_lzss.md R106). -/
theorem lzssBody_tokens {bits as rest : List Bool} (fuel : Nat)
    (h : expandTokens n.toNat d.toNat l.toNat ts out = some all)
    (hbits : bits = as ++ (tokenBits (clog2 d.toNat) (clog2 l.toNat) ts ++ rest)) :
    lzssBody (ts.length + fuel) { src := packBits bits, pos := as.length } (lzssWorkAt n d l out) =
      lzssBody fuel
        { src := packBits bits, pos := (as ++ tokenBits (clog2 d.toNat) (clog2 l.toNat) ts).length }
        (lzssWorkAt n d l all) := by
  induction ts generalizing as out with
  | nil =>
    cases h
    simp [tokenBits]
  | cons t ts ih =>
    obtain ⟨hwf, hlt, out', hperform, hrest⟩ := performToken_of_expandTokens h
    rw [tokenBits_cons, List.append_assoc, ← List.append_assoc] at hbits
    have hread := readToken_encode hwf hbits
    rw [← List.length_append] at hread
    rw [List.length_cons, Nat.succ_add, lzssBody_of_token _ (w := lzssWorkAt n d l out) hlt hread, hperform, tokenBits_cons,
      ← List.append_assoc]
    exact ih hrest hbits

/-- Legal tokens are no more than the bytes they stand for (42_lzss.md R107). -/
theorem length_tokens_le (h : expandTokens n.toNat d.toNat l.toNat ts [] = some all) : ts.length ≤ all.length := by
  have hcount := countP_tokens_le h
  rw [length_eq_countP_tokens]
  omega

end

/-! ## What follows the legal tokens -/

/-- CheckEnd at a defect of the end of a stream of whole bytes (40_bitstream.md R83). -/
theorem checkEnd_of_endDefect {as rest : List Bool} {k : ErrKind} (hwhole : (as ++ rest).length % 8 = 0)
    (h : endDefect rest = some k) :
    checkEnd { src := packBits (as ++ rest), pos := as.length } = .error .corruptStream ∧ k = .corruptStream := by
  rw [endDefect, Option.ite_none_right_eq_some] at h
  obtain ⟨hdefect, hk⟩ := h
  refine ⟨(checkEnd_cases _).resolve_left fun hok => ?_, (Option.some.inj hk).symm⟩
  obtain ⟨hend, hpad⟩ := (checkEnd_ok_iff _).1 hok
  simp only [length_packBits, bitAt_packBits, List.length_append] at hend hpad hwhole
  have hshort : rest.length < 8 := by omega
  obtain ⟨i, hi, hset⟩ := List.mem_iff_getElem.1 (hdefect.resolve_left (by omega))
  have hzero := hpad (as.length + i) (Nat.le_add_right _ _) (by omega)
  rw [List.getD_append_right _ _ _ _ (Nat.le_add_right _ _), Nat.add_sub_cancel_left, List.getD_eq_getElem _ _ hi,
    hset] at hzero
  cases hzero

theorem tokenDefect_of_complete {n d l : Nat} {out : List Byte} (rest : List Bool) (hdone : out.length = n) :
    tokenDefect n d l out rest = endDefect rest := by
  unfold tokenDefect
  exact if_pos hdone

/-- What is wrong at a defect of the next token: it is cut off, or it is an illegal match (42_lzss.md R103, R104). -/
theorem tokenDefect_cases {n d l : Nat} {out : List Byte} {rest : List Bool} {k : ErrKind} (hlt : out.length < n)
    (h : tokenDefect n d l out rest = some k) :
    (k = .unexpectedEndOfInput ∧
      (rest = [] ∨ (∃ r, rest = false :: r ∧ r.length < 8) ∨ ∃ r, rest = true :: r ∧ r.length < clog2 d + clog2 l)) ∨
    (k = .corruptStream ∧ ∃ r, rest = true :: r ∧ ¬ r.length < clog2 d + clog2 l ∧
      ¬ legalMatch n d l out.length (bitsValue (r.take (clog2 d)) + 1)
        (bitsValue ((r.drop (clog2 d)).take (clog2 l)) + 1)) := by
  unfold tokenDefect at h
  rw [if_neg hlt.ne] at h
  split at h
  next => cases h; exact .inl ⟨rfl, .inl rfl⟩
  next r =>
    split at h
    next hcut => cases h; exact .inl ⟨rfl, .inr (.inl ⟨r, rfl, hcut⟩)⟩
    next => cases h
  next r =>
    split at h
    next hcut => cases h; exact .inl ⟨rfl, .inr (.inr ⟨r, rfl, hcut⟩)⟩
    next hread =>
      split at h
      next => cases h
      next hillegal => cases h; exact .inr ⟨rfl, r, rfl, hread, hillegal⟩

/-- The loop at a defect of the next token ends in that defect's error (42_lzss.md R103, R104). -/
theorem lzssBody_of_tokenDefect {n d l : Word} {out : List Byte} {bits as rest : List Bool} {k : ErrKind} (fuel : Nat)
    (hwhole : bits.length % 8 = 0) (hbits : bits = as ++ rest) (hlt : out.length < n.toNat)
    (h : tokenDefect n.toNat d.toNat l.toNat out rest = some k) :
    lzssBody (fuel + 1) { src := packBits bits, pos := as.length } (lzssWorkAt n d l out) = .error k := by
  rcases tokenDefect_cases hlt h with ⟨rfl, rfl | ⟨r, rfl, hcut⟩ | ⟨r, rfl, hcut⟩⟩ | ⟨rfl, r, rfl, hfields, hillegal⟩
  · rw [List.append_nil] at hbits
    subst hbits
    exact lzssBody_of_cut fuel hlt (readToken_at_end hwhole _ _)
  · exact lzssBody_of_cut fuel hlt (readToken_of_cut_literal hwhole _ _ hbits hcut)
  · exact lzssBody_of_cut fuel hlt ((readToken_of_match hwhole _ _ hbits).trans (if_pos hcut))
  · have hread := (readToken_of_match hwhole (clog2 d.toNat) (clog2 l.toNat) hbits).trans (if_neg hfields)
    rw [lzssBody_of_token fuel (w := lzssWorkAt n d l out) hlt hread, performToken, performMatch_of_illegal hillegal]
    rfl

/-! ## Containers -/

/-- The bytes of a container with an LZSS header read as that header's fields (30_encoding.md R58). -/
theorem header_of_lzssContainer (n d l : Word) (body : List Bool) {src : List Byte}
    (hsrc : src = packBits (encode (.container Config.identLzss) (.lzssContainer n d l) ++ body)) :
    13 ≤ src.length ∧ byteAt src 0 = Config.identLzss ∧
      be32 src 1 = n.toNat ∧ be32 src 5 = d.toNat ∧ be32 src 9 = l.toNat := by
  have hwf : wellFormed (.container Config.identLzss) (.lzssContainer n d l) = true := rfl
  rw [encode_container, packBits_flatMap_byteBits] at hsrc
  have hfields : some (Instr.lzssContainer (BitVec.ofNat 32 (be32 src 1)) (BitVec.ofNat 32 (be32 src 5))
      (BitVec.ofNat 32 (be32 src 9))) = some (.lzssContainer n d l) :=
    hsrc ▸ containerInstr_headerBytes hwf (packBits body)
  injection hfields with hfields
  injection hfields with hn hd hl
  have hlen : (headerBytes Config.identLzss (.lzssContainer n d l)).length = 13 := length_headerBytes hwf
  refine ⟨?_, hsrc ▸ byteAt_headerBytes hwf _, ?_, ?_, ?_⟩
  · rw [hsrc, List.length_append, hlen]
    exact Nat.le_add_right _ _
  · rw [← hn, toNat_ofNat_be32]
  · rw [← hd, toNat_ofNat_be32]
  · rw [← hl, toNat_ofNat_be32]

section
variable {cap : Nat} {n d l : Word} {ts : List Token} {out : List Byte} (hd : 1 ≤ d.toNat) (hl : 1 ≤ l.toNat)
  (hcap : n.toNat ≤ cap) (h : expandTokens n.toNat d.toNat l.toNat ts [] = some out)
include hd hl hcap h

/-- The decoder on a container that starts with a header and legal tokens: the rest of the loop, with the tokens' bytes
out, and then the end of the body (42_lzss.md R106). -/
theorem lzssDecode_lzssBits (rest : List Bool) :
    lzssDecode cap (packBits (lzssBits n d l ts ++ rest)) =
      lzssBody (n.toNat - ts.length)
          { src := packBits (lzssBits n d l ts ++ rest), pos := (lzssBits n d l ts).length } (lzssWorkAt n d l out) >>=
        fun p => bodyResult p.1 p.2.out := by
  have hbits : lzssBits n d l ts ++ rest = encode (.container Config.identLzss) (.lzssContainer n d l) ++
      (tokenBits (clog2 d.toNat) (clog2 l.toNat) ts ++ rest) := by
    rw [lzssBits_eq, List.append_assoc]
  obtain ⟨hlen, hid, hnField, hdField, hlField⟩ := header_of_lzssContainer n d l _ (congrArg packBits hbits)
  have hheader : (encode (.container Config.identLzss) (.lzssContainer n d l)).length = 104 :=
    Laws.EncodedLength.lzssContainer n d l _ rfl
  have hcount : ts.length ≤ n.toNat :=
    (length_tokens_le h).trans (length_le_of_expandTokens h (Nat.zero_le _))
  have hloop := lzssBody_tokens (n.toNat - ts.length) h hbits
  rw [hheader, Nat.add_sub_cancel' hcount] at hloop
  rw [lzssDecode_of_header hlen hid, hnField, hdField, hlField,
    lzssStart_of_fits (Nat.one_le_iff_ne_zero.1 hd) (Nat.one_le_iff_ne_zero.1 hl) hcap]
  exact (lzssFinish_eq _ (lzssWorkAt n d l [])).trans (congrArg (· >>= _) hloop)

/-- A container whose tokens stand for N bytes decodes to those bytes (42_lzss.md R106). -/
theorem lzssDecode_of_complete (hout : out.length = n.toNat) :
    lzssDecode cap (packBits (lzssBits n d l ts)) = .ok out := by
  have hdecode := lzssDecode_lzssBits hd hl hcap h []
  rw [List.append_nil, lzssBody_of_done _ _ (w := lzssWorkAt n d l out) hout] at hdecode
  rw [hdecode]
  show bodyResult { src := packBits (lzssBits n d l ts), pos := (lzssBits n d l ts).length } out = .ok out
  rw [bodyResult, checkEnd_packBits]

/-- A container that is malformed after legal tokens ends the decoder in the error of its first defect (42_lzss.md R103,
R104, 40_bitstream.md R83). -/
theorem lzssDecode_of_tokenDefect {rest : List Bool} {k : ErrKind} (hwhole : (lzssBits n d l ts ++ rest).length % 8 = 0)
    (hdefect : tokenDefect n.toNat d.toNat l.toNat out rest = some k) :
    lzssDecode cap (packBits (lzssBits n d l ts ++ rest)) = .error k := by
  rw [lzssDecode_lzssBits hd hl hcap h]
  rcases (length_le_of_expandTokens h (Nat.zero_le _)).eq_or_lt with hdone | hlt
  · rw [tokenDefect_of_complete rest hdone] at hdefect
    obtain ⟨hcheck, rfl⟩ := checkEnd_of_endDefect hwhole hdefect
    rw [lzssBody_of_done _ _ (w := lzssWorkAt n d l out) hdone]
    show bodyResult { src := packBits (lzssBits n d l ts ++ rest), pos := (lzssBits n d l ts).length } out = _
    rw [bodyResult, hcheck]
  · have hcount := length_tokens_le h
    obtain ⟨fuel, hfuel⟩ : ∃ fuel, n.toNat - ts.length = fuel + 1 := ⟨n.toNat - ts.length - 1, by omega⟩
    rw [hfuel, lzssBody_of_tokenDefect fuel hwhole rfl hlt hdefect]
    rfl

end

/-- Settles O30, by the decoder's outcome on legal tokens alone and on a defect after them. -/
theorem lzssDecompressExpandsTheTokens : Obligations.LzssDecompressExpandsTheTokens := by
  intro s n d l ts out hfit hd hl hcap h
  have hvalue (src : List Byte) (hsrc : s.hasInput src) :
      commandValue .lzssDecompress s = lzssDecode s.cfg.outMemBytes src := by
    rw [commandValue, withInput_of_fits _ _ _ rfl hfit, inputBytes_of_hasInput s src hsrc]
  constructor
  · intro hsrc hout
    exact exec_completes (by decide) ((hvalue _ hsrc).trans (lzssDecode_of_complete hd hl hcap h hout))
  · intro rest k hsrc hwhole hdefect
    exact exec_fails (by decide) ((hvalue _ hsrc).trans (lzssDecode_of_tokenDefect hd hl hcap h hwhole hdefect))

theorem exists_word_of_lt {v : Nat} (hv : v < 2 ^ 32) : ∃ w : Word, w.toNat = v :=
  ⟨BitVec.ofNat 32 v, by rw [BitVec.toNat_ofNat, Nat.mod_eq_of_lt hv]⟩

/-- Encoding an input that fits IN and decoding the container gives the input back (42_lzss.md R108). -/
theorem lzssDecode_lzssEncode {c : Params} (hc : c.Valid) (dest : Dest) {input : List Byte} {d l : Nat}
    (hin : input.length ≤ c.inMemBytes) (hd1 : 1 ≤ d) (hd : d ≤ c.maxDictSize) (hl1 : 1 ≤ l)
    (hl : l ≤ c.maxLookaheadSize) :
    ∃ bs, lzssEncode dest (dest.capacity c) input d l = .ok bs ∧ lzssDecode c.outMemBytes bs = .ok input := by
  obtain ⟨-, -, hin32, -, hd32, -, hl32, -, -, -⟩ := id hc
  obtain ⟨n, hn⟩ := exists_word_of_lt (hin.trans_lt hin32)
  obtain ⟨d, rfl⟩ := exists_word_of_lt (hd.trans_lt hd32)
  obtain ⟨l, rfl⟩ := exists_word_of_lt (hl.trans_lt hl32)
  have htokens := tokensStandForTheInput input d.toNat l.toNat
  rw [← hn] at htokens
  refine ⟨_, lzssEncode_succeeds hc dest hn hin hd hl, lzssDecode_of_complete hd1 hl1 ?_ htokens hn.symm⟩
  have hmax := lzssMax_le_capacity hc .out
  simp only [Params.lzssMax, Dest.capacity] at hmax
  omega

/-- Settles O31: each destination has its own capacity. -/
theorem lzssRoundTrip : Obligations.LzssRoundTrip := by
  intro c dest input d l hc hin hd1 hd hl1 hl
  cases dest with
  | out => exact lzssDecode_lzssEncode hc .out hin hd1 hd hl1 hl
  | inner => exact lzssDecode_lzssEncode hc .inner hin hd1 hd hl1 hl

end Sys2Proof.Machine
end

section
/-! PROOFS. The canonical code of a table of lengths: the codes of one length are consecutive, every code fits its
length, and no code starts with another (43_huffman.md R118, R119). -/

namespace Sys2Proof.Machine

/-! ## NEXT_CODE -/

theorem le_foldl_max (ls : List Nat) (m : Nat) : m ≤ ls.foldl max m ∧ ∀ l ∈ ls, l ≤ ls.foldl max m := by
  induction ls generalizing m with
  | nil => simp
  | cons a ls ih =>
    obtain ⟨hm, hls⟩ := ih (max m a)
    rw [List.foldl_cons, List.forall_mem_cons]
    exact ⟨(le_max_left m a).trans hm, (le_max_right m a).trans hm, hls⟩

/-- No length is above MAXL (43_huffman.md R118). -/
theorem le_maxLength {lens : List Nat} {l : Nat} (h : l ∈ lens) : l ≤ maxLength lens := (le_foldl_max lens 0).2 l h

/-- BL_COUNT[l] (43_huffman.md R118). -/
def lengthCount (lens : List Nat) (l : Nat) : Nat := if l = 0 then 0 else lens.count l

theorem lengthCount_of_pos (lens : List Nat) {l : Nat} (h : 0 < l) : lengthCount lens l = lens.count l :=
  if_neg h.ne'

/-- NEXT_CODE[l] before any symbol has its code (43_huffman.md R118). -/
def firstCode (lens : List Nat) : Nat → Nat
  | 0 => 0
  | l + 1 => (firstCode lens l + lengthCount lens l) * 2

theorem nextCodesFrom_lengthCount (lens : List Nat) (n l : Nat) :
    nextCodesFrom ((List.range' l n).map (lengthCount lens)) (firstCode lens l) =
      (List.range' (l + 1) n).map (firstCode lens) := by
  induction n generalizing l with
  | zero => rfl
  | succ n ih => simpa [List.range'_succ, nextCodesFrom, firstCode] using ih (l + 1)

/-- The table NEXT_CODE[0..MAXL] (43_huffman.md R118). -/
theorem nextCodes_eq (lens : List Nat) :
    nextCodes lens = (List.range (maxLength lens + 1)).map (firstCode lens) := by
  have hcounts : (blCounts lens).dropLast = (List.range' 0 (maxLength lens)).map (lengthCount lens) := by
    rw [blCounts, List.range_succ, List.map_append, List.map_singleton, List.dropLast_concat, List.range_eq_range']
    rfl
  have hfrom := nextCodesFrom_lengthCount lens (maxLength lens) 0
  rw [firstCode] at hfrom
  rw [nextCodes, hcounts, hfrom, List.range_eq_range', List.range'_succ]
  rfl

/-! ## CODE -/

@[simp] theorem length_assignCodes (ls next : List Nat) : (assignCodes ls next).length = ls.length := by
  induction ls generalizing next with
  | nil => rfl
  | cons l ls ih =>
    rw [assignCodes]
    split <;> simp [ih]

/-- A symbol takes the next code of its length, after the symbols of that length before it (43_huffman.md R118). -/
theorem getD_assignCodes {ls next : List Nat} {s l : Nat} (hs : s < ls.length) (hl : ls.getD s 0 = l) (hpos : 0 < l)
    (hnext : l < next.length) : (assignCodes ls next).getD s 0 = next.getD l 0 + (ls.take s).count l := by
  induction ls generalizing next s with
  | nil => simp at hs
  | cons a ls ih =>
    cases s with
    | zero =>
      have hl : a = l := hl
      simp [assignCodes, hl, hpos.ne']
    | succ s =>
      rw [List.getD_cons_succ] at hl
      have hs' : s < ls.length := Nat.lt_of_succ_lt_succ hs
      rw [assignCodes, List.take_succ_cons]
      split
      next h0 => rw [List.getD_cons_succ, ih hs' hl hnext, List.count_cons_of_ne (h0.trans_ne hpos.ne)]
      next h0 =>
        rw [List.getD_cons_succ, ih hs' hl (by simpa using hnext)]
        by_cases ha : a = l
        · simp [ha, List.getD_eq_getElem?_getD, hnext, Nat.add_assoc, Nat.add_comm 1]
        · simp [List.count_cons_of_ne ha, List.getD_eq_getElem?_getD, List.getElem?_set_ne ha]

@[simp] theorem length_canonical (lens : List Nat) : (canonical lens).length = lens.length := length_assignCodes _ _

theorem getD_mem {ls : List Nat} {s : Nat} (hs : s < ls.length) : ls.getD s 0 ∈ ls := by
  rw [List.getD_eq_getElem _ _ hs]
  exact List.getElem_mem hs

/-- The codes of one length are consecutive in symbol order (43_huffman.md R118). -/
theorem getD_canonical {lens : List Nat} {s : Nat} (hs : s < lens.length) (hpos : 0 < lens.getD s 0) :
    (canonical lens).getD s 0 = firstCode lens (lens.getD s 0) + (lens.take s).count (lens.getD s 0) := by
  have hmax : lens.getD s 0 < maxLength lens + 1 := Nat.lt_succ_of_le (le_maxLength (getD_mem hs))
  rw [canonical, nextCodes_eq, getD_assignCodes hs rfl hpos (by simpa using hmax)]
  generalize lens.getD s 0 = l at hmax
  simp [List.getD_eq_getElem?_getD, hmax]

/-! ## Kraft -/

theorem kraft_iff (lens : List Nat) : kraft lens = true ↔ kraftSum lens ≤ 2 ^ 255 := decide_eq_true_iff

theorem kraftSum_cons (l : Nat) (ls : List Nat) :
    kraftSum (l :: ls) = (if 0 < l then 2 ^ (255 - l) else 0) + kraftSum ls := by
  simp only [kraftSum, List.filter_cons]
  split <;> simp_all

/-- The part of the Kraft sum that the codes of at most `m` bits have (43_huffman.md R123). -/
def kraftSumTo (lens : List Nat) (m : Nat) : Nat := kraftSum (lens.filter (· ≤ m))

theorem kraftSumTo_le (lens : List Nat) (m : Nat) : kraftSumTo lens m ≤ kraftSum lens := by
  refine List.Sublist.sum_le_sum ?_ fun _ _ => Nat.zero_le _
  exact (List.filter_sublist.filter _).map _

theorem kraftSumTo_zero (lens : List Nat) : kraftSumTo lens 0 = 0 := by
  induction lens with
  | nil => rfl
  | cons l ls ih =>
    unfold kraftSumTo at ih ⊢
    rw [List.filter_cons]
    split
    next h => rw [kraftSum_cons, ih, if_neg (by simpa using h)]
    next => exact ih

theorem kraftSumTo_succ (lens : List Nat) (m : Nat) :
    kraftSumTo lens (m + 1) = kraftSumTo lens m + lens.count (m + 1) * 2 ^ (255 - (m + 1)) := by
  induction lens with
  | nil => simp [kraftSumTo, kraftSum]
  | cons l ls ih =>
    unfold kraftSumTo at ih ⊢
    simp only [List.filter_cons, List.count_cons, decide_eq_true_eq, beq_iff_eq]
    rcases Nat.lt_trichotomy l (m + 1) with h | h | h
    · rw [if_pos h.le, if_pos (by omega), if_neg h.ne, kraftSum_cons, kraftSum_cons, ih]
      ring
    · rw [if_pos h.le, if_neg (by omega), if_pos h, kraftSum_cons, ih, if_pos (by omega), h]
      ring
    · rw [if_neg (by omega), if_neg (by omega), if_neg (by omega), ih]
      ring

/-- The codes of at most `m` bits fill, of the codes of `m` bits, exactly their part of the Kraft sum (43_huffman.md
R118, R123). -/
theorem firstCode_add_count_mul (lens : List Nat) {m : Nat} (hm : m ≤ 255) :
    (firstCode lens m + lengthCount lens m) * 2 ^ (255 - m) = kraftSumTo lens m := by
  induction m with
  | zero => simp [firstCode, lengthCount, kraftSumTo_zero]
  | succ m ih =>
    have hpow : 2 ^ (255 - m) = 2 * 2 ^ (255 - (m + 1)) := by
      rw [← pow_succ']
      congr 1
      omega
    rw [kraftSumTo_succ, ← ih (by omega), hpow, firstCode, lengthCount_of_pos _ (Nat.succ_pos m)]
    ring

/-- Under Kraft the codes of each length fit it (43_huffman.md R118). -/
theorem firstCode_add_count_le {lens : List Nat} (hk : kraft lens = true) {m : Nat} (hm : m ≤ 255) :
    firstCode lens m + lengthCount lens m ≤ 2 ^ m := by
  have hsum := ((firstCode_add_count_mul lens hm).trans_le (kraftSumTo_le lens m)).trans ((kraft_iff lens).1 hk)
  rw [← Nat.add_sub_cancel' hm, pow_add, Nat.add_sub_cancel' hm] at hsum
  exact Nat.le_of_mul_le_mul_right hsum (Nat.two_pow_pos _)

/-- A longer code, cut to `m` bits, comes after every code of `m` bits (43_huffman.md R118). -/
theorem le_firstCode_add (lens : List Nat) (m k : Nat) :
    2 ^ (k + 1) * (firstCode lens m + lengthCount lens m) ≤ firstCode lens (m + k + 1) := by
  induction k with
  | zero => rw [firstCode, Nat.mul_comm, Nat.zero_add, pow_one]
  | succ k ih =>
    rw [← Nat.add_assoc, firstCode, pow_succ, Nat.mul_right_comm]
    exact Nat.mul_le_mul_right 2 (ih.trans (Nat.le_add_right _ _))

/-! ## Every code fits, and no code starts with another -/

/-- A symbol's place among the symbols of its length is below that of any later one. -/
theorem count_take_lt {lens : List Nat} {s t : Nat} (hst : s < t) (hs : s < lens.length) :
    (lens.take s).count (lens.getD s 0) < (lens.take t).count (lens.getD s 0) := by
  have hsub : (lens.take s ++ [lens.getD s 0]).Sublist (lens.take t) := by
    rw [List.getD_eq_getElem _ _ hs, List.take_append_getElem hs]
    exact (List.take_prefix_take_left hst).sublist
  have hcount := hsub.count_le (lens.getD s 0)
  rw [List.count_append, List.count_singleton_self] at hcount
  exact hcount

section
variable {lens : List Nat} {s t : Nat} (hs : s < lens.length) (hpos : 0 < lens.getD s 0)
include hs hpos

/-- A code is below those of the next length, cut to its own (43_huffman.md R118). -/
theorem getD_canonical_lt_next :
    (canonical lens).getD s 0 < firstCode lens (lens.getD s 0) + lengthCount lens (lens.getD s 0) := by
  have hcount := count_take_lt hs hs
  rw [List.take_length] at hcount
  rw [getD_canonical hs hpos, lengthCount_of_pos _ hpos]
  omega

/-- Under Kraft every code fits its length (43_huffman.md R118). -/
theorem getD_canonical_lt (hlen : ∀ l ∈ lens, l ≤ 255) (hk : kraft lens = true) :
    (canonical lens).getD s 0 < 2 ^ lens.getD s 0 :=
  (getD_canonical_lt_next hs hpos).trans_le (firstCode_add_count_le hk (hlen _ (getD_mem hs)))

/-- Codes of one length differ (43_huffman.md R119). -/
theorem getD_canonical_ne_of_length_eq (ht : t < lens.length) (heq : lens.getD t 0 = lens.getD s 0) (hst : s ≠ t) :
    (canonical lens).getD t 0 ≠ (canonical lens).getD s 0 := by
  rw [getD_canonical hs hpos, getD_canonical ht (heq ▸ hpos), heq]
  rcases Nat.lt_or_gt_of_ne hst with h | h
  · have hcount := count_take_lt h hs
    omega
  · have hcount := count_take_lt h ht
    rw [heq] at hcount
    omega

/-- A longer code does not start with a shorter one (43_huffman.md R119). -/
theorem getD_canonical_lt_div_of_length_lt (ht : t < lens.length) (hlt : lens.getD s 0 < lens.getD t 0) :
    (canonical lens).getD s 0 < (canonical lens).getD t 0 / 2 ^ (lens.getD t 0 - lens.getD s 0) := by
  obtain ⟨k, hk⟩ := Nat.exists_eq_add_of_lt hlt
  have hnext := le_firstCode_add lens (lens.getD s 0) k
  rw [show lens.getD t 0 - lens.getD s 0 = k + 1 by omega]
  refine (getD_canonical_lt_next hs hpos).trans_le ((Nat.le_div_iff_mul_le (Nat.two_pow_pos _)).2 ?_)
  rw [Nat.mul_comm, getD_canonical ht (hpos.trans hlt), hk]
  exact hnext.trans (Nat.le_add_right _ _)

end

/-- Settles O39, by whether the two lengths are equal. -/
theorem canonicalCodesArePrefixFree : Obligations.CanonicalCodesArePrefixFree := by
  intro lens hlen hk
  refine ⟨length_canonical lens, fun s t hs ht hpos hle => ⟨getD_canonical_lt hs hpos hlen hk, fun hst => ?_⟩⟩
  rcases hle.eq_or_lt with heq | hlt
  · rw [heq, Nat.sub_self, pow_zero, Nat.div_one]
    exact getD_canonical_ne_of_length_eq hs hpos ht heq.symm hst
  · exact (getD_canonical_lt_div_of_length_lt hs hpos ht hlt).ne'

end Sys2Proof.Machine
end

section
/-! PROOFS. The header of a Huffman or HS container: its checks in their order, and the decoder's working state when
they pass (43_huffman.md R122, R125). -/

namespace Sys2Proof.Machine

/-! ## The value checks -/

/-- The symbol decoder's working state under the declared length `n` and the table `lens`, with the bytes `out` decoded
(43_huffman.md R125). -/
def hufWorkAt (n : Nat) (lens : List Nat) (out : List Byte) : HuffWork :=
  { freq := [], pool := [], lens := lens, blCount := blCounts lens, nextCode := nextCodes lens, code := canonical lens
    c := 0, k := 0, n := n, out := out }

theorem exists_lens_ne_zero {lens : List Byte} (h : ∃ l ∈ lens, l ≠ 0) : ∃ l ∈ lensOfBytes lens, l ≠ 0 := by
  obtain ⟨l, hl, h0⟩ := h
  exact ⟨l.toNat, List.mem_map_of_mem hl, fun hzero => h0 (BitVec.eq_of_toNat_eq hzero)⟩

theorem lens_eq_zero {lens : List Byte} (h : ∀ l ∈ lens, l = 0) : ∀ l ∈ lensOfBytes lens, l = 0 := by
  intro l hl
  obtain ⟨b, hb, rfl⟩ := List.mem_map.1 hl
  rw [h b hb]
  rfl

section
variable {cap n : Nat} {lens : List Nat}

theorem hufStart_of_not_kraft (cap n : Nat) (hk : 2 ^ 255 < kraftSum lens) :
    hufStart cap n lens = .error .corruptHeader :=
  if_pos fun h => Nat.not_le.2 hk ((kraft_iff lens).1 h)

/-- A table with no code for a nonempty output (43_huffman.md R122). -/
theorem hufStart_of_no_code (cap : Nat) (hn : 0 < n) (hzero : ∀ l ∈ lens, l = 0) :
    hufStart cap n lens = .error .corruptHeader := by
  have hall : lens.all (· == 0) = true := by simpa using hzero
  rw [hufStart]
  split
  · rfl
  · exact if_pos ⟨hn, hall⟩

section
variable (hk : kraftSum lens ≤ 2 ^ 255) (hcode : n = 0 ∨ ∃ l ∈ lens, l ≠ 0)
include hk hcode

/-- Past the checks of the table the declared length decides (43_huffman.md R122). -/
theorem hufStart_of_table :
    hufStart cap n lens = if cap < n then .error .capacityExceeded else .ok (hufWorkAt n lens []) := by
  have hall : ¬ (0 < n ∧ lens.all (· == 0) = true) := by
    rintro ⟨hn, hzero⟩
    obtain ⟨l, hl, h0⟩ := hcode.resolve_left hn.ne'
    exact h0 (by simpa using List.all_eq_true.1 hzero l hl)
  rw [hufStart, if_neg (not_not.2 ((kraft_iff lens).2 hk)), if_neg hall]
  rfl

theorem hufStart_of_too_long (hlong : cap < n) : hufStart cap n lens = .error .capacityExceeded :=
  (hufStart_of_table hk hcode).trans (if_pos hlong)

theorem hufStart_of_fits (hfits : n ≤ cap) : hufStart cap n lens = .ok (hufWorkAt n lens []) :=
  (hufStart_of_table hk hcode).trans (if_neg (Nat.not_lt.2 hfits))

end

end

/-! ## The header checks in their order -/

/-- The identifiers of the two containers that the Huffman stage codes (30_encoding.md R57). -/
abbrev hufIdent (ident : Byte) : Prop := ident = 0x02 ∨ ident = 0x03

theorem hufIdent.ne_identLzss {ident : Byte} (h : hufIdent ident) : ident ≠ Config.identLzss := by
  rcases h with rfl | rfl <;> decide

theorem headerLength_of_hufIdent {ident : Byte} (h : hufIdent ident) : headerLength ident = 261 :=
  if_neg h.ne_identLzss

/-- A source that ends before its header does (43_huffman.md R122). -/
theorem hufDecode_of_endOfBits {ident : Byte} {cap : Nat} {src : List Byte}
    (h : decodeContainer ident src = .error .endOfBits) : hufDecode ident cap src = .error .unexpectedEndOfInput := by
  rw [hufDecode, h]
  rfl

/-- Past a complete header the decoder's outcome is that of the value checks and then of the body from byte 261 on
(43_huffman.md R122, R125). -/
theorem hufDecode_of_header {ident : Byte} (cap : Nat) {src : List Byte} (hident : hufIdent ident)
    (hlen : 261 ≤ src.length) (hid : byteAt src 0 = ident) :
    hufDecode ident cap src =
      hufStart cap (be32 src 1) (lensOfBytes (headerLens src)) >>= hufFinish { src := src, pos := 2088 } := by
  obtain ⟨i, hi⟩ : ∃ i, containerInstr ident src = some i := by
    rcases hident with rfl | rfl <;> exact ⟨_, rfl⟩
  have hheader := headerLength_of_hufIdent hident
  rw [hufDecode, decodeContainer_of_instr hid (hheader.trans_le hlen) hi, hheader]
  cases hufStart cap (be32 src 1) (lensOfBytes (headerLens src)) <;> rfl

/-- Settles O43, by the first check that fails. -/
theorem huffmanHeaderChecksInOrder : Obligations.HuffmanHeaderChecksInOrder := by
  intro ident cap src (hident : hufIdent ident)
  refine ⟨fun hempty => hufDecode_of_endOfBits (decodeContainer_of_empty hempty),
    fun hne hid => hufDecode_of_wrong_ident cap hident.ne_identLzss hne hid,
    fun hne hid hshort => hufDecode_of_endOfBits (decodeContainer_of_short hne hid ?_),
    fun hlen hid hk => ?_, fun hlen hid hn hzero => ?_, fun hlen hid hk hcode hlong => ?_,
    fun hlen hid hk hcode hfits => ?_⟩
  · rwa [headerLength_of_hufIdent hident]
  · rw [hufDecode_of_header cap hident hlen hid, hufStart_of_not_kraft _ _ hk]; rfl
  · rw [hufDecode_of_header cap hident hlen hid, hufStart_of_no_code _ hn (lens_eq_zero hzero)]; rfl
  · rw [hufDecode_of_header cap hident hlen hid, hufStart_of_too_long hk (.inr (exists_lens_ne_zero hcode)) hlong]; rfl
  · rw [hufDecode_of_header cap hident hlen hid, hufStart_of_fits hk (hcode.imp_right exists_lens_ne_zero) hfits]
    exact ⟨_, rfl, rfl, rfl, rfl, rfl⟩

/-! ## The header instructions -/

/-- A header whose value checks fail ends the command in their error. -/
theorem startHuffBody_of_error {ident : Byte} {cap : Nat} {n : Word} {lens : List Byte} {k : ErrKind} (s : State)
    (h : hufStart cap n.toNat (lensOfBytes lens) = .error k) :
    (startHuffBody ident cap n lens s).failsWith k ∧ s.keepsOperands (startHuffBody ident cap n lens s) := by
  have heq : startHuffBody ident cap n lens s = raiseError k s := by rw [startHuffBody, h]
  rw [heq]
  exact ⟨raiseError_failsWith k s, raiseError_keepsOperands k s⟩

/-- Settles O44: the value checks are those of the header, and only the destination differs. -/
theorem huffmanContainersStartTheSymbolDecoder : Obligations.HuffmanContainersStartTheSymbolDecoder := by
  intro s n lens i ident cap hi
  have hexec : exec i s = .next (startHuffBody ident cap n lens s) := by
    rcases hi with ⟨rfl, rfl, rfl⟩ | ⟨rfl, rfl, rfl⟩ <;> rfl
  rw [hexec]
  refine ⟨fun hk hcode hfits => ?_, fun hbad => ⟨_, rfl, startHuffBody_of_error s ?_⟩,
    fun hk hcode hlong => ⟨_, rfl, startHuffBody_of_error s ?_⟩⟩
  · have hstart := hufStart_of_fits hk (hcode.imp (congrArg BitVec.toNat) exists_lens_ne_zero) hfits
    rw [startHuffBody, hstart]
    exact ⟨_, rfl, rfl, rfl, rfl, rfl⟩
  · rcases hbad with hk | ⟨hn, hzero⟩
    · exact hufStart_of_not_kraft _ _ hk
    · exact hufStart_of_no_code _ (Nat.pos_of_ne_zero (toNat_ne_zero_of_ne_zero hn)) (lens_eq_zero hzero)
  · exact hufStart_of_too_long hk (.inr (exists_lens_ne_zero hcode)) hlong

end Sys2Proof.Machine
end

section
/-! PROOFS. The Huffman decoder on the codes of a byte sequence, and on what follows them (43_huffman.md R124, R125). -/

namespace Sys2Proof

/-- The bits of a number given by its bits (20_memory.md R41). -/
theorem valueBits_bitsValue (bs : List Bool) : valueBits (bitsValue bs) bs.length = bs := by
  induction bs with
  | nil => rfl
  | cons b bs ih =>
    have hlow : bitsValue (b :: bs) % 2 ^ bs.length = bitsValue bs := by
      rw [bitsValue_cons, Nat.mul_add_mod_self_right, Nat.mod_eq_of_lt (bitsValue_lt bs)]
    have htop : (bitsValue (b :: bs)).testBit bs.length = b := by
      simpa using testBit_bitsValue (b :: bs) bs.length (by simp)
    rw [List.length_cons, valueBits, htop, ← valueBits_mod _ _ _ le_rfl, hlow, ih]

/-- GetBit at the end of whole bytes (40_bitstream.md R81). -/
theorem getBit_at_end {bits : List Bool} {q : Nat} (hwhole : bits.length % 8 = 0) (hq : q = bits.length) :
    getBit { src := packBits bits, pos := q } = none := by
  refine if_pos ?_
  simp only [length_packBits]
  omega

end Sys2Proof

namespace Sys2Proof.Machine

/-! ## Codes as bits -/

/-- The LEN[s] bits of CODE[s], most significant first (30_encoding.md R65). -/
def codeword (lens : List Nat) (s : Nat) : List Bool := valueBits ((canonical lens).getD s 0) (lens.getD s 0)

@[simp] theorem length_codeword (lens : List Nat) (s : Nat) : (codeword lens s).length = lens.getD s 0 :=
  length_valueBits _ _

theorem codeBits_cons (lens : List Nat) (b : Byte) (x : List Byte) :
    codeBits lens (b :: x) = codeword lens b.toNat ++ codeBits lens x := List.flatMap_cons

theorem lt_length_of_getD_pos {ls : List Nat} {s : Nat} (h : 0 < ls.getD s 0) : s < ls.length := by
  by_contra hge
  rw [List.getD_eq_default _ _ (Nat.not_lt.1 hge)] at h
  exact h.false

/-- A table whose lengths fit a header byte and satisfy Kraft (30_encoding.md R59, 43_huffman.md R123). -/
structure KraftTable (lens : List Nat) : Prop where
  le_255 : ∀ l ∈ lens, l ≤ 255
  kraft : kraft lens = true

section
variable {lens : List Nat} (h : KraftTable lens)
include h

theorem KraftTable.bitsValue_codeword {s : Nat} (hs : 0 < lens.getD s 0) :
    bitsValue (codeword lens s) = (canonical lens).getD s 0 := by
  rw [codeword, bitsValue_valueBits,
    Nat.mod_eq_of_lt (getD_canonical_lt (lt_length_of_getD_pos hs) hs h.le_255 h.kraft)]

/-- No code starts with another symbol's (43_huffman.md R119). -/
theorem KraftTable.eq_of_codeword_prefix {s t : Nat} (hs : 0 < lens.getD s 0) (ht : 0 < lens.getD t 0)
    (hprefix : codeword lens s <+: codeword lens t) : s = t := by
  by_contra hst
  have hle : lens.getD s 0 ≤ lens.getD t 0 := by simpa using hprefix.length_le
  obtain ⟨-, hne⟩ := (canonicalCodesArePrefixFree lens h.le_255 h.kraft).2 s t (lt_length_of_getD_pos hs)
    (lt_length_of_getD_pos ht) hs hle
  refine hne hst ?_
  obtain ⟨r, hr⟩ := hprefix
  have hlen : lens.getD t 0 - lens.getD s 0 = r.length := by
    rw [← length_codeword lens t, ← hr, List.length_append, length_codeword, Nat.add_sub_cancel_left]
  rw [← h.bitsValue_codeword ht, ← h.bitsValue_codeword hs, ← hr, bitsValue_append, hlen, Nat.mul_comm,
    Nat.mul_add_div (Nat.two_pow_pos _), Nat.div_eq_of_lt (bitsValue_lt r), Nat.add_zero]

end

/-! ## DecodeSymbol -/

/-- The bits `p` are no symbol's code (43_huffman.md R124). -/
def NoCode (lens : List Nat) (p : List Bool) : Prop := ∀ s, 0 < lens.getD s 0 → codeword lens s ≠ p

theorem symbolOf_some {lens code : List Nat} {k c s : Nat} (h : symbolOf lens code k c = some s) :
    lens.getD s 0 = k ∧ code.getD s 0 = c := by
  obtain ⟨hs, hmatch, -⟩ := List.findIdx?_eq_some_iff_getElem.1 h
  rw [List.length_zip, Nat.lt_min] at hs
  rw [List.getD_eq_getElem _ _ hs.1, List.getD_eq_getElem _ _ hs.2]
  simpa using hmatch

theorem symbolOf_ne_none {lens code : List Nat} {s : Nat} (hs : s < lens.length) (hcode : s < code.length) :
    symbolOf lens code (lens.getD s 0) (code.getD s 0) ≠ none := by
  intro h
  have hmem : (lens.getD s 0, code.getD s 0) ∈ lens.zip code := by
    rw [List.getD_eq_getElem _ _ hs, List.getD_eq_getElem _ _ hcode]
    exact List.mem_iff_getElem.2 ⟨s, by simpa using ⟨hs, hcode⟩, List.getElem_zip⟩
  simpa using List.findIdx?_eq_none_iff.1 h _ hmem

/-- A symbol found for the bits read has them as its code (43_huffman.md R124). -/
theorem codeword_of_symbolOf {lens : List Nat} {p : List Bool} {s : Nat}
    (h : symbolOf lens (canonical lens) p.length (bitsValue p) = some s) : codeword lens s = p := by
  obtain ⟨hlen, hcode⟩ := symbolOf_some h
  rw [codeword, hlen, hcode, valueBits_bitsValue]

theorem symbolOf_of_noCode {lens : List Nat} {p : List Bool} (hne : p ≠ []) (hno : NoCode lens p) :
    symbolOf lens (canonical lens) p.length (bitsValue p) = none := by
  cases hsym : symbolOf lens (canonical lens) p.length (bitsValue p) with
  | none => rfl
  | some s =>
    have hpos : 0 < lens.getD s 0 := (symbolOf_some hsym).1 ▸ List.length_pos_iff.2 hne
    exact absurd (codeword_of_symbolOf hsym) (hno s hpos)

/-- The symbol of a code is unique (43_huffman.md R119, R124). -/
theorem KraftTable.symbolOf_codeword {lens : List Nat} (h : KraftTable lens) {s : Nat} (hs : 0 < lens.getD s 0) :
    symbolOf lens (canonical lens) (codeword lens s).length (bitsValue (codeword lens s)) = some s := by
  cases hsym : symbolOf lens (canonical lens) (codeword lens s).length (bitsValue (codeword lens s)) with
  | none =>
    have hlt := lt_length_of_getD_pos hs
    rw [length_codeword, h.bitsValue_codeword hs] at hsym
    exact absurd hsym (symbolOf_ne_none hlt (by rwa [length_canonical]))
  | some t =>
    have hcode := codeword_of_symbolOf hsym
    have hlen : lens.getD t 0 = lens.getD s 0 := by rw [← length_codeword, hcode, length_codeword]
    have hts : t = s := h.eq_of_codeword_prefix (hlen ▸ hs) hs (hcode ▸ List.prefix_rfl)
    rw [hts]

section
variable {lens : List Nat} {bits as p r : List Bool}

section
variable {b : Bool} (fuel : Nat) (hbits : bits = as ++ p ++ b :: r)
include hbits

/-- One more bit after the bits `p` completes a code (43_huffman.md R124). -/
theorem decodeSymbolFrom_of_symbol {s : Nat}
    (hsym : symbolOf lens (canonical lens) (p ++ [b]).length (bitsValue (p ++ [b])) = some s) :
    decodeSymbolFrom lens (canonical lens) (maxLength lens) (fuel + 1)
        { src := packBits bits, pos := (as ++ p).length } (bitsValue p) p.length =
      .ok (s, { src := packBits bits, pos := (as ++ (p ++ [b])).length }) := by
  rw [List.length_append, List.length_singleton, bitsValue_concat] at hsym
  rw [decodeSymbolFrom, getBit_of_bits_eq hbits rfl]
  simp only [hsym, List.length_append, List.length_singleton, Nat.add_assoc]

section
variable (hsym : symbolOf lens (canonical lens) (p ++ [b]).length (bitsValue (p ++ [b])) = none)
include hsym

/-- One more bit completes no code, and MAXL bits are read (43_huffman.md R124). -/
theorem decodeSymbolFrom_of_last (hmax : maxLength lens ≤ (p ++ [b]).length) :
    decodeSymbolFrom lens (canonical lens) (maxLength lens) (fuel + 1)
        { src := packBits bits, pos := (as ++ p).length } (bitsValue p) p.length = .error .corruptStream := by
  rw [List.length_append, List.length_singleton] at hmax hsym
  rw [bitsValue_concat] at hsym
  rw [decodeSymbolFrom, getBit_of_bits_eq hbits rfl]
  simp only [hsym, if_pos hmax]

/-- One more bit completes no code, and the next one is read (43_huffman.md R124). -/
theorem decodeSymbolFrom_of_more (hmax : (p ++ [b]).length < maxLength lens) :
    decodeSymbolFrom lens (canonical lens) (maxLength lens) (fuel + 1)
        { src := packBits bits, pos := (as ++ p).length } (bitsValue p) p.length =
      decodeSymbolFrom lens (canonical lens) (maxLength lens) fuel
        { src := packBits bits, pos := (as ++ (p ++ [b])).length } (bitsValue (p ++ [b])) (p ++ [b]).length := by
  rw [List.length_append, List.length_singleton] at hmax hsym
  rw [bitsValue_concat] at hsym ⊢
  rw [decodeSymbolFrom, getBit_of_bits_eq hbits rfl]
  simp only [hsym, if_neg (Nat.not_le.2 hmax), List.length_append, List.length_singleton, Nat.add_assoc]

end

end

/-- Bits that start with no code are read one by one while fewer than MAXL are read (43_huffman.md R124). -/
theorem decodeSymbolFrom_of_noCode (fuel : Nat) (hbits : bits = as ++ p ++ r) (hmax : p.length < maxLength lens)
    (hno : ∀ q, q <+: p → NoCode lens q) :
    decodeSymbolFrom lens (canonical lens) (maxLength lens) (p.length + fuel)
        { src := packBits bits, pos := as.length } 0 0 =
      decodeSymbolFrom lens (canonical lens) (maxLength lens) fuel
        { src := packBits bits, pos := (as ++ p).length } (bitsValue p) p.length := by
  induction p using List.reverseRecOn generalizing fuel r with
  | nil => simp
  | append_singleton p b ih =>
    have hpre : p <+: p ++ [b] := List.prefix_append _ _
    have hbits' : bits = as ++ p ++ b :: r := by simpa using hbits
    have hmax' : p.length < maxLength lens := hpre.length_le.trans_lt hmax
    have hread := ih (fuel + 1) hbits' hmax' fun q hq => hno q (hq.trans hpre)
    rw [decodeSymbolFrom_of_more fuel hbits' (symbolOf_of_noCode (by simp) (hno _ List.prefix_rfl)) hmax] at hread
    rw [← hread, List.length_append, List.length_singleton, Nat.add_assoc, Nat.add_comm 1 fuel]

/-- DecodeSymbol reads the code of a symbol, wherever it stands, and moves past it (43_huffman.md R124). -/
theorem KraftTable.decodeSymbol_codeword (h : KraftTable lens) {s : Nat} (hs : 0 < lens.getD s 0)
    (hbits : bits = as ++ codeword lens s ++ r) :
    decodeSymbol lens (canonical lens) { src := packBits bits, pos := as.length } =
      .ok (s, { src := packBits bits, pos := (as ++ codeword lens s).length }) := by
  obtain ⟨p, b, hcode⟩ : ∃ p b, codeword lens s = p ++ [b] :=
    (List.eq_nil_or_concat' _).resolve_left (List.length_pos_iff.1 (by rwa [length_codeword]))
  have hlen : p.length + 1 = lens.getD s 0 := by simpa [hcode] using (length_codeword lens s)
  have hmax : lens.getD s 0 ≤ maxLength lens := le_maxLength (getD_mem (lt_length_of_getD_pos hs))
  have hno : ∀ q, q <+: p → NoCode lens q := by
    intro q hq t ht heq
    have hts : t = s := h.eq_of_codeword_prefix ht hs (heq ▸ hq.trans ⟨[b], hcode.symm⟩)
    have hle := hq.length_le
    rw [← heq, hts, length_codeword] at hle
    omega
  have hbits' : bits = as ++ p ++ b :: r := by simpa [hcode] using hbits
  obtain ⟨fuel, hfuel⟩ : ∃ fuel, maxLength lens + 1 = p.length + (fuel + 1) :=
    ⟨maxLength lens - p.length, by omega⟩
  rw [decodeSymbol, hfuel, decodeSymbolFrom_of_noCode _ hbits' (by omega) hno,
    decodeSymbolFrom_of_symbol fuel hbits' (hcode ▸ h.symbolOf_codeword hs), hcode]

section
variable (hno : ∀ s, 0 < lens.getD s 0 → ¬ codeword lens s <+: r) (hbits : bits = as ++ r)
include hno hbits

/-- A code cut off by the end of the source (43_huffman.md R124). -/
theorem decodeSymbol_of_cut (hwhole : bits.length % 8 = 0) (hcut : r.length < maxLength lens) :
    decodeSymbol lens (canonical lens) { src := packBits bits, pos := as.length } = .error .unexpectedEndOfInput := by
  obtain ⟨fuel, hfuel⟩ : ∃ fuel, maxLength lens + 1 = r.length + (fuel + 1) :=
    ⟨maxLength lens - r.length, by omega⟩
  have hnoCode : ∀ q, q <+: r → NoCode lens q := fun q hq s hs heq => hno s hs (heq ▸ hq)
  rw [decodeSymbol, hfuel, decodeSymbolFrom_of_noCode (r := []) _ (by simpa using hbits) hcut hnoCode, decodeSymbolFrom,
    getBit_at_end hwhole (by rw [hbits])]

/-- MAXL bits that match no code (43_huffman.md R124). -/
theorem decodeSymbol_of_unassigned (hpos : 0 < maxLength lens) (hlong : maxLength lens ≤ r.length) :
    decodeSymbol lens (canonical lens) { src := packBits bits, pos := as.length } = .error .corruptStream := by
  obtain ⟨p, b, r', hr, hlen⟩ : ∃ p b r', r = p ++ b :: r' ∧ p.length + 1 = maxLength lens := by
    obtain ⟨m, hm⟩ := Nat.exists_eq_succ_of_ne_zero hpos.ne'
    have hlt : m < r.length := by omega
    refine ⟨r.take m, r[m], r.drop (m + 1), ?_, by rw [List.length_take_of_le hlt.le, hm]⟩
    rw [List.cons_getElem_drop_succ, List.take_append_drop]
  have hnoCode : ∀ q, q <+: p ++ [b] → NoCode lens q := fun q hq s hs heq =>
    hno s hs (heq ▸ hq.trans ⟨r', by simp [hr]⟩)
  have hbits' : bits = as ++ p ++ b :: r' := by rw [List.append_assoc, ← hr, hbits]
  rw [decodeSymbol, ← hlen, Nat.add_assoc, hlen, decodeSymbolFrom_of_noCode 2 hbits' (by omega)
    fun q hq => hnoCode q (hq.trans (List.prefix_append _ _))]
  exact decodeSymbolFrom_of_last 1 hbits' (symbolOf_of_noCode (by simp) (hnoCode _ List.prefix_rfl)) (by simp [hlen])

end

end

/-! ## The decoder's loop -/

section
variable {rd rd' : Reader} {n : Nat} {lens : List Nat} {out : List Byte} (fuel : Nat)

/-- A symbol read while bytes are missing is appended, and the loop goes on after it (43_huffman.md R125). -/
theorem hufBody_of_symbol {s : Nat} (hlt : out.length < n)
    (hread : decodeSymbol lens (canonical lens) rd = .ok (s, rd')) :
    hufBody (fuel + 1) rd (hufWorkAt n lens out) = hufBody fuel rd' (hufWorkAt n lens (out ++ [BitVec.ofNat 8 s])) := by
  simp only [hufBody, hufSymbol, hufWorkAt, if_pos hlt, hread]

theorem hufBody_of_error {k : ErrKind} (hlt : out.length < n)
    (hread : decodeSymbol lens (canonical lens) rd = .error k) :
    hufBody (fuel + 1) rd (hufWorkAt n lens out) = .error k := by
  simp only [hufBody, hufSymbol, hufWorkAt, if_pos hlt, hread]

/-- The loop stops once n bytes are out (43_huffman.md R125). -/
theorem hufBody_of_done {w : HuffWork} (rd : Reader) (hdone : w.out.length = w.n) :
    hufBody fuel rd w = .ok (rd, w) := by
  cases fuel with
  | zero => rfl
  | succ fuel => rw [hufBody, if_neg (by omega)]

/-- The decoder's loop reads the codes of a byte sequence, wherever they stand, and gives the bytes (43_huffman.md
R125). -/
theorem KraftTable.hufBody_codeBits (h : KraftTable lens) {x : List Byte} {bits as rest : List Bool}
    (hx : ∀ b ∈ x, 0 < lens.getD b.toNat 0) (hn : out.length + x.length ≤ n)
    (hbits : bits = as ++ codeBits lens x ++ rest) :
    hufBody (x.length + fuel) { src := packBits bits, pos := as.length } (hufWorkAt n lens out) =
      hufBody fuel { src := packBits bits, pos := (as ++ codeBits lens x).length } (hufWorkAt n lens (out ++ x)) := by
  induction x generalizing as out with
  | nil => simp [codeBits]
  | cons b x ih =>
    obtain ⟨hb, hx⟩ := List.forall_mem_cons.1 hx
    rw [List.length_cons] at hn
    have hread := h.decodeSymbol_codeword hb (bits := bits) (as := as) (r := codeBits lens x ++ rest)
      (by simp [hbits, codeBits_cons])
    have hrest := ih (as := as ++ codeword lens b.toNat) (out := out ++ [b]) hx
      (by rw [List.length_append, List.length_singleton]; omega) (by simp [hbits, codeBits_cons])
    rw [List.length_cons, Nat.succ_add, hufBody_of_symbol _ (by omega) hread, BitVec.ofNat_toNat, BitVec.setWidth_eq,
      hrest, codeBits_cons, List.append_assoc, List.append_assoc]
    rfl

end

/-- The loop and then the end of the body (43_huffman.md R125). -/
theorem hufFinish_eq (rd : Reader) (w : HuffWork) :
    hufFinish rd w = hufBody w.n rd w >>= fun p => bodyResult p.1 p.2.out := by
  rw [hufFinish]
  cases hufBody w.n rd w <;> rfl

/-! ## What follows the codes -/

theorem codeDefect_of_complete {n : Nat} {lens : List Nat} {x : List Byte} (rest : List Bool) (hdone : x.length = n) :
    codeDefect n lens x rest = endDefect rest := if_pos hdone

/-- What is wrong at a defect of the next code: it is cut off, or MAXL bits match no code (43_huffman.md R124). -/
theorem codeDefect_cases {n : Nat} {lens : List Nat} {x : List Byte} {rest : List Bool} {k : ErrKind}
    (hlens : lens.length = 256) (hlt : x.length < n) (h : codeDefect n lens x rest = some k) :
    (∀ s, 0 < lens.getD s 0 → ¬ codeword lens s <+: rest) ∧
    (k = .unexpectedEndOfInput ∧ rest.length < maxLength lens ∨ k = .corruptStream ∧ maxLength lens ≤ rest.length) := by
  unfold codeDefect at h
  rw [if_neg hlt.ne] at h
  split at h
  next => cases h
  next hno =>
    refine ⟨fun s hs hprefix => hno ?_, ?_⟩
    · refine List.any_eq_true.2 ⟨s, List.mem_range.2 ((lt_length_of_getD_pos hs).trans_eq hlens), ?_⟩
      exact Bool.and_eq_true_iff.2 ⟨bne_iff_ne.2 hs.ne', List.isPrefixOf_iff_prefix.2 hprefix⟩
    · split at h <;> cases h
      next hcut => exact .inl ⟨rfl, hcut⟩
      next hlong => exact .inr ⟨rfl, Nat.not_lt.1 hlong⟩

/-- DecodeSymbol at a defect of the next code ends in that defect's error (43_huffman.md R124). -/
theorem decodeSymbol_of_codeDefect {n : Nat} {lens : List Nat} {x : List Byte} {bits as rest : List Bool} {k : ErrKind}
    (hlens : lens.length = 256) (hcode : ∃ l ∈ lens, l ≠ 0) (hwhole : bits.length % 8 = 0) (hbits : bits = as ++ rest)
    (hlt : x.length < n) (h : codeDefect n lens x rest = some k) :
    decodeSymbol lens (canonical lens) { src := packBits bits, pos := as.length } = .error k := by
  obtain ⟨hno, ⟨rfl, hcut⟩ | ⟨rfl, hlong⟩⟩ := codeDefect_cases hlens hlt h
  · exact decodeSymbol_of_cut hno hbits hwhole hcut
  · obtain ⟨l, hl, h0⟩ := hcode
    exact decodeSymbol_of_unassigned hno hbits ((Nat.pos_of_ne_zero h0).trans_le (le_maxLength hl)) hlong

/-! ## Containers -/

theorem length_flatMap_byteBits (bs : List Byte) : (bs.flatMap byteBits).length = 8 * bs.length :=
  Laws.lensBits_length bs

/-- The bits of a container coded by the Huffman stage, with either identifier (30_encoding.md R59, R60). -/
def hufBits (ident : Byte) (n : Word) (lens : List Byte) (x : List Byte) : List Bool :=
  (ident :: (u32be n.toNat ++ lens)).flatMap byteBits ++ codeBits (lensOfBytes lens) x

theorem huffmanBits_eq (n : Word) (lens x : List Byte) :
    huffmanBits n lens x = hufBits Config.identHuffman n lens x := by
  rw [huffmanBits, encode_container]
  rfl

/-- The bytes of a container with a Huffman header read as that header's fields (30_encoding.md R59). -/
theorem header_of_hufContainer (ident : Byte) (n : Word) {lens : List Byte} (hlens : lens.length = 256)
    (body : List Bool) {src : List Byte}
    (hsrc : src = packBits ((ident :: (u32be n.toNat ++ lens)).flatMap byteBits ++ body)) :
    261 ≤ src.length ∧ byteAt src 0 = ident ∧ be32 src 1 = n.toNat ∧ headerLens src = lens := by
  rw [packBits_flatMap_byteBits] at hsrc
  have hn : BitVec.ofNat 32 (be32 src 1) = n := be32_u32be [ident] (lens ++ packBits body) (by simp [hsrc]) rfl
  refine ⟨?_, by rw [hsrc]; rfl, by rw [← hn, toNat_ofNat_be32], ?_⟩
  · simp [hsrc, u32be, hlens]
  · simp [hsrc, headerLens, u32be, Config.alphabet, ← hlens]

theorem le_255_of_mem_lensOfBytes {lens : List Byte} : ∀ l ∈ lensOfBytes lens, l ≤ 255 := by
  intro l hl
  obtain ⟨b, -, rfl⟩ := List.mem_map.1 hl
  exact Nat.le_of_lt_succ b.isLt

section
variable {ident : Byte} {cap : Nat} {n : Word} {lens x : List Byte} (hident : hufIdent ident)
  (hlens : lens.length = 256) (hk : kraft (lensOfBytes lens) = true)
  (hx : ∀ b ∈ x, 0 < (lensOfBytes lens).getD b.toNat 0) (hcap : n.toNat ≤ cap)
include hident hlens hk hx hcap

/-- The decoder on a container that starts with a header and the codes of `x`: the rest of the loop, with `x` out, and
then the end of the body (43_huffman.md R125). -/
theorem hufDecode_hufBits (rest : List Bool) (hcode : n.toNat = 0 ∨ ∃ l ∈ lensOfBytes lens, l ≠ 0)
    (hle : x.length ≤ n.toNat) :
    hufDecode ident cap (packBits (hufBits ident n lens x ++ rest)) =
      hufBody (n.toNat - x.length)
          { src := packBits (hufBits ident n lens x ++ rest), pos := (hufBits ident n lens x).length }
          (hufWorkAt n.toNat (lensOfBytes lens) x) >>=
        fun p => bodyResult p.1 p.2.out := by
  have hbits : hufBits ident n lens x ++ rest =
      (ident :: (u32be n.toNat ++ lens)).flatMap byteBits ++ (codeBits (lensOfBytes lens) x ++ rest) :=
    List.append_assoc _ _ _
  obtain ⟨hlen, hid, hnField, hlensField⟩ := header_of_hufContainer ident n hlens _ (congrArg packBits hbits)
  have hheader : ((ident :: (u32be n.toNat ++ lens)).flatMap byteBits).length = 2088 := by
    rw [length_flatMap_byteBits]
    simp [u32be, hlens]
  have htable : KraftTable (lensOfBytes lens) := ⟨le_255_of_mem_lensOfBytes, hk⟩
  have hloop := htable.hufBody_codeBits (n := n.toNat) (out := []) (n.toNat - x.length) hx (by simpa using hle)
    (bits := hufBits ident n lens x ++ rest) rfl
  rw [hheader, Nat.add_sub_cancel' hle, List.nil_append] at hloop
  rw [hufDecode_of_header cap hident hlen hid, hnField, hlensField,
    hufStart_of_fits ((kraft_iff _).1 hk) hcode hcap]
  exact (hufFinish_eq _ (hufWorkAt n.toNat (lensOfBytes lens) [])).trans (congrArg (· >>= _) hloop)

/-- A container whose body is the codes of N bytes decodes to those bytes (43_huffman.md R125). -/
theorem hufDecode_of_complete (hdone : x.length = n.toNat) :
    hufDecode ident cap (packBits (hufBits ident n lens x)) = .ok x := by
  have hcode : n.toNat = 0 ∨ ∃ l ∈ lensOfBytes lens, l ≠ 0 := by
    rw [← hdone]
    cases x with
    | nil => exact .inl rfl
    | cons b x =>
      have hb := hx b List.mem_cons_self
      exact .inr ⟨_, getD_mem (lt_length_of_getD_pos hb), hb.ne'⟩
  have hdecode := hufDecode_hufBits hident hlens hk hx hcap [] hcode hdone.le
  rw [List.append_nil, hufBody_of_done (w := hufWorkAt n.toNat (lensOfBytes lens) x) _ _ hdone] at hdecode
  rw [hdecode]
  show bodyResult { src := packBits (hufBits ident n lens x), pos := (hufBits ident n lens x).length } x = .ok x
  rw [bodyResult, checkEnd_packBits]

/-- A container that is malformed after the codes of `x` ends the decoder in the error of its first defect
(43_huffman.md R124, 40_bitstream.md R83). -/
theorem hufDecode_of_codeDefect {rest : List Bool} {k : ErrKind} (hcode : n.toNat = 0 ∨ ∃ l ∈ lensOfBytes lens, l ≠ 0)
    (hle : x.length ≤ n.toNat) (hwhole : (hufBits ident n lens x ++ rest).length % 8 = 0)
    (hdefect : codeDefect n.toNat (lensOfBytes lens) x rest = some k) :
    hufDecode ident cap (packBits (hufBits ident n lens x ++ rest)) = .error k := by
  rw [hufDecode_hufBits hident hlens hk hx hcap rest hcode hle]
  rcases hle.eq_or_lt with hdone | hlt
  · rw [codeDefect_of_complete rest hdone] at hdefect
    obtain ⟨hcheck, rfl⟩ := checkEnd_of_endDefect hwhole hdefect
    rw [hufBody_of_done (w := hufWorkAt n.toNat (lensOfBytes lens) x) _ _ hdone]
    show bodyResult { src := packBits (hufBits ident n lens x ++ rest), pos := (hufBits ident n lens x).length } x = _
    rw [bodyResult, hcheck]
  · obtain ⟨fuel, hfuel⟩ := Nat.exists_eq_succ_of_ne_zero (Nat.sub_ne_zero_of_lt hlt)
    have hlensLen : (lensOfBytes lens).length = 256 := (List.length_map _).trans hlens
    have hread := decodeSymbol_of_codeDefect hlensLen (hcode.resolve_left (by omega)) hwhole rfl hlt hdefect
    rw [hfuel, hufBody_of_error _ hlt hread]
    rfl

end

theorem getD_lensOfBytes (lens : List Byte) (s : Nat) : (lensOfBytes lens).getD s 0 = (byteAt lens s).toNat :=
  List.getD_map lens 0 BitVec.toNat

/-- Settles O41, by the decoder's outcome on the codes alone and on a defect after them. -/
theorem huffmanDecompressReadsTheCodes : Obligations.HuffmanDecompressReadsTheCodes := by
  intro s n lens x hlens hk hx hfit hcap
  have hident : hufIdent Config.identHuffman := .inl rfl
  have hcodes : ∀ b ∈ x, 0 < (lensOfBytes lens).getD b.toNat 0 := fun b hb => by
    rw [getD_lensOfBytes]
    exact Nat.pos_of_ne_zero fun hzero => hx b hb (BitVec.eq_of_toNat_eq hzero)
  have hvalue (src : List Byte) (hsrc : s.hasInput src) :
      commandValue .huffmanDecompress s = hufDecode Config.identHuffman s.cfg.outMemBytes src := by
    rw [commandValue, withInput_of_fits _ _ _ rfl hfit, inputBytes_of_hasInput s src hsrc]
  rw [huffmanBits_eq]
  constructor
  · intro hdone hsrc
    exact exec_completes (by decide)
      ((hvalue _ hsrc).trans (hufDecode_of_complete hident hlens hk hcodes hcap hdone))
  · intro rest k hle hcode hsrc hwhole hdefect
    exact exec_fails (by decide) ((hvalue _ hsrc).trans (hufDecode_of_codeDefect hident hlens hk hcodes hcap
      (hcode.imp (congrArg BitVec.toNat) exists_lens_ne_zero) hle hwhole hdefect))

end Sys2Proof.Machine
end

section
/-! PROOFS. The merge tree of the Huffman tree builder: what one merge and the whole loop do, and the depths of the
leaves (43_huffman.md R112 to R116). -/

namespace Sys2Proof.Machine

/-! ## One merge -/

/-- Taking the first node keeps the nodes (43_huffman.md R114). -/
theorem takeFirst_perm (a : Node) (bs : List Node) : (a :: bs).Perm ((takeFirst a bs).1 :: (takeFirst a bs).2) := by
  induction bs generalizing a with
  | nil => rfl
  | cons b bs ih =>
    rw [takeFirst]
    split
    · exact ((ih b).cons a).trans (.swap _ _ _)
    · exact (List.Perm.swap b a bs).trans (((ih a).cons b).trans (.swap _ _ _))

/-- The first node has the smallest weight (43_huffman.md R113). -/
theorem takeFirst_weight_le (a : Node) (bs : List Node) : ∀ c ∈ a :: bs, (takeFirst a bs).1.weight ≤ c.weight := by
  induction bs generalizing a with
  | nil => simp [takeFirst]
  | cons b bs ih =>
    rw [takeFirst]
    split
    next h =>
      have hba : b.weight ≤ a.weight := by simp [comesBefore] at h; omega
      obtain ⟨hb, hbs⟩ := List.forall_mem_cons.1 (ih b)
      exact List.forall_mem_cons.2 ⟨hb.trans hba, List.forall_mem_cons.2 ⟨hb, hbs⟩⟩
    next h =>
      have hab : a.weight ≤ b.weight := by simp [comesBefore] at h; omega
      obtain ⟨ha, hbs⟩ := List.forall_mem_cons.1 (ih a)
      exact List.forall_mem_cons.2 ⟨ha, List.forall_mem_cons.2 ⟨ha.trans hab, hbs⟩⟩

/-- The first node is no heavier than the others that stay. -/
theorem takeFirst_weight_le_rest (a : Node) (bs : List Node) :
    ∀ c ∈ (takeFirst a bs).2, (takeFirst a bs).1.weight ≤ c.weight := fun c hc =>
  takeFirst_weight_le a bs c ((takeFirst_perm a bs).mem_iff.2 (List.mem_cons_of_mem _ hc))

/-- Everything a merge of two or more live nodes can do: the two lightest become one (43_huffman.md R113, R114). -/
theorem mergeOnce_cases {pool : List Node} (h : 2 ≤ pool.length) :
    ∃ a b rest, pool.Perm (a :: b :: rest) ∧ mergeOnce pool = joinNodes a b :: rest ∧
      (∀ c ∈ b :: rest, a.weight ≤ c.weight) ∧ ∀ c ∈ rest, b.weight ≤ c.weight := by
  cases pool with
  | nil => simp at h
  | cons x xs =>
    have hperm := takeFirst_perm x xs
    have hle := takeFirst_weight_le_rest x xs
    cases hfirst : takeFirst x xs with
    | mk a others =>
      rw [hfirst] at hperm hle
      cases others with
      | nil =>
        rw [hperm.length_eq] at h
        exact absurd h (by simp)
      | cons y ys =>
        have hperm2 := takeFirst_perm y ys
        refine ⟨a, (takeFirst y ys).1, (takeFirst y ys).2, hperm.trans (hperm2.cons a), ?_,
          fun c hc => hle c (hperm2.mem_iff.2 hc), takeFirst_weight_le_rest y ys⟩
        simp only [mergeOnce, hfirst]

theorem length_mergeOnce {pool : List Node} (h : 2 ≤ pool.length) : (mergeOnce pool).length + 1 = pool.length := by
  obtain ⟨a, b, rest, hperm, hmerge, -⟩ := mergeOnce_cases h
  rw [hmerge, hperm.length_eq]
  rfl

/-! ## The merge loop -/

theorem length_mergeTimes {k : Nat} {pool : List Node} (h : k < pool.length) :
    (mergeTimes k pool).length + k = pool.length := by
  induction k generalizing pool with
  | zero => rfl
  | succ k ih =>
    have hlen := length_mergeOnce (pool := pool) (by omega)
    rw [mergeTimes, ← hlen, ← ih (pool := mergeOnce pool) (by omega), Nat.add_assoc]

theorem mergeTimes_add (j k : Nat) (pool : List Node) : mergeTimes (j + k) pool = mergeTimes k (mergeTimes j pool) := by
  induction j generalizing pool with
  | zero => rw [Nat.zero_add]; rfl
  | succ j ih => rw [Nat.succ_add, mergeTimes, ih]; rfl

theorem mergeAll_mergeTimes {j : Nat} {pool : List Node} (h : j < pool.length) :
    mergeAll (mergeTimes j pool) = mergeAll pool := by
  have hlen := length_mergeTimes h
  rw [mergeAll, ← mergeTimes_add, mergeAll]
  congr 1
  omega

/-- What every merge keeps, the merge loop keeps (43_huffman.md R114). -/
theorem mergeTimes_keeps {P : List Node → Prop} (hstep : ∀ pool, 2 ≤ pool.length → P pool → P (mergeOnce pool))
    {k : Nat} {pool : List Node} (h : k < pool.length) (hP : P pool) : P (mergeTimes k pool) := by
  induction k generalizing pool with
  | zero => exact hP
  | succ k ih =>
    have hlen := length_mergeOnce (pool := pool) (by omega)
    exact ih (by omega) (hstep pool (by omega) hP)

/-! ## What the nodes hold -/

/-- The symbols of the leaves of a subtree (43_huffman.md R113). -/
def nodeSymbols : Node → List Nat
  | .leaf _ k => [k]
  | .internal _ _ a b => nodeSymbols a ++ nodeSymbols b

/-- Each weight is the symbol's frequency, or the sum of the two children's weights (43_huffman.md R113). -/
def Weighs (freq : List Nat) : Node → Prop
  | .leaf w k => w = freq.getD k 0
  | .internal w _ a b => w = a.weight + b.weight ∧ Weighs freq a ∧ Weighs freq b

theorem length_nodeSymbols_pos (n : Node) : 0 < (nodeSymbols n).length := by
  induction n with
  | leaf w k => exact Nat.one_pos
  | internal w k a b iha ihb => rw [nodeSymbols, List.length_append]; omega

/-- The weight of a subtree is the number of occurrences of its symbols (43_huffman.md R113). -/
theorem weight_eq_sum {freq : List Nat} {n : Node} (h : Weighs freq n) :
    n.weight = ((nodeSymbols n).map (freq.getD · 0)).sum := by
  induction n with
  | leaf w k => simpa [nodeSymbols, Weighs, Node.weight] using h
  | internal w k a b iha ihb =>
    obtain ⟨hw, ha, hb⟩ := h
    rw [nodeSymbols, List.map_append, List.sum_append, ← iha ha, ← ihb hb]
    exact hw

/-- The symbols with a frequency of at least 1 (43_huffman.md R112). -/
def presentSymbols (freq : List Nat) : List Nat := (List.range freq.length).filter fun s => 1 ≤ freq.getD s 0

theorem leaves_eq (freq : List Nat) :
    leaves freq = (presentSymbols freq).map fun s => .leaf (freq.getD s 0) s := by
  have hzip : freq.zipIdx = (List.range freq.length).map fun s => (freq.getD s 0, s) := by
    apply List.ext_getElem
    · simp
    · intro i hi hi'
      simp at hi
      simp [hi]
  rw [leaves, hzip, List.filter_map, List.map_map]
  rfl

/-- The merge loop ends with one root that holds the present symbols (43_huffman.md R114). -/
theorem mergeAll_leaves {freq : List Nat} (h : presentSymbols freq ≠ []) :
    ∃ root, mergeAll (leaves freq) = [root] ∧ (nodeSymbols root).Perm (presentSymbols freq) ∧ Weighs freq root := by
  have hpos : 0 < (leaves freq).length := by
    rw [leaves_eq, List.length_map]
    exact List.length_pos_iff.2 h
  have hkeeps : (mergeAll (leaves freq)).flatMap nodeSymbols |>.Perm (presentSymbols freq) := by
    refine mergeTimes_keeps (P := fun pool => (pool.flatMap nodeSymbols).Perm (presentSymbols freq)) ?_ (by omega) ?_
    · intro pool hlen hpool
      obtain ⟨a, b, rest, hperm, hmerge, -⟩ := mergeOnce_cases hlen
      have hsymbols : (mergeOnce pool).flatMap nodeSymbols = (a :: b :: rest).flatMap nodeSymbols := by
        simp [hmerge, joinNodes, nodeSymbols]
      rw [hsymbols]
      exact (hperm.symm.flatMap_right _).trans hpool
    · rw [leaves_eq, List.flatMap_map]
      simp [nodeSymbols]
  have hweighs : ∀ n ∈ mergeAll (leaves freq), Weighs freq n := by
    refine mergeTimes_keeps (P := fun pool => ∀ n ∈ pool, Weighs freq n) ?_ (by omega) ?_
    · intro pool hlen hpool
      obtain ⟨a, b, rest, hperm, hmerge, -⟩ := mergeOnce_cases hlen
      obtain ⟨ha, hb, hrest⟩ : Weighs freq a ∧ Weighs freq b ∧ ∀ n ∈ rest, Weighs freq n := by
        simpa using fun n hn => hpool n (hperm.mem_iff.2 hn)
      rw [hmerge]
      exact List.forall_mem_cons.2 ⟨⟨rfl, ha, hb⟩, hrest⟩
    · rw [leaves_eq]
      simp [Weighs]
  obtain ⟨root, hroot⟩ : ∃ root, mergeAll (leaves freq) = [root] := by
    refine List.length_eq_one_iff.1 ?_
    have hlen := length_mergeTimes (k := (leaves freq).length - 1) (pool := leaves freq) (by omega)
    rw [mergeAll]
    omega
  rw [hroot] at hkeeps hweighs
  exact ⟨root, hroot, by simpa using hkeeps, hweighs root List.mem_cons_self⟩

/-! ## Depths -/

/-- The leaves of a subtree whose root stands at the depth `d`, each a symbol and its depth (43_huffman.md R114). -/
def nodeDepths (d : Nat) : Node → List (Nat × Nat)
  | .leaf _ k => [(k, d)]
  | .internal _ _ a b => nodeDepths (d + 1) a ++ nodeDepths (d + 1) b

theorem map_fst_nodeDepths (d : Nat) (n : Node) : (nodeDepths d n).map Prod.fst = nodeSymbols n := by
  induction n generalizing d with
  | leaf w k => rfl
  | internal w k a b iha ihb => rw [nodeDepths, List.map_append, iha, ihb]; rfl

theorem mem_nodeSymbols_of_mem_nodeDepths {d : Nat} {n : Node} {p : Nat × Nat} (h : p ∈ nodeDepths d n) :
    p.1 ∈ nodeSymbols n :=
  map_fst_nodeDepths d n ▸ List.mem_map_of_mem h

/-- A leaf is at least as deep as its root, and less deep than there are leaves (43_huffman.md R116). -/
theorem nodeDepths_range {d : Nat} {n : Node} {p : Nat × Nat} (h : p ∈ nodeDepths d n) :
    d ≤ p.2 ∧ p.2 < d + (nodeSymbols n).length := by
  induction n generalizing d with
  | leaf w k =>
    obtain rfl := List.mem_singleton.1 h
    exact ⟨le_rfl, Nat.lt_succ_self d⟩
  | internal w k a b iha ihb =>
    have hla := length_nodeSymbols_pos a
    have hlb := length_nodeSymbols_pos b
    rw [nodeSymbols, List.length_append]
    rcases List.mem_append.1 h with h | h
    · have hrange := iha h
      omega
    · have hrange := ihb h
      omega

theorem depthOf_eq_none {s : Nat} {n : Node} (h : s ∉ nodeSymbols n) : depthOf s n = none := by
  induction n with
  | leaf w k => exact if_neg fun hk => h (List.mem_singleton.2 hk.symm)
  | internal w k a b iha ihb =>
    rw [nodeSymbols, List.mem_append, not_or] at h
    rw [depthOf, iha h.1, ihb h.2]
    rfl

/-- The depth of a leaf is found where the symbols are distinct (43_huffman.md R113, R114). -/
theorem depthOf_of_mem {d : Nat} {n : Node} {p : Nat × Nat} (hnodup : (nodeSymbols n).Nodup) (h : p ∈ nodeDepths d n) :
    ∃ j, depthOf p.1 n = some j ∧ p.2 = d + j := by
  induction n generalizing d with
  | leaf w k =>
    obtain rfl := List.mem_singleton.1 h
    exact ⟨0, if_pos rfl, rfl⟩
  | internal w k a b iha ihb =>
    obtain ⟨hna, hnb, hdisjoint⟩ := List.nodup_append'.1 hnodup
    rcases List.mem_append.1 h with h | h
    · obtain ⟨j, hj, hp⟩ := iha hna h
      exact ⟨j + 1, by rw [depthOf, hj], by omega⟩
    · obtain ⟨j, hj, hp⟩ := ihb hnb h
      have hleft : depthOf p.1 a = none :=
        depthOf_eq_none fun ha => hdisjoint ha (mem_nodeSymbols_of_mem_nodeDepths h)
      exact ⟨j + 1, by rw [depthOf, hleft, hj]; rfl, by omega⟩

/-- The depth that counts as the root's: 1 for a single leaf, whose code has one bit (43_huffman.md R115). -/
def rootDepth : Node → Nat
  | .leaf _ _ => 1
  | .internal _ _ _ _ => 0

/-- The code lengths of the symbols of a tree are the depths of its leaves (43_huffman.md R114, R115). -/
theorem nodeDepths_root {root : Node} (hnodup : (nodeSymbols root).Nodup) :
    nodeDepths (rootDepth root) root = (nodeSymbols root).map fun s => (s, lengthIn root s) := by
  have hlength : ∀ p ∈ nodeDepths (rootDepth root) root, (p.1, lengthIn root p.1) = p := by
    intro p hp
    obtain ⟨j, hj, hdepth⟩ := depthOf_of_mem hnodup hp
    refine Prod.ext rfl ?_
    cases root with
    | leaf w k =>
      obtain rfl := List.mem_singleton.1 hp
      simp only [lengthIn, hj]
      rfl
    | internal w k a b =>
      simp only [lengthIn, hj]
      rw [hdepth]
      exact (Nat.zero_add j).symm
  rw [← map_fst_nodeDepths (rootDepth root) root, List.map_map]
  exact (List.map_congr_left hlength).trans (List.map_id _) |>.symm

/-- A symbol of a tree of at most 256 leaves has a length of 1 to 255 (43_huffman.md R116). -/
theorem lengthIn_range {root : Node} {s : Nat} (hnodup : (nodeSymbols root).Nodup)
    (hcount : (nodeSymbols root).length ≤ 256) (hs : s ∈ nodeSymbols root) :
    1 ≤ lengthIn root s ∧ lengthIn root s ≤ 255 := by
  have hmem : (s, lengthIn root s) ∈ nodeDepths (rootDepth root) root :=
    nodeDepths_root hnodup ▸ List.mem_map_of_mem hs
  cases root with
  | leaf w k =>
    have hp := List.mem_singleton.1 hmem
    simp only [Prod.mk.injEq] at hp
    rw [hp.2, rootDepth]
    decide
  | internal w k a b =>
    have hrange := nodeDepths_range hmem
    have hdeep : 1 ≤ lengthIn (.internal w k a b) s := by
      rcases List.mem_append.1 hmem with h | h <;> exact (nodeDepths_range h).1
    exact ⟨hdeep, by simp only [rootDepth] at hrange; omega⟩

theorem lengthIn_of_absent {root : Node} {s : Nat} (hs : s ∉ nodeSymbols root) : lengthIn root s = 0 := by
  unfold lengthIn
  rw [depthOf_eq_none hs]
  cases root <;> rfl

/-! ## The lengths built for a byte sequence -/

@[simp] theorem length_freqTable (x : List Byte) : (freqTable x).length = 256 := by
  rw [freqTable, List.length_map, List.length_range]
  rfl

/-- FREQ counts the occurrences of a symbol (43_huffman.md R111). -/
theorem getD_freqTable (x : List Byte) {s : Nat} (hs : s < 256) :
    (freqTable x).getD s 0 = (x.map BitVec.toNat).count s := by
  rw [freqTable, List.getD_eq_getElem?_getD, List.getElem?_map, 
    List.getElem?_range (show s < Config.alphabet from hs), List.count_eq_countP, List.countP_map]
  rfl

theorem mem_presentSymbols {x : List Byte} {s : Nat} :
    s ∈ presentSymbols (freqTable x) ↔ s ∈ x.map BitVec.toNat := by
  rw [presentSymbols, List.mem_filter, List.mem_range, length_freqTable, decide_eq_true_iff]
  constructor
  · rintro ⟨hs, hfreq⟩
    rw [getD_freqTable x hs] at hfreq
    exact List.count_pos_iff.1 hfreq
  · intro hmem
    obtain ⟨b, -, rfl⟩ := List.mem_map.1 hmem
    exact ⟨b.isLt, by rw [getD_freqTable x b.isLt]; exact List.count_pos_iff.2 hmem⟩

theorem nodup_presentSymbols (freq : List Nat) : (presentSymbols freq).Nodup := List.nodup_range.filter _

theorem length_presentSymbols_le (x : List Byte) : (presentSymbols (freqTable x)).length ≤ 256 :=
  (List.length_filter_le _ _).trans_eq (by rw [List.length_range, length_freqTable])

/-- The tree the builder makes for the byte sequence `x`: its leaves are the symbols of `x`, and BuildLengths reads its
lengths from it (43_huffman.md R114). -/
structure TreeOf (x : List Byte) (root : Node) : Prop where
  merged : mergeAll (leaves (freqTable x)) = [root]
  symbols : (nodeSymbols root).Perm (presentSymbols (freqTable x))
  weighs : Weighs (freqTable x) root

theorem exists_treeOf {x : List Byte} (hx : x ≠ []) : ∃ root, TreeOf x root := by
  obtain ⟨b, hb⟩ := List.exists_mem_of_ne_nil x hx
  have hpresent : presentSymbols (freqTable x) ≠ [] :=
    List.ne_nil_of_mem (mem_presentSymbols.2 (List.mem_map_of_mem hb))
  obtain ⟨root, hmerged, hsymbols, hweighs⟩ := mergeAll_leaves hpresent
  exact ⟨root, hmerged, hsymbols, hweighs⟩

section
variable {x : List Byte} {root : Node} (h : TreeOf x root)
include h

theorem TreeOf.nodup : (nodeSymbols root).Nodup := h.symbols.nodup_iff.2 (nodup_presentSymbols _)

theorem TreeOf.length_le : (nodeSymbols root).length ≤ 256 := h.symbols.length_eq.trans_le (length_presentSymbols_le x)

theorem TreeOf.mem_iff {s : Nat} : s ∈ nodeSymbols root ↔ s ∈ x.map BitVec.toNat :=
  h.symbols.mem_iff.trans mem_presentSymbols

theorem TreeOf.buildLengths_eq : buildLengths (freqTable x) = (List.range 256).map (lengthIn root) := by
  rw [buildLengths, h.merged]
  rfl

end

/-- The empty input has no code (43_huffman.md R115). -/
theorem buildLengths_nil : buildLengths (freqTable []) = List.replicate 256 0 := by
  have hpresent : presentSymbols (freqTable []) = [] :=
    List.eq_nil_iff_forall_not_mem.2 fun s hs => by simpa using mem_presentSymbols.1 hs
  rw [buildLengths, leaves_eq, hpresent]
  rfl

@[simp] theorem length_buildLengths (x : List Byte) : (buildLengths (freqTable x)).length = 256 := by
  by_cases hx : x = []
  · rw [hx, buildLengths_nil, List.length_replicate]
  · obtain ⟨root, h⟩ := exists_treeOf hx
    rw [h.buildLengths_eq, List.length_map, List.length_range]

theorem TreeOf.getD_buildLengths {x : List Byte} {root : Node} (h : TreeOf x root) {s : Nat} (hs : s < 256) :
    (buildLengths (freqTable x)).getD s 0 = lengthIn root s := by
  rw [h.buildLengths_eq]
  simp [List.getD_eq_getElem?_getD, hs]

/-- An absent symbol has no code (43_huffman.md R112). -/
theorem getD_buildLengths_of_absent {x : List Byte} {s : Nat} (hs : s < 256) (habsent : s ∉ x.map BitVec.toNat) :
    (buildLengths (freqTable x)).getD s 0 = 0 := by
  by_cases hx : x = []
  · rw [hx, buildLengths_nil, List.getD_replicate _ hs]
  · obtain ⟨root, h⟩ := exists_treeOf hx
    rw [h.getD_buildLengths hs, lengthIn_of_absent (h.mem_iff.not.2 habsent)]

/-- A present symbol has a code of 1 to 255 bits (43_huffman.md R116). -/
theorem getD_buildLengths_of_present {x : List Byte} {b : Byte} (hb : b ∈ x) :
    1 ≤ (buildLengths (freqTable x)).getD b.toNat 0 ∧ (buildLengths (freqTable x)).getD b.toNat 0 ≤ 255 := by
  obtain ⟨root, h⟩ := exists_treeOf (List.ne_nil_of_mem hb)
  rw [h.getD_buildLengths b.isLt]
  exact lengthIn_range h.nodup h.length_le (h.mem_iff.2 (List.mem_map_of_mem hb))

/-- Settles O37, by whether the symbol is present. -/
theorem codeLengthsOfPresentSymbols : Obligations.CodeLengthsOfPresentSymbols := by
  intro x s hs
  refine ⟨length_buildLengths x, fun habsent => getD_buildLengths_of_absent hs ?_, ?_⟩
  · intro hmem
    obtain ⟨b, hb, rfl⟩ := List.mem_map.1 hmem
    exact habsent b hb rfl
  · rintro ⟨b, hb, rfl⟩
    exact getD_buildLengths_of_present hb

end Sys2Proof.Machine
end

section
/-! PROOFS. The Kraft sum of the lengths the builder makes (43_huffman.md R117). -/

namespace Sys2Proof.Machine

/-- The leaves of a tree fill the codes below its root (43_huffman.md R117). -/
theorem sum_pow_nodeDepths {d : Nat} {n : Node} (h : d + (nodeSymbols n).length ≤ 256) :
    ((nodeDepths d n).map fun p => 2 ^ (255 - p.2)).sum = 2 ^ (255 - d) := by
  induction n generalizing d with
  | leaf w k => simp [nodeDepths]
  | internal w k a b iha ihb =>
    have hla := length_nodeSymbols_pos a
    have hlb := length_nodeSymbols_pos b
    rw [nodeSymbols, List.length_append] at h
    rw [nodeDepths, List.map_append, List.sum_append, iha (by omega), ihb (by omega), ← Nat.two_mul, ← pow_succ']
    congr 1
    omega

theorem rootDepth_eq (root : Node) : rootDepth root = if (nodeSymbols root).length = 1 then 1 else 0 := by
  cases root with
  | leaf w k => rfl
  | internal w k a b =>
    have hla := length_nodeSymbols_pos a
    have hlb := length_nodeSymbols_pos b
    rw [nodeSymbols, List.length_append, if_neg (by omega)]
    rfl

section
variable {x : List Byte} {root : Node} (h : TreeOf x root)
include h

/-- The symbols with a code are those of the tree (43_huffman.md R112). -/
theorem TreeOf.coded_perm : ((List.range 256).filter fun s => 0 < lengthIn root s).Perm (nodeSymbols root) := by
  refine (List.perm_ext_iff_of_nodup (List.nodup_range.filter _) h.nodup).2 fun s => ?_
  rw [List.mem_filter, List.mem_range, decide_eq_true_iff]
  constructor
  · rintro ⟨-, hpos⟩
    by_contra habsent
    rw [lengthIn_of_absent habsent] at hpos
    exact hpos.false
  · intro hs
    obtain ⟨b, -, rfl⟩ := List.mem_map.1 (h.mem_iff.1 hs)
    exact ⟨b.isLt, (lengthIn_range h.nodup h.length_le hs).1⟩

/-- The Kraft sum is that of the depths of the tree's leaves (43_huffman.md R117). -/
theorem TreeOf.kraftSum_eq : kraftSum (buildLengths (freqTable x)) = 2 ^ (255 - rootDepth root) := by
  have hfull : rootDepth root + (nodeSymbols root).length ≤ 256 := by
    have hle := h.length_le
    rw [rootDepth_eq]
    split <;> omega
  rw [h.buildLengths_eq, kraftSum, List.filter_map, List.map_map, ← sum_pow_nodeDepths hfull, nodeDepths_root h.nodup,
    List.map_map]
  exact (h.coded_perm.map _).sum_eq

end

theorem presentCount_eq (freq : List Nat) : presentCount freq = (presentSymbols freq).length := by
  have hleaves : (leaves freq).length = (presentSymbols freq).length := by rw [leaves_eq, List.length_map]
  rw [← hleaves, leaves, List.length_map, ← List.countP_eq_length_filter]
  conv_lhs => rw [presentCount, ← List.zipIdx_map_fst 0 freq, List.countP_map]
  rfl

/-- Settles O38, by whether the input is empty and then by the number of leaves of its tree. -/
theorem builtLengthsMeetKraft : Obligations.BuiltLengthsMeetKraft := by
  intro x
  by_cases hx : x = []
  · have hcount : presentCount (freqTable x) = 0 := by
      rw [presentCount_eq, List.length_eq_zero_iff, List.eq_nil_iff_forall_not_mem]
      exact fun s hs => by simpa [hx] using mem_presentSymbols.1 hs
    have hsum : kraftSum (buildLengths (freqTable x)) = 0 := by
      rw [hx, buildLengths_nil, kraftSum, List.filter_replicate_of_neg (by decide)]
      rfl
    exact ⟨fun h => by omega, fun h => by omega, fun _ => hsum⟩
  · obtain ⟨root, h⟩ := exists_treeOf hx
    have hpos := length_nodeSymbols_pos root
    rw [presentCount_eq, ← h.symbols.length_eq, h.kraftSum_eq, rootDepth_eq]
    exact ⟨fun hmany => by rw [if_neg (by omega)], fun hone => by rw [if_pos hone], fun hnone => by omega⟩

/-- The lengths built for any byte sequence satisfy Kraft (43_huffman.md R117). -/
theorem kraft_buildLengths (x : List Byte) : kraft (buildLengths (freqTable x)) = true := by
  rw [kraft_iff]
  obtain ⟨hmany, hone, hnone⟩ := builtLengthsMeetKraft x
  rcases Nat.lt_trichotomy (presentCount (freqTable x)) 1 with h | h | h
  · rw [hnone (Nat.lt_one_iff.1 h)]
    exact Nat.zero_le _
  · rw [hone h]
    exact Nat.pow_le_pow_right Nat.two_pos (by decide)
  · exact (hmany h).le

end Sys2Proof.Machine
end

section
/-! PROOFS. The Huffman encoder: its container, decoding it, and the command (43_huffman.md R120, R121, R127, R128). -/

namespace Sys2Proof.Machine

theorem le_255_of_mem_buildLengths {x : List Byte} {l : Nat} (hl : l ∈ buildLengths (freqTable x)) : l ≤ 255 := by
  obtain ⟨s, hs, rfl⟩ := List.mem_iff_getElem.1 hl
  have hs256 : s < 256 := by rwa [length_buildLengths] at hs
  rw [← List.getD_eq_getElem _ 0 hs]
  by_cases hmem : s ∈ x.map BitVec.toNat
  · obtain ⟨b, hb, rfl⟩ := List.mem_map.1 hmem
    exact (getD_buildLengths_of_present hb).2
  · rw [getD_buildLengths_of_absent hs256 hmem]
    exact Nat.zero_le _

/-- Every length built fits its header byte (43_huffman.md R116, R120). -/
theorem lensOfBytes_lensFor (x : List Byte) : lensOfBytes (lensFor x) = buildLengths (freqTable x) := by
  rw [lensOfBytes, lensFor, List.map_map]
  refine (List.map_congr_left fun l hl => ?_).trans (List.map_id _)
  have hle := le_255_of_mem_buildLengths hl
  rw [Function.comp_apply, BitVec.toNat_ofNat]
  exact Nat.mod_eq_of_lt (by omega)

theorem length_lensFor (x : List Byte) : (lensFor x).length = 256 := by
  rw [lensFor, List.length_map, length_buildLengths]

/-- Every byte of the input has a code (43_huffman.md R116). -/
theorem code_of_mem {x : List Byte} : ∀ b ∈ x, 0 < (lensOfBytes (lensFor x)).getD b.toNat 0 := by
  intro b hb
  rw [lensOfBytes_lensFor]
  exact (getD_buildLengths_of_present hb).1

/-- HufEncode writes the header and the codes of its input, or they do not fit the destination (43_huffman.md R121). -/
theorem hufEncode_eq_hufBits (dest : Dest) (cap : Nat) (ident : Byte) {x : List Byte} {n : Word}
    (hn : n.toNat = x.length) :
    hufEncode dest cap ident x =
      if ((hufBits ident n (lensFor x) x).length + 7) / 8 ≤ cap then .ok (packBits (hufBits ident n (lensFor x) x))
      else .error .capacityExceeded := by
  obtain ⟨bits, lens, rfl, hbits, heq⟩ := hufEncode_eq dest cap ident x
  have hcontainer : bits = hufBits ident n (lensFor x) x := by
    rw [hbits, ← hn, hufBits, lensOfBytes_lensFor]
    rfl
  rw [heq, hcontainer]

/-- Settles O42: the container's table satisfies Kraft and has a code for every byte. -/
theorem huffmanRoundTrip : Obligations.HuffmanRoundTrip := by
  intro dest cap cap' ident x bs hident hx hencode hcap
  obtain ⟨n, hn⟩ := exists_word_of_lt hx
  rw [hufEncode_eq_hufBits dest cap ident hn] at hencode
  split at hencode <;> cases hencode
  exact hufDecode_of_complete hident (length_lensFor x) (by rw [lensOfBytes_lensFor]; exact kraft_buildLengths x)
    code_of_mem (hn.trans_le hcap) hn.symm

/-- The size of a Huffman container (30_encoding.md R59, R71). -/
theorem length_hufBits (ident : Byte) (n : Word) {lens : List Byte} (hlens : lens.length = 256) (x : List Byte) :
    ((hufBits ident n lens x).length + 7) / 8 = 261 + ((codeBits (lensOfBytes lens) x).length + 7) / 8 := by
  have hheader : (ident :: (u32be n.toNat ++ lens)).length = 261 := by simp [u32be, hlens]
  rw [hufBits, List.length_append, length_flatMap_byteBits, hheader]
  omega

/-- Settles O40, by whether the container fits OUT. -/
theorem huffmanCompressWritesTheContainer : Obligations.HuffmanCompressWritesTheContainer := by
  intro s hfit
  have hvalue := hufEncode_eq_hufBits .out s.cfg.outMemBytes Config.identHuffman (inputBytes_length s).symm
  rw [length_hufBits _ _ (length_lensFor _)] at hvalue
  have hexec : exec .huffmanCompress s =
      .next (complete (hufEncode .out s.cfg.outMemBytes Config.identHuffman (inputBytes s)) s) := by
    rw [exec_command _ s (by decide), commandValue, withInput_of_fits _ _ _ rfl hfit]
  refine ⟨_, hexec, complete_keepsOperands _ s, fun hfits => ?_, fun hlong => ?_⟩
  · rw [hvalue, if_pos hfits, huffmanBits_eq]
    exact completeDone_outputIs _ s
  · rw [hvalue, if_neg (Nat.not_le.2 hlong)]
    exact raiseError_failsWith _ s

end Sys2Proof.Machine
end

section
/-! PROOFS. A Huffman body is never longer than its input (43_huffman.md R121, 93_implementation_defined.md G4). A body
has one bit for each occurrence of a symbol at each merge above its leaf, so its length is the sum of the weights that
the merges make. Since each merge joins the two lightest nodes, going from at most 2^(d + 1) live nodes to at most 2^d
costs no more than their total weight; so 256 leaves cost at most eight times the input's length. -/

namespace Sys2Proof.Machine

/-! ## The cost of merges -/

/-- The weights that the merges of a subtree make (43_huffman.md R114). -/
def nodeCost : Node → Nat
  | .leaf _ _ => 0
  | .internal w _ a b => w + nodeCost a + nodeCost b

/-- The weights that the merges of the live nodes have made. -/
def poolCost (pool : List Node) : Nat := (pool.map nodeCost).sum

/-- The weights of the live nodes. -/
def poolWeights (pool : List Node) : Multiset Nat := ↑(pool.map Node.weight)

/-- A symbol counts once for each merge above its leaf. -/
theorem sum_mul_nodeDepths {freq : List Nat} {n : Node} (d : Nat) (h : Weighs freq n) :
    ((nodeDepths d n).map fun p => freq.getD p.1 0 * p.2).sum = d * n.weight + nodeCost n := by
  induction n generalizing d with
  | leaf w k =>
    have hw : w = freq.getD k 0 := h
    simp [nodeDepths, nodeCost, Node.weight, hw, Nat.mul_comm]
  | internal w k a b iha ihb =>
    obtain ⟨hw, ha, hb⟩ := h
    rw [nodeDepths, List.map_append, List.sum_append, iha _ ha, ihb _ hb, nodeCost, Node.weight, hw]
    ring

/-- A merge joins the two smallest weights and costs their sum (43_huffman.md R113, R114). -/
theorem poolWeights_mergeOnce {pool : List Node} (h : 2 ≤ pool.length) :
    ∃ a b rest, poolWeights pool = a ::ₘ b ::ₘ rest ∧ poolWeights (mergeOnce pool) = (a + b) ::ₘ rest ∧
      poolCost (mergeOnce pool) = poolCost pool + (a + b) ∧ (∀ c ∈ b ::ₘ rest, a ≤ c) ∧ ∀ c ∈ rest, b ≤ c := by
  obtain ⟨a, b, rest, hperm, hmerge, ha, hb⟩ := mergeOnce_cases h
  refine ⟨a.weight, b.weight, poolWeights rest, Multiset.coe_eq_coe.2 (hperm.map _), by rw [hmerge]; rfl, ?_, ?_, ?_⟩
  · rw [poolCost, poolCost, (hperm.map nodeCost).sum_eq, hmerge]
    simp only [List.map_cons, List.sum_cons, joinNodes, nodeCost]
    omega
  · simpa [poolWeights] using ha
  · simpa [poolWeights] using hb

theorem sum_poolWeights_mergeTimes {k : Nat} {pool : List Node} (h : k < pool.length) :
    (poolWeights (mergeTimes k pool)).sum = (poolWeights pool).sum := by
  refine mergeTimes_keeps (P := fun pool' => (poolWeights pool').sum = (poolWeights pool).sum) ?_ h rfl
  intro pool' hlen hsum
  obtain ⟨a, b, rest, hweights, hmerge, -⟩ := poolWeights_mergeOnce hlen
  rw [← hsum, hweights, hmerge]
  simp [Nat.add_assoc]

/-- Any nonempty part of a set of weights with the smallest weight `a` gives up a weight, `a` itself if it has it. -/
theorem exists_cons_of_le_cons {a : Nat} {part rest : Multiset Nat} (hle : part ≤ a ::ₘ rest) (hmin : ∀ c ∈ rest, a ≤ c)
    (hne : part ≠ 0) : ∃ c part', part = c ::ₘ part' ∧ part' ≤ rest ∧ a ≤ c := by
  by_cases ha : a ∈ part
  · exact ⟨a, part.erase a, (Multiset.cons_erase ha).symm, Multiset.erase_le_iff_le_cons.2 hle, le_rfl⟩
  · have hrest : part ≤ rest := (Multiset.le_cons_of_notMem ha).1 hle
    obtain ⟨c, hc⟩ := Multiset.exists_mem_of_ne_zero hne
    exact ⟨c, part.erase c, (Multiset.cons_erase hc).symm, (Multiset.erase_le c part).trans hrest,
      hmin c (Multiset.mem_of_le hrest hc)⟩

/-- `j` merges cost no more than any `2 * j` of the live nodes weigh, since each joins the two lightest (43_huffman.md
R113). -/
theorem poolCost_mergeTimes_le {j : Nat} {pool : List Node} {part : Multiset Nat} (hle : part ≤ poolWeights pool)
    (hcard : 2 * j ≤ part.card) : poolCost (mergeTimes j pool) ≤ poolCost pool + part.sum := by
  induction j generalizing pool part with
  | zero => exact Nat.le_add_right _ _
  | succ j ih =>
    have hlen : part.card ≤ pool.length := by simpa [poolWeights] using Multiset.card_le_card hle
    obtain ⟨a, b, rest, hweights, hmerge, hcost, ha, hb⟩ := poolWeights_mergeOnce (pool := pool) (by omega)
    rw [hweights] at hle
    obtain ⟨c, part', rfl, hle', hac⟩ := exists_cons_of_le_cons hle ha (by rintro rfl; simp at hcard)
    rw [Multiset.card_cons] at hcard
    obtain ⟨e, part'', rfl, hle'', hbe⟩ := exists_cons_of_le_cons hle' hb (by rintro rfl; simp at hcard; omega)
    rw [Multiset.card_cons] at hcard
    have hrest := ih (pool := mergeOnce pool) (hmerge ▸ hle''.trans (Multiset.le_cons_self _ _)) (by omega)
    rw [mergeTimes, Multiset.sum_cons, Multiset.sum_cons]
    omega

/-- Merging at most 2^d live nodes into one costs at most d times their weight. -/
theorem poolCost_mergeAll_le (d : Nat) {pool : List Node} (hpos : 0 < pool.length) (hlen : pool.length ≤ 2 ^ d) :
    poolCost (mergeAll pool) ≤ poolCost pool + d * (poolWeights pool).sum := by
  induction d generalizing pool with
  | zero =>
    have hone : pool.length - 1 = 0 := by omega
    rw [mergeAll, hone]
    exact Nat.le_add_right _ _
  | succ d ih =>
    have hlt : pool.length - 2 ^ d < pool.length := Nat.sub_lt hpos (Nat.two_pow_pos d)
    have hhalf := length_mergeTimes hlt
    rw [pow_succ] at hlen
    have hcard : (poolWeights pool).card = pool.length := by simp [poolWeights]
    have hcost := poolCost_mergeTimes_le (j := pool.length - 2 ^ d) (le_refl (poolWeights pool)) (by omega)
    have hrest := ih (pool := mergeTimes (pool.length - 2 ^ d) pool) (by omega) (by omega)
    rw [mergeAll_mergeTimes hlt, sum_poolWeights_mergeTimes hlt] at hrest
    rw [Nat.succ_mul]
    omega

/-! ## The body of a tree -/

section
variable {x : List Byte} {root : Node} (h : TreeOf x root)
include h

/-- A sum over the bytes of the input, by symbol. -/
theorem TreeOf.sum_map_toNat (g : Nat → Nat) :
    (x.map fun b => g b.toNat).sum = ((nodeSymbols root).map fun s => (freqTable x).getD s 0 * g s).sum := by
  have hsymbols : (x.map BitVec.toNat).toFinset = (nodeSymbols root).toFinset :=
    Finset.ext fun s => by rw [List.mem_toFinset, List.mem_toFinset, h.mem_iff]
  have hfreq : ∀ s ∈ nodeSymbols root, (freqTable x).getD s 0 * g s = (x.map BitVec.toNat).count s * g s := by
    intro s hs
    obtain ⟨b, -, rfl⟩ := List.mem_map.1 (h.mem_iff.1 hs)
    rw [getD_freqTable x b.isLt]
  have hcount := Finset.sum_list_map_count (x.map BitVec.toNat) g
  rw [hsymbols, List.sum_toFinset _ h.nodup, List.map_map] at hcount
  rw [List.map_congr_left hfreq]
  exact hcount

/-- The tree weighs as much as the input has bytes (43_huffman.md R114). -/
theorem TreeOf.weight_eq : root.weight = x.length := by
  have hsum := h.sum_map_toNat fun _ => 1
  rw [weight_eq_sum h.weighs]
  simpa using hsum.symm

/-- A body has a bit for each merge above each byte's leaf (43_huffman.md R121). -/
theorem TreeOf.length_codeBits : (codeBits (buildLengths (freqTable x)) x).length =
    rootDepth root * root.weight + nodeCost root := by
  have hlens : ∀ b ∈ x, (buildLengths (freqTable x)).getD b.toNat 0 = lengthIn root b.toNat :=
    fun b _ => h.getD_buildLengths b.isLt
  rw [← sum_mul_nodeDepths (rootDepth root) h.weighs, nodeDepths_root h.nodup, List.map_map, codeBits,
    List.length_flatMap]
  simp only [length_valueBits]
  rw [List.map_congr_left hlens, h.sum_map_toNat]
  rfl

theorem TreeOf.nodeCost_le : nodeCost root ≤ 8 * x.length := by
  have hcount := h.symbols.length_eq
  have hleaves : (leaves (freqTable x)).length = (nodeSymbols root).length := by rw [leaves_eq, List.length_map, hcount]
  have hpos := length_nodeSymbols_pos root
  have hle := h.length_le
  have hcost := poolCost_mergeAll_le 8 (pool := leaves (freqTable x)) (by omega) (by omega)
  have hsum := sum_poolWeights_mergeTimes (k := (leaves (freqTable x)).length - 1) (pool := leaves (freqTable x))
    (by omega)
  have hzero : poolCost (leaves (freqTable x)) = 0 := by
    rw [leaves_eq, poolCost, List.map_map]
    simp [nodeCost, Function.comp_def]
  rw [← mergeAll, h.merged] at hsum
  rw [h.merged, hzero, ← hsum] at hcost
  simpa [poolCost, poolWeights, h.weight_eq] using hcost

end

/-- Settles O45, by whether the tree is a single leaf. -/
theorem huffmanBodyIsNeverLongerThanItsInput : Obligations.HuffmanBodyIsNeverLongerThanItsInput := by
  intro x
  rw [lensOfBytes_lensFor]
  by_cases hx : x = []
  · subst hx
    exact Nat.le_refl 0
  · obtain ⟨root, h⟩ := exists_treeOf hx
    have hcost := h.nodeCost_le
    rw [h.length_codeBits, h.weight_eq]
    cases root with
    | leaf w k =>
      rw [rootDepth, nodeCost]
      omega
    | internal w k a b =>
      rw [rootDepth]
      omega

end Sys2Proof.Machine
end

section
/-! PROOFS. The HS pipeline: the decoder's outcome by stage, and the encoder's nested container (44_hybrid.md R131 to
R137). -/

namespace Sys2Proof.Machine

/-! ## The decoder by stage -/

section
variable {c : Params} {src inner : List Byte}

/-- An error of the outer stage is the decoder's, whatever the inner container is (44_hybrid.md R134). -/
theorem hsDecode_of_outer_error {k : ErrKind} (h : hufDecode Config.identHs c.innerMemBytes src = .error k) :
    hsDecode c src = .error k := by
  rw [hsDecode, h]

/-- Past the outer stage the decoder's outcome is that of the inner one (44_hybrid.md R133). -/
theorem hsDecode_of_outer (h : hufDecode Config.identHs c.innerMemBytes src = .ok inner) :
    hsDecode c src = lzssDecode c.outMemBytes inner := by
  rw [hsDecode, h]

end

/-- HSDecompress of an input that the host has written decodes it (44_hybrid.md R137). -/
theorem commandValue_hsDecompress {s : State} {src : List Byte} (hfit : s.inLen.toNat ≤ s.cfg.inMemBytes)
    (hsrc : s.hasInput src) : commandValue .hsDecompress s = hsDecode s.cfg src := by
  rw [commandValue, withInput_of_fits _ _ _ rfl hfit, inputBytes_of_hasInput s src hsrc]

/-- Settles O49, by the stage that fails. -/
theorem hsDecompressReportsTheFailingStage : Obligations.HsDecompressReportsTheFailingStage := by
  intro s src k hsrc hfit hstage
  refine exec_fails (by decide) ((commandValue_hsDecompress hfit hsrc).trans ?_)
  rcases hstage with houter | ⟨inner, houter, hinner⟩
  · exact hsDecode_of_outer_error houter
  · exact (hsDecode_of_outer houter).trans hinner

/-! ## Containers -/

theorem hsBits_eq (m : Word) (lens x : List Byte) : hsBits m lens x = hufBits Config.identHs m lens x := by
  rw [hsBits, encode_container]
  rfl

/-- Every byte of `x` has a code, said of the header's bytes (30_encoding.md R59). -/
theorem code_pos_of_byteAt_ne_zero {lens x : List Byte} (h : ∀ b ∈ x, byteAt lens b.toNat ≠ 0) :
    ∀ b ∈ x, 0 < (lensOfBytes lens).getD b.toNat 0 := by
  intro b hb
  rw [getD_lensOfBytes]
  exact Nat.pos_of_ne_zero fun hzero => h b hb (BitVec.eq_of_toNat_eq hzero)

/-- An HS container whose outer body is the codes of its inner container decodes as the inner one does (44_hybrid.md
R133). -/
theorem hsDecode_hsBits {c : Params} {m : Word} {lens inner : List Byte} (hlens : lens.length = 256)
    (hk : kraft (lensOfBytes lens) = true) (hcodes : ∀ b ∈ inner, 0 < (lensOfBytes lens).getD b.toNat 0)
    (hcap : m.toNat ≤ c.innerMemBytes) (hm : inner.length = m.toNat) :
    hsDecode c (packBits (hsBits m lens inner)) = lzssDecode c.outMemBytes inner := by
  rw [hsBits_eq]
  exact hsDecode_of_outer (hufDecode_of_complete (.inr rfl) hlens hk hcodes hcap hm)

/-- Settles O60, by the stage whose body is malformed. -/
theorem hsDecompressRejectsMalformedBodies : Obligations.HsDecompressRejectsMalformedBodies := by
  intro s m lens x hlens hk hx hfit hcap
  have hcodes := code_pos_of_byteAt_ne_zero hx
  constructor
  · intro rest k hle hcode hsrc hwhole hdefect
    refine exec_fails (by decide) ((commandValue_hsDecompress hfit hsrc).trans (hsDecode_of_outer_error ?_))
    rw [hsBits_eq] at hwhole ⊢
    exact hufDecode_of_codeDefect (.inr rfl) hlens hk hcodes hcap
      (hcode.imp (congrArg BitVec.toNat) exists_lens_ne_zero) hle hwhole hdefect
  · intro n d l ts out rest k hm hsrc hinner hwhole hd hl hout htokens hdefect
    refine exec_fails (by decide) ((commandValue_hsDecompress hfit hsrc).trans ?_)
    rw [hsDecode_hsBits hlens hk hcodes hcap hm, hinner]
    exact lzssDecode_of_tokenDefect hd hl hout htokens hwhole hdefect

/-! ## The encoder -/

/-- A Huffman container is at most its header longer than its input (43_huffman.md R121, 93_implementation_defined.md
G4). -/
theorem hufBits_lensFor_le (ident : Byte) (n : Word) (x : List Byte) :
    ((hufBits ident n (lensFor x) x).length + 7) / 8 ≤ 261 + x.length := by
  have hbody := huffmanBodyIsNeverLongerThanItsInput x
  rw [length_hufBits _ _ (length_lensFor x)]
  omega

section
variable {c : Params} (hc : c.Valid) {input inner : List Byte} {n d l : Word} (hin : input.length ≤ c.inMemBytes)
  (hd : d.toNat ≤ c.maxDictSize) (hl : l.toNat ≤ c.maxLookaheadSize)
  (hinner : inner = packBits (lzssBits n d l (tokens input d.toNat l.toNat)))
include hc hin hd hl hinner

/-- The inner container fits INNER and a word, and with an outer header it fits OUT (00_scope.md R9, R10). -/
theorem length_inner_le :
    inner.length ≤ c.innerMemBytes ∧ inner.length < 2 ^ 32 ∧ 261 + inner.length ≤ c.outMemBytes := by
  have hmax : inner.length ≤ c.lzssMax := by
    rw [hinner, length_packBits]
    exact lzssBits_le_lzssMax c n hin hd hl
  obtain ⟨-, -, -, -, -, -, -, hfits, hword, hout⟩ := hc
  omega

/-- Encoding an input that fits IN under a legal configuration gives the nested container (44_hybrid.md R131, R132). -/
theorem hsEncode_succeeds (hn : n.toNat = input.length) :
    hsEncode c input d.toNat l.toNat =
      .ok (packBits (hsBits (BitVec.ofNat 32 inner.length) (lensFor inner) inner)) := by
  obtain ⟨-, hword, hout⟩ := length_inner_le hc hin hd hl hinner
  have hm : (BitVec.ofNat 32 inner.length).toNat = inner.length := Nat.mod_eq_of_lt hword
  have hlzss : lzssEncode .inner c.innerMemBytes input d.toNat l.toNat = .ok inner :=
    hinner ▸ lzssEncode_succeeds hc .inner hn hin hd hl
  rw [hsEncode, hlzss, hsBits_eq]
  exact (hufEncode_eq_hufBits .out c.outMemBytes Config.identHs hm).trans
    (if_pos ((hufBits_lensFor_le _ _ inner).trans hout))

/-- The nested container's outer body decodes to its inner container (44_hybrid.md R133, R135). -/
theorem hsDecode_nested :
    hsDecode c (packBits (hsBits (BitVec.ofNat 32 inner.length) (lensFor inner) inner)) =
      lzssDecode c.outMemBytes inner := by
  obtain ⟨hfits, hword, -⟩ := length_inner_le hc hin hd hl hinner
  have hm : (BitVec.ofNat 32 inner.length).toNat = inner.length := Nat.mod_eq_of_lt hword
  exact hsDecode_hsBits (length_lensFor inner) (by rw [lensOfBytes_lensFor]; exact kraft_buildLengths inner) code_of_mem
    (hm.trans_le hfits) hm.symm

end

/-- Settles O46: the nested container fits OUT. -/
theorem hsCompressWritesTheNestedContainer : Obligations.HsCompressWritesTheNestedContainer := by
  intro s hvalid hfit hlegal inner hinner
  obtain ⟨-, hd, -, hl⟩ := id hlegal
  have hn : s.inLen.toNat = (inputBytes s).length := (inputBytes_length s).symm
  refine exec_completes (by decide) ?_
  rw [commandValue, withConfiguredInput_of_legal _ rfl hfit hlegal]
  exact hsEncode_succeeds hvalid (hn.symm.trans_le hfit) hd hl hinner hn

/-- Settles O48: the outer stage gives the inner container back, and the inner stage the input. -/
theorem hsRoundTrip : Obligations.HsRoundTrip := by
  intro c input d l hc hin hd1 hd hl1 hl
  obtain ⟨-, -, hin32, -, hd32, -, hl32, -, -, -⟩ := id hc
  obtain ⟨n, hn⟩ := exists_word_of_lt (hin.trans_lt hin32)
  obtain ⟨d, rfl⟩ := exists_word_of_lt (hd.trans_lt hd32)
  obtain ⟨l, rfl⟩ := exists_word_of_lt (hl.trans_lt hl32)
  obtain ⟨inner, hencode, hdecode⟩ := lzssDecode_lzssEncode hc .inner hin hd1 hd hl1 hl
  have hinner : inner = packBits (lzssBits n d l (tokens input d.toNat l.toNat)) :=
    Except.ok.inj (hencode.symm.trans (lzssEncode_succeeds hc .inner hn hin hd hl))
  exact ⟨_, hsEncode_succeeds hc hin hd hl hinner hn, (hsDecode_nested hc hin hd hl hinner).trans hdecode⟩

/-- Settles O47: a container that encodes an input by O48, any other by its two stages. -/
theorem hsDecompressGivesTheInputBack : Obligations.HsDecompressGivesTheInputBack := by
  constructor
  · intro s input bs d l hc hin hd1 hd hl1 hl hencode hsrc hfit
    obtain ⟨bs', hencode', hdecode⟩ := hsRoundTrip s.cfg input d l hc hin hd1 hd hl1 hl
    obtain rfl : bs = bs' := Except.ok.inj (hencode.symm.trans hencode')
    exact exec_completes (by decide) ((commandValue_hsDecompress hfit hsrc).trans hdecode)
  · intro s m n d l lens inner out ts hlens hk hx hinner hm hcap hd hl hout htokens hdone hsrc hfit
    refine exec_completes (by decide) ((commandValue_hsDecompress hfit hsrc).trans ?_)
    rw [hsDecode_hsBits hlens hk (code_pos_of_byteAt_ne_zero hx) hcap hm, hinner]
    exact lzssDecode_of_complete hd hl hout htokens hdone

end Sys2Proof.Machine
end

section
/-! PROOFS. Errors and outcomes: the start checks, what stops a step, how long an outcome lasts, and that compression never
fails (60_exceptions.md R139 to R144). -/

namespace Sys2Proof.Machine

/-! ## The start checks -/

theorem withConfiguredInput_of_too_long (op : BitVec 4) (s : State)
    (stages : List Byte → Nat → Nat → Except ErrKind (List Byte)) (hop : reservedOp op = false)
    (hlong : s.cfg.inMemBytes < s.inLen.toNat) : withConfiguredInput op s stages = .error .capacityExceeded :=
  withInput_of_too_long op s _ hop hlong

/-- Settles O50: each of the six commands reads its input, and its sizes, through the start checks. -/
theorem startChecksComeFirst : Obligations.StartChecksComeFirst := by
  refine ⟨fun s op _ => exec_fails (by simp [commandOp]) rfl, fun s i hlong hi => ?_⟩
  rcases hi with rfl | rfl | rfl | rfl | rfl | rfl
  · exact exec_fails (by decide) (withConfiguredInput_of_too_long 1 s _ rfl hlong)
  · exact exec_fails (by decide) (withInput_of_too_long 2 s _ rfl hlong)
  · exact exec_fails (by decide) (withInput_of_too_long 3 s _ rfl hlong)
  · exact exec_fails (by decide) (withInput_of_too_long 4 s _ rfl hlong)
  · exact exec_fails (by decide) (withConfiguredInput_of_too_long 5 s _ rfl hlong)
  · exact exec_fails (by decide) (withInput_of_too_long 6 s _ rfl hlong)

/-! ## What stops a step -/

/-- Every instruction answers a next state, in every state (60_exceptions.md R140). -/
theorem exec_answers (i : Instr) (s : State) : ∃ t, exec i s = .next t := by
  by_cases hi : commandOp i = none
  case neg => exact ⟨_, exec_command i s hi⟩
  case pos =>
    have htoken : ∀ tok, ∃ t, exec (instrOfToken tok) s = .next t := fun tok => by
      rcases exec_instrOfToken tok s with ⟨k, -, he⟩ | ⟨w, -, he⟩ <;> exact ⟨_, he⟩
    cases i with
    | lzssCompress | lzssDecompress | huffmanCompress | huffmanDecompress | hsCompress | hsDecompress
    | reservedCommand => cases hi
    | lit b => exact htoken (.literal b)
    | matchTok d len => exact htoken (.copy d len)
    | lzssContainer n d l =>
      simp only [exec, execLzssContainer]
      split <;> exact ⟨_, rfl⟩
    | huffmanContainer n lens | hsContainer n lens => exact ⟨_, rfl⟩

theorem engineTurn_answers (s : State) : ∃ t, engineTurn s = .next t := by
  rcases engineTurn_cases s with ⟨-, he⟩ | ⟨ident, -, ⟨i, rd, -, he⟩ | ⟨e, he⟩⟩ |
    ⟨-, ⟨-, i, rd, -, he⟩ | ⟨-, he⟩ | ⟨-, he⟩⟩ | ⟨ident, -, he⟩ <;> rw [he]
  · exact exec_answers _ s
  · exact exec_answers i _
  · exact ⟨_, rfl⟩
  · exact exec_answers i _
  · exact ⟨_, rfl⟩
  · exact ⟨_, rfl⟩
  · exact ⟨_, rfl⟩

theorem engineStep_answers (s : State) : ∃ t, engineStep s = .next t := by
  unfold engineStep
  split
  · exact engineTurn_answers s
  · exact ⟨s, rfl⟩

/-- Only a move of the host can stop a step. -/
theorem host_move_of_stop {s : State} (hstop : ∀ t, step s ≠ .next t) : ∃ a rest, s.moves = .host a :: rest := by
  by_contra hhost
  have hanswers : ∃ t, step s = .next t := by
    unfold step
    split
    next => exact engineStep_answers s
    next a rest hm => exact absurd ⟨a, rest, hm⟩ hhost
    next => exact engineStep_answers _
    next => exact ⟨_, rfl⟩
  obtain ⟨t, ht⟩ := hanswers
  exact hstop t ht

/-- Settles O17: an access that stops the step is outside the window or its buffer, since one within answers; O8 and O9
name the refusal. -/
theorem onlyUndefinedHostAccessesStop : Obligations.OnlyUndefinedHostAccessesStop := by
  refine ⟨exec_answers, fun s hstop => ?_⟩
  obtain ⟨access, rest, hm⟩ := host_move_of_stop hstop
  have hregister := accessOutsideTheRegisterWindowIsRefused s
  have hbuffer := bufferAccessBeyondCapacityIsRefused s
  cases access with
  | regWrite bits off v =>
    have hout : ¬ (bits = 32 ∧ off % 4 = 0 ∧ off ≤ 0x1C) := by
      rintro ⟨rfl, halign, hle⟩
      obtain ⟨r, rfl⟩ := exists_reg_offset_eq halign hle
      exact hstop _ (step_of_regWrite r hm)
    obtain ⟨hrefused, -⟩ := hregister bits off v rest
    exact .inl ⟨(hrefused hm).2 hout, bits, off, v, rest, .inl hm, hout⟩
  | regRead bits off =>
    have hout : ¬ (bits = 32 ∧ off % 4 = 0 ∧ off ≤ 0x1C) := by
      rintro ⟨rfl, halign, hle⟩
      obtain ⟨r, rfl⟩ := exists_reg_offset_eq halign hle
      exact hstop _ (step_of_regRead hm)
    obtain ⟨-, hrefused⟩ := hregister bits off 0 rest
    exact .inl ⟨(hrefused hm).2 hout, bits, off, 0, rest, .inr hm, hout⟩
  | inWrite a b =>
    have hout : s.cfg.inMemBytes ≤ a := Nat.not_lt.1 fun ha => hstop _ (step_of_inWrite ha hm)
    obtain ⟨hrefused, -, -, -⟩ := hbuffer a b rest
    exact .inr ⟨(hrefused hm).2 hout, a, b, rest, .inl ⟨.inl hm, hout⟩⟩
  | inRead a =>
    have hout : s.cfg.inMemBytes ≤ a := Nat.not_lt.1 fun ha => hstop _ (step_of_inRead ha hm)
    obtain ⟨-, hrefused, -, -⟩ := hbuffer a 0 rest
    exact .inr ⟨(hrefused hm).2 hout, a, 0, rest, .inl ⟨.inr hm, hout⟩⟩
  | outWrite a b =>
    have hout : s.cfg.outMemBytes ≤ a := Nat.not_lt.1 fun ha => hstop _ (step_of_outWrite ha hm)
    obtain ⟨-, -, hrefused, -⟩ := hbuffer a b rest
    exact .inr ⟨(hrefused hm).2 hout, a, b, rest, .inr ⟨.inl hm, hout⟩⟩
  | outRead a =>
    have hout : s.cfg.outMemBytes ≤ a := Nat.not_lt.1 fun ha => hstop _ (step_of_outRead ha hm)
    obtain ⟨-, -, -, hrefused⟩ := hbuffer a 0 rest
    exact .inr ⟨(hrefused hm).2 hout, a, 0, rest, .inr ⟨.inr hm, hout⟩⟩

/-! ## How long an outcome lasts -/

/-- Both states show the host the same command and the same outcome of it (60_exceptions.md R144). -/
structure SameOutcome (s t : State) : Prop where
  run : t.run = s.run
  err : t.err = s.err
  outLen : t.outLen = s.outLen
  cmdOp : t.cmdOp = s.cmdOp
  outMem : t.outMem = s.outMem

/-- No host access but a CMD write changes the outcome. -/
theorem SameOutcome.of_hostStep {a : HostAccess} {s t : State} (hcmd : ∀ v, a ≠ .regWrite 32 0x00 v)
    (h : hostStep a s = .next t) : SameOutcome s t := by
  rcases hostStep_cases a s t h with rfl | ⟨-, v, ha, -⟩ | ⟨-, v, rfl | rfl | rfl⟩ | ⟨-, x, b, -, -, rfl⟩ | ⟨r, rfl⟩ | rfl
  case inr.inl => exact absurd ha (hcmd v)
  all_goals exact ⟨rfl, rfl, rfl, rfl, rfl⟩

/-- While no command runs, no step but a CMD write and a reset changes the outcome. -/
theorem SameOutcome.of_step {s t : State} (hb : s.run ≠ .busy)
    (hcmd : ∀ v rest, s.moves ≠ .host (.regWrite 32 0x00 v) :: rest) (hreset : ∀ rest, s.moves ≠ .reset :: rest)
    (h : step s = .next t) : SameOutcome s t := by
  rcases step_cases s t h with ⟨-, -, rfl⟩ | ⟨rest, -, -, rfl⟩ | ⟨hbusy, -, -⟩ | ⟨a, rest, hm, hh⟩ | ⟨rest, hm, -⟩
  · exact ⟨rfl, rfl, rfl, rfl, rfl⟩
  · exact ⟨rfl, rfl, rfl, rfl, rfl⟩
  · exact absurd hbusy hb
  · obtain ⟨hrun, herr, hlen, hop, hout⟩ := of_hostStep (fun v ha => hcmd v rest (ha ▸ hm)) hh
    exact ⟨hrun, herr, hlen, hop, hout⟩
  · exact absurd hm (hreset rest)

/-- Settles O18: with an outcome recorded no command runs. -/
theorem outcomePersistsUntilTheNextStart : Obligations.OutcomePersistsUntilTheNextStart := by
  intro s t hended h hcmd hreset
  have hb : s.run ≠ .busy := by rcases hended with hrun | hrun <;> rw [hrun] <;> decide
  obtain ⟨hrun, herr, hlen, hop, hout⟩ := SameOutcome.of_step hb hcmd hreset h
  exact ⟨hrun, herr, hlen, hop, fun a => by rw [hout]⟩

/-! ## Compression -/

/-- Nine bits for each byte are more than the byte itself (00_scope.md R9). -/
theorem inMemBytes_le_lzssMax (c : Params) : c.inMemBytes ≤ c.lzssMax := by
  rw [Params.lzssMax]
  omega

/-- The Huffman container of an input that fits IN fits OUT (00_scope.md R10, 93_implementation_defined.md G4). -/
theorem huffmanContainer_fits {c : Params} (hc : c.Valid) {x : List Byte} (hin : x.length ≤ c.inMemBytes) :
    261 + ((codeBits (lensOfBytes (lensFor x)) x).length + 7) / 8 ≤ c.outMemBytes := by
  have hbody := huffmanBodyIsNeverLongerThanItsInput x
  have hmax := inMemBytes_le_lzssMax c
  obtain ⟨-, -, -, -, -, -, -, -, -, hout⟩ := hc
  omega

/-- Settles O55, by what each compress command writes: O40, O28 and O46. -/
theorem compressionNeverFails : Obligations.CompressionNeverFails := by
  rintro s i hc hfit (rfl | ⟨rfl | rfl, hlegal⟩)
  · obtain ⟨t, ht, -, houtput, -⟩ := huffmanCompressWritesTheContainer s hfit
    obtain ⟨hrun, herr, -, -⟩ := houtput (huffmanContainer_fits hc (by rwa [inputBytes_length]))
    exact ⟨t, ht, hrun, herr⟩
  · obtain ⟨t, ht, ⟨hrun, herr, -, -⟩, -⟩ := lzssCompressWritesTheContainer s hc hfit hlegal
    exact ⟨t, ht, hrun, herr⟩
  · obtain ⟨t, ht, ⟨hrun, herr, -, -⟩, -⟩ := hsCompressWritesTheNestedContainer s hc hfit hlegal _ rfl
    exact ⟨t, ht, hrun, herr⟩

end Sys2Proof.Machine
end

section
/-! PROOFS. Reset, and the host sequence that runs a command (70_reset_and_hazards.md). -/

namespace Sys2Proof.Machine

/-! ## Reset -/

theorem step_of_reset {s : State} {rest : List Move} (hm : s.moves = .reset :: rest) :
    step s = .next (resetEvent { s with moves := rest }) := by
  simp only [step, hm]

/-- The fields that a reset keeps are no register's (log entry 12). -/
theorem readReg_resetEvent (r : Reg) (s : State) : readReg r (resetEvent s) = readReg r (State.resetOf s.cfg) := by
  cases r <;> rfl

/-- Settles O2: the registers are those of O1. -/
theorem resetAbandonsTheRunningCommand : Obligations.ResetAbandonsTheRunningCommand := by
  intro s rest hm
  obtain ⟨hregisters, -⟩ := resetGivesEveryRegisterItsValue
  exact ⟨_, step_of_reset hm, fun r => (readReg_resetEvent r _).trans (hregisters s.cfg r),
    rfl, rfl, fun _ => ⟨rfl, rfl, rfl⟩, rfl, rfl⟩

/-! ## Polling -/

/-- `s` with the moves `rest` to come, once the host has read `answers` (log entry 6). -/
def answered (answers : List Response) (rest : List Move) (s : State) : State :=
  { s with moves := rest, responses := s.responses ++ answers }

theorem statusWord_answered (answers : List Response) (rest : List Move) (s : State) :
    statusWord (answered answers rest s) = statusWord s := rfl

theorem answered_answered (answers more : List Response) (rest rest' : List Move) (s : State) :
    answered more rest' (answered answers rest s) = answered (answers ++ more) rest' s := by
  simp only [answered, List.append_assoc]

/-- One poll answers STATUS and changes nothing else (20_memory.md R47). -/
theorem step_of_poll {s : State} {rest : List Move} (hm : s.moves = rdMove .status :: rest) :
    step s = .next (answered [.word (statusWord s)] rest s) :=
  step_of_regRead hm

/-- Polls with no turn of the engine between them all answer the same STATUS. -/
theorem core_run_polls (polls k : Nat) {s : State} {rest : List Move}
    (hm : s.moves = List.replicate polls (rdMove .status) ++ rest) :
    core.run (polls + k) s = core.run k (answered (List.replicate polls (.word (statusWord s))) rest s) := by
  induction polls generalizing s with
  | zero =>
    have hmoves : s.moves = rest := hm
    rw [Nat.zero_add, ← hmoves, answered, List.replicate_zero, List.append_nil]
  | succ polls ih =>
    have hpoll := step_of_poll (rest := List.replicate polls (rdMove .status) ++ rest) hm
    rw [Nat.add_right_comm, core_run_succ hpoll, ih rfl, answered_answered, statusWord_answered]
    rfl

/-- `s` after the polls of `wait` before the completion step, with the last poll and then `rest` to come. -/
def polled (polls : Nat) (rest : List Move) (s : State) : State :=
  answered (List.replicate polls (.word (statusWord s))) (rdMove .status :: rest) s

/-- `s` after a poll, with `rest` to come. -/
def lastPoll (rest : List Move) (s : State) : State := answered [.word (statusWord s)] rest s

theorem lastPoll_responses (rest : List Move) (s : State) :
    (lastPoll rest s).responses = s.responses ++ [.word (statusWord s)] := rfl

/-- The completion step of the command of CMD.OP (10_state.md R31). -/
def completion (s : State) : State := complete (commandValue (decodeCommand (cmdWord s)) s) s

theorem exec_decodeCommand (s : State) : exec (decodeCommand (cmdWord s)) s = .next (completion s) :=
  exec_command _ s (commandOp_decodeCommand _)

theorem completion_moves (s : State) : (completion s).moves = s.moves := complete_moves _ s

theorem completion_responses (s : State) : (completion s).responses = s.responses := by
  obtain ⟨-, -, -, -, -, -, -, hresponses⟩ := exec_keepsOperands _ s _ (exec_decodeCommand s)
  exact hresponses

theorem length_waitMoves (polls : Nat) : (waitMoves polls).length = polls + 2 := by
  simp [waitMoves]

/-- The poll loop of `wait` on a command: the polls before the completion step answer STATUS as it is, that step gives
the value of Exec, and the last poll answers the STATUS it leaves (30_encoding.md R73). -/
theorem core_run_wait (polls : Nat) {s : State} {rest : List Move} (hb : s.run = .busy) (hs : s.work.stage = .command)
    (hm : s.moves = waitMoves polls ++ rest) :
    core.run (polls + 2) s = .next (lastPoll rest (completion (polled polls rest s))) := by
  have hmoves : s.moves = List.replicate polls (rdMove .status) ++ (.engine :: rdMove .status :: rest) := by
    rw [hm, waitMoves, List.append_assoc]
    rfl
  have hturn := step_of_engine_of_busy (rest := rdMove .status :: rest)
    (s := answered (List.replicate polls (.word (statusWord s))) (.engine :: rdMove .status :: rest) s) hb rfl
  have hcompletion : engineTurn (polled polls rest s) = .next (completion (polled polls rest s)) :=
    engineTurn_ends_command hs
  rw [core_run_polls polls 2 hmoves, core_run_succ (hturn.trans hcompletion),
    core_run_succ (step_of_poll (completion_moves _))]
  rfl

/-! ## The host sequence that runs a command -/

theorem length_inWrites (a : Nat) (bs : List Byte) : (inWrites a bs).length = bs.length := by
  induction bs generalizing a with
  | nil => rfl
  | cons b bs ih => rw [inWrites, List.length_cons, ih, List.length_cons]

/-- The sequence of R155, line by line. -/
theorem hostRun_eq (bs : List Byte) (d l : Word) (op : BitVec 4) (polls : Nat) :
    hostRun bs d l op polls =
      (HostLine.load bs).moves ++
        (wrMove .dictSize d :: wrMove .lookaheadSize l :: wrMove .cmd (op.setWidth 32) :: waitMoves polls) := by
  simp [hostRun, HostLine.moves]

theorem length_hostRun (bs : List Byte) (d l : Word) (op : BitVec 4) (polls : Nat) :
    (hostRun bs d l op polls).length = bs.length + 1 + (polls + 2 + 3) := by
  simp only [hostRun_eq, HostLine.moves, List.length_append, List.length_cons, List.length_nil, length_inWrites,
    length_waitMoves]

/-- The state in which the poll loop of R155 begins: the input loaded, the sizes set and the command started. -/
def started (bs : List Byte) (d l : Word) (op : BitVec 4) (s : State) : State :=
  startCommand op { loaded bs s with dictSize := d, lookaheadSize := l }

theorem extractLsb'_setWidth_op (op : BitVec 4) : (op.setWidth 32).extractLsb' 0 4 = op := by
  apply BitVec.eq_of_toNat_eq
  rw [opBits_toNat, BitVec.toNat_setWidth]
  omega

/-- A register write while no command runs takes a step of its own (30_encoding.md R72). -/
theorem core_run_wrMove (r : Reg) (v : Word) (k : Nat) (rest : List Move) {s : State} (hb : s.run ≠ .busy) :
    core.run (k + 1) { s with moves := wrMove r v :: rest } = core.run k (writeRegIdle r v { s with moves := rest }) :=
  core_run_succ (step_of_regWrite_of_not_busy r (s := { s with moves := wrMove r v :: rest }) hb rfl) k

/-- The CMD write of `run op` starts `op` (30_encoding.md R73). -/
theorem writeRegIdle_cmd_setWidth (op : BitVec 4) (s : State) :
    writeRegIdle .cmd (op.setWidth 32) s = startCommand op s := by
  rw [writeRegIdle, extractLsb'_setWidth_op]

/-- The sequence of R155 up to its poll loop. -/
theorem core_run_start (bs : List Byte) (d l : Word) (op : BitVec 4) (k : Nat) {s : State} {rest : List Move}
    (hb : s.run ≠ .busy) (hfit : bs.length ≤ s.cfg.inMemBytes)
    (hm : s.moves = (HostLine.load bs).moves ++
      (wrMove .dictSize d :: wrMove .lookaheadSize l :: wrMove .cmd (op.setWidth 32) :: rest)) :
    core.run (bs.length + 1 + (k + 3)) s = core.run k { started bs d l op s with moves := rest } := by
  have hdict := core_run_wrMove .dictSize d (k + 2) (wrMove .lookaheadSize l :: wrMove .cmd (op.setWidth 32) :: rest)
    (s := loaded bs s) hb
  have hlookahead := core_run_wrMove .lookaheadSize l (k + 1) (wrMove .cmd (op.setWidth 32) :: rest)
    (s := { loaded bs s with dictSize := d }) hb
  have hcmd := core_run_wrMove .cmd (op.setWidth 32) k rest
    (s := { loaded bs s with dictSize := d, lookaheadSize := l }) hb
  rw [writeRegIdle_cmd_setWidth] at hcmd
  exact (core_run_load bs (k + 3) hb hfit hm).trans (hdict.trans (hlookahead.trans hcmd))

/-- A command that has just been started reads as STATE = BUSY and ERR = 0 (10_state.md R20, R30). -/
theorem statusWord_startCommand (op : BitVec 4) (s : State) : statusWord (startCommand op s) = 1 :=
  BitVec.eq_of_toNat_eq (statusWord_toNat (startCommand op s))

theorem polled_started_responses (bs : List Byte) (d l : Word) (op : BitVec 4) (polls : Nat) (rest : List Move)
    (s : State) :
    (polled polls rest (started bs d l op s)).responses = s.responses ++ List.replicate polls (.word 1) := by
  rw [polled, started, statusWord_startCommand]
  rfl

/-- The whole sequence of R155: the command completes in the state after the polls before its completion step. -/
theorem core_run_hostRun (bs : List Byte) (d l : Word) (op : BitVec 4) (polls : Nat) {s : State} {rest : List Move}
    (hb : s.run ≠ .busy) (hfit : bs.length ≤ s.cfg.inMemBytes) (hm : s.moves = hostRun bs d l op polls ++ rest) :
    core.run (hostRun bs d l op polls).length s =
      .next (lastPoll rest (completion (polled polls rest (started bs d l op s)))) := by
  have hmoves : s.moves = (HostLine.load bs).moves ++ (wrMove .dictSize d :: wrMove .lookaheadSize l ::
      wrMove .cmd (op.setWidth 32) :: (waitMoves polls ++ rest)) := by
    rw [hm, hostRun_eq, List.append_assoc]
    rfl
  rw [length_hostRun, core_run_start bs d l op (polls + 2) hb hfit hmoves]
  exact core_run_wait polls rfl rfl rfl

/-- Settles O14, by the run of the whole sequence: loading, starting and polling. -/
theorem hostRunSeesTheOutcomeOfItsCommand : Obligations.HostRunSeesTheOutcomeOfItsCommand := by
  intro s bs d l op polls rest hb hfit hlen hm
  have hexec := exec_decodeCommand (polled polls rest (started bs d l op s))
  have hrun := core_run_hostRun bs d l op polls hb hfit hm
  refine ⟨polled polls rest (started bs d l op s), _, _, loaded_hasInput hlen s, rfl, rfl, rfl, rfl,
    hexec, hrun, rfl, rfl, rfl, fun _ => rfl, rfl, ?_⟩
  rw [lastPoll_responses, completion_responses, polled_started_responses]

end Sys2Proof.Machine
end
